-- ==== Sys2Proof/Word.lean ====
section
/-! DEFINITION. The word types of CORE (`00_scope.md` R6, R11, R13). -/

namespace Sys2Proof

/-- A byte (R13): an unsigned integer in `[0, 256)`. -/
abbrev Byte := BitVec 8

/-- A digest A word (`41_digest_a.md` R120). -/
abbrev W32 := BitVec 32

/-- A digest B word, a scalar register or a point coordinate (`00_scope.md` R6: `SW = 64`). -/
abbrev W64 := BitVec 64

end Sys2Proof
end

