-- ==== Sys2Proof/Machine/Bytes.lean ====
section
/-! DEFINITION. Byte sequences and byte orders (`00_scope.md` R13; `20_memory.md` R54, R55). -/

namespace Sys2Proof.Machine

/-- `zeros(k)` (R13). -/
def zeros (k : Nat) : List Byte := List.replicate k 0

/-- `B[i .. i+k)` (R13). -/
def slice (bs : List Byte) (i k : Nat) : List Byte := (bs.drop i).take k

/-- The integer of a byte sequence, first byte most significant; every byte unsigned (R55). -/
def beNat (bs : List Byte) : Nat := bs.foldl (fun acc b => acc * 256 + b.toNat) 0

/-- The integer of a byte sequence, first byte least significant; every byte unsigned (R55). -/
def leNat : List Byte → Nat
  | [] => 0
  | b :: bs => b.toNat + 256 * leNat bs

/-- `BE32(B)` of 4 bytes (R13). -/
def wordBE32 (bs : List Byte) : W32 := BitVec.ofNat 32 (beNat bs)

/-- `LE64(B)` of 8 bytes (R13). -/
def wordLE64 (bs : List Byte) : W64 := BitVec.ofNat 64 (leNat bs)

/-- `be32(w)` (R13): 4 bytes, most significant first. -/
def be32 (w : W32) : List Byte := [24, 16, 8, 0].map fun k => w.extractLsb' k 8

/-- `be64(v)` (R13): 8 bytes, most significant first. -/
def be64 (v : W64) : List Byte := [56, 48, 40, 32, 24, 16, 8, 0].map fun k => v.extractLsb' k 8

/-- `le64(w)` (R13): 8 bytes, least significant first. -/
def le64 (w : W64) : List Byte := [0, 8, 16, 24, 32, 40, 48, 56].map fun k => w.extractLsb' k 8

/-- The sum of a byte sequence as unsigned integers (`44_hash_reducers.md` R232; R55). -/
def byteSum (bs : List Byte) : Nat := (bs.map BitVec.toNat).sum

end Sys2Proof.Machine
end

