-- ==== Sys2Proof/Config.lean ====
section
/-! DEFINITION. The configuration of CORE: the curve record of `00_scope.md` R5, the policy constants of R7 and
the open parameters of R8. Nothing here is state (`10_state.md` R39). An open parameter is an opaque constant:
a statement about CORE holds for every value R8 allows it. -/

namespace Sys2Proof

/-- The six curve constants, one record so that a claim may name them (R5). -/
structure Curve where
  q : Nat
  a : Nat
  b : Nat
  gx : Nat
  gy : Nat
  n : Nat
  deriving DecidableEq, Repr

/-- The open parameters of digest A (R8; `41_digest_a.md` R120, R123). -/
structure DigestAParams where
  iv : Vector W32 4
  sched : Vector W32 16 → Vector W32 32
  round : Fin 32 → W32 → Vector W32 4 → Vector W32 4

/-- The two values of `B_FULLFINAL` (R8; `42_digest_b.md` R164). -/
inductive FullFinal where
  | lastFullIsFinal
  | extraEmptyFinal
  deriving DecidableEq, Repr, Inhabited

/-- A permutation table row: 16 indices in `0..15` (R8). -/
abbrev SigmaRow := Vector (Fin 16) 16

/-- The open parameters of digest B (R8; `42_digest_b.md` R151 to R155, R164). -/
structure DigestBParams where
  iv : Vector W64 8
  cv : Vector W64 8
  sigma : Vector SigmaRow 10
  param : Nat → W64
  fullFinal : FullFinal

/-- The whole configuration record. -/
structure Config where
  mbsize : Nat
  curve : Curve
  digestA : DigestAParams
  digestB : DigestBParams

namespace Config

/-! ### Policy constants (R7), copied exactly -/

/-- Attempt budget of the signing loop. -/
def retry : Nat := 100

/-- Bytes the no-hash reducer consumes at most. -/
def noHashBytes : Nat := 8

/-- Digest A block size in bytes. -/
def aBlock : Nat := 64

/-- Digest A output bytes. -/
def aOut : Nat := 16

/-- Digest B block size in bytes. -/
def bBlock : Nat := 128

/-- Digest B mixing rounds. -/
def bRounds : Nat := 12

/-- Largest digest B output length in bytes. -/
def bMaxOut : Nat := 64

/-- Digest B output length the reducers use. -/
def bSigLen : Nat := 32

/-- Size of the digest buffer (`10_state.md` R28). -/
def dgSize : Nat := 64

/-! ### The curve (R5) -/

/-- `q = 29, a = 4, b = 20, G = (1, 5), n = 37` (R5, decision D2 of the spec). -/
def curveDs1 : Curve := { q := 29, a := 4, b := 20, gx := 1, gy := 5, n := 37 }

/-! ### Open parameters (R8): DESIGN CHOICE, each left free (log entries 3, 4, 5) -/

/-- `A_IV`: not printed by the source (N1). -/
opaque aIV : Vector W32 4

/-- `A_SCHED`: not printed by the source (N2). -/
opaque aSched : Vector W32 16 → Vector W32 32

/-- `A_ROUND`: not printed by the source (N3, N4). -/
opaque aRound : Fin 32 → W32 → Vector W32 4 → Vector W32 4

/-- `B_IV`: not printed by the source (N5). -/
opaque bIV : Vector W64 8

/-- `B_CV`: not printed by the source (N6). -/
opaque bCV : Vector W64 8

/-- The unconstrained table from which `B_SIGMA` is read (N7). -/
opaque bSigmaRaw : Nat → SigmaRow

/-- `B_PARAM`: its layout is not printed by the source (N10). -/
opaque bParam : Nat → W64

/-- `B_FULLFINAL`: either value (N12, decision D22). -/
opaque bFullFinal : FullFinal

/-- The number that fixes `MBSIZE`. -/
opaque mbBlocks : Nat

/-- The random source beyond the draws that State lists (`46_system.md` R290): a stream under no law. -/
opaque randomSource : Nat → W64

/-- A row of `B_SIGMA` is a permutation (R8): a row that is none is replaced by the identity. -/
def permRow (r : SigmaRow) : SigmaRow :=
  if r.toList.Nodup then r else Vector.ofFn id

/-- `B_SIGMA`: every table of ten permutations is a value of it, and nothing else is (R8). -/
def bSigma : Vector SigmaRow 10 := Vector.ofFn fun i => permRow (bSigmaRaw i.val)

/-- `MBSIZE`: every multiple of 128 with `64 ≤ MBSIZE < 2^29` is a value of it, and nothing else is (R8). -/
def mbsizeOpen : Nat := 128 * (1 + mbBlocks % (2 ^ 22 - 1))

/-- The configuration of the machine. -/
def core : Config where
  mbsize := mbsizeOpen
  curve := curveDs1
  digestA := { iv := aIV, sched := aSched, round := aRound }
  digestB := { iv := bIV, cv := bCV, sigma := bSigma, param := bParam, fullFinal := bFullFinal }

/-- What R8 requires of a configuration (`93_implementation_defined.md` U20 refuses any other). -/
structure Legal (c : Config) : Prop where
  lower : 64 ≤ c.mbsize
  upper : c.mbsize < 2 ^ 29
  multiple : c.mbsize % 128 = 0
  perm : ∀ i : Fin 10, c.digestB.sigma[i].toList.Nodup

/-! ### `B_STD`: the reference instantiation (`42_digest_b.md` R152 to R155), PRESUMED by the spec itself
("from general knowledge, not in source"). The machine does not use it; a claim or a test may name it. -/

/-- R152. -/
def bStdIV : Vector W64 8 :=
  #v[0x6A09E667F3BCC908, 0xBB67AE8584CAA73B, 0x3C6EF372FE94F82B, 0xA54FF53A5F1D36F1,
     0x510E527FADE682D1, 0x9B05688C2B3E6C1F, 0x1F83D9ABFB41BD6B, 0x5BE0CD19137E2179]

/-- R154. -/
def bStdSigma : Vector SigmaRow 10 :=
  #v[#v[0, 1, 2, 3, 4, 5, 6, 7, 8, 9, 10, 11, 12, 13, 14, 15],
     #v[14, 10, 4, 8, 9, 15, 13, 6, 1, 12, 0, 2, 11, 7, 5, 3],
     #v[11, 8, 12, 0, 5, 2, 15, 13, 10, 14, 3, 6, 7, 1, 9, 4],
     #v[7, 9, 3, 1, 13, 12, 11, 14, 2, 6, 5, 10, 4, 0, 15, 8],
     #v[9, 0, 5, 7, 2, 4, 10, 15, 14, 1, 11, 12, 6, 8, 3, 13],
     #v[2, 12, 6, 10, 0, 11, 8, 3, 4, 13, 7, 5, 15, 14, 1, 9],
     #v[12, 5, 1, 15, 14, 13, 4, 10, 0, 7, 6, 3, 9, 2, 8, 11],
     #v[13, 11, 7, 14, 12, 1, 3, 9, 5, 0, 15, 4, 8, 6, 2, 10],
     #v[6, 15, 14, 9, 11, 3, 0, 8, 12, 2, 13, 7, 1, 4, 10, 5],
     #v[10, 2, 8, 4, 7, 6, 1, 5, 15, 11, 9, 14, 3, 12, 13, 0]]

/-- R155: `0x0000000001010000 ^ L`. -/
def bStdParam (l : Nat) : W64 := 0x0000000001010000 ^^^ BitVec.ofNat 64 l

/-- `B_STD` with the default `B_FULLFINAL` (R152 to R155, R164; R153: `B_CV = B_IV`). -/
def bStd : DigestBParams where
  iv := bStdIV
  cv := bStdIV
  sigma := bStdSigma
  param := bStdParam
  fullFinal := .lastFullIsFinal

end Config

end Sys2Proof
end

