-- ==== Sys2Proof/Syntax.lean ====
section
/-! DEFINITION. The 27 commands of CORE (`30_encoding.md` R73), one constructor per row of the opcode table. -/

namespace Sys2Proof

/-- Number of a scalar register, field kind `S` (`30_encoding.md` R71). -/
abbrev SReg := Fin 16

/-- Number of a point register, field kind `P` (R71: 0 to 7). -/
abbrev PReg := Fin 8

/-- The hash variants, codes 0 to 3 (R78). -/
inductive Variant where
  /-- 0, `none`: no hash. -/
  | noHash
  /-- 1, `a`: digest A. -/
  | hashA
  /-- 2, `b`: digest B. -/
  | hashB
  /-- 3, `ab`: digest A, then digest B. -/
  | hashAB
  deriving DecidableEq, Repr

/-- A command with its operands (R73). `len` is the digest length immediate, any 8-bit value (R71, R77). -/
inductive Instr where
  | nop
  | clre
  | modred (rd rv rm : SReg)
  | modmul (rd rx ry rm : SReg)
  | modinv (rd rv rm : SReg)
  | daInit
  | daCmp (roff : SReg)
  | daOut
  | daHash
  | dbInit (len : BitVec 8)
  | dbCmp (roff rt : SReg) (last : Bool)
  | dbOut
  | dbHash (len : BitVec 8)
  | dbHashd (len : BitVec 8)
  | pinf (pd : PReg)
  | pldg (pd : PReg)
  | pset (pd : PReg) (rx ry : SReg)
  | pgetx (rd : SReg) (pa : PReg)
  | pgety (rd : SReg) (pa : PReg)
  | pisinf (rd : SReg) (pa : PReg)
  | padd (pd pa pb : PReg)
  | pdbl (pd pa : PReg)
  | pmul (pd : PReg) (rk : SReg) (pa : PReg)
  | hred (rd : SReg) (v : Variant)
  | keygen (rd : SReg) (pq : PReg)
  | sign (rr rs rk : SReg) (v : Variant)
  | verify (rd rr rs : SReg) (pq : PReg) (v : Variant)
  deriving DecidableEq, Repr

/-- The row's mnemonic (R73). -/
def Instr.mnemonic : Instr → String
  | .nop => "NOP"
  | .clre => "CLRE"
  | .modred _ _ _ => "MODRED"
  | .modmul _ _ _ _ => "MODMUL"
  | .modinv _ _ _ => "MODINV"
  | .daInit => "DA.INIT"
  | .daCmp _ => "DA.CMP"
  | .daOut => "DA.OUT"
  | .daHash => "DA.HASH"
  | .dbInit _ => "DB.INIT"
  | .dbCmp _ _ _ => "DB.CMP"
  | .dbOut => "DB.OUT"
  | .dbHash _ => "DB.HASH"
  | .dbHashd _ => "DB.HASHD"
  | .pinf _ => "PINF"
  | .pldg _ => "PLDG"
  | .pset _ _ _ => "PSET"
  | .pgetx _ _ => "PGETX"
  | .pgety _ _ => "PGETY"
  | .pisinf _ _ => "PISINF"
  | .padd _ _ _ => "PADD"
  | .pdbl _ _ => "PDBL"
  | .pmul _ _ _ => "PMUL"
  | .hred _ _ => "HRED"
  | .keygen _ _ => "KEYGEN"
  | .sign _ _ _ _ => "SIGN"
  | .verify _ _ _ _ _ => "VERIFY"

end Sys2Proof
end

