-- ==== Sys2Proof/Machine/State.lean ====
section
/-! DEFINITION. The architectural state of CORE (`10_state.md`), its two neighbours as plain data (the host's
pending operations and the draws), the ways a step can stop, and the state after reset. -/

namespace Sys2Proof.Machine

/-- A buffer (`20_memory.md` R50): (address, byte) pairs in one canonical form, addresses strictly rising, no
entry equal to what an unlisted address reads as. -/
abbrev Memory := List Host.Cell

/-- What an unlisted address reads as: the reset contents, every byte 0 (`10_state.md` R40). -/
def unlistedByte : Byte := 0

/-- A point register (`10_state.md` R22): the fields `INF`, `X`, `Y`. -/
structure PointReg where
  inf : Bool
  x : W64
  y : W64
  deriving DecidableEq, Repr

/-- A point (`43_ec_group.md` R190): `INF`, or a finite pair of non-negative integers. -/
inductive Point where
  | inf
  | finite (x y : Nat)
  deriving DecidableEq, Repr

/-- The error causes (`60_exceptions.md` R302). -/
inductive Cause where
  /-- 1: the word decodes to no command. -/
  | illegal
  /-- 2: `modinv(v, m)` with `gcd(v, m) ≠ 1`. -/
  | domain
  /-- 3: 100 attempts without an accepted signature. -/
  | exhausted
  /-- 4: a digest length outside `[1, 64]`. -/
  | arg
  /-- 5: a buffer range exceeded. -/
  | bounds
  /-- 6: a modulus of 0. -/
  | modzero
  /-- 7: a coordinate of the point at infinity. -/
  | infcoord
  /-- 8: a draw outside `[1, n-1]`. -/
  | rng
  deriving DecidableEq, Repr

/-- The random port (`46_system.md` R290): the draws given to the machine, and how many have been made. When
the given draws are used up, the opaque `Config.randomSource` answers (log entry 2; the MODEL's own fields). -/
structure Rng where
  queued : List W64
  index : Nat
  deriving DecidableEq, Repr

/-- The host operations (`46_system.md` R285). -/
inductive HostOp where
  | readReg (idx : BitVec 12)
  | writeReg (idx : BitVec 12) (v : W64)
  | readMB (i : Nat)
  | writeMB (i : Nat) (b : Byte)
  | readDG (i : Nat)
  | reset
  deriving DecidableEq, Repr

/-- What the last host operation returned (`46_system.md` R285): reads return a value, the others nothing. -/
inductive HostReply where
  | nothing
  | word (v : W64)
  | byte (b : Byte)
  deriving DecidableEq, Repr

/-- The host's side of the port: the operations still to come, in order, and the last reply (log entry 1; the
MODEL's own fields). -/
structure HostPort where
  pending : List HostOp
  reply : HostReply
  deriving DecidableEq, Repr

/-- The state of CORE: `10_state.md` R20 to R36, at the widths of the register table R36; then the random port
and the host port. -/
structure State where
  scalars : Vector W64 16
  points : Vector PointReg 8
  ha : Vector W32 4
  hb : Vector W64 8
  hbl : BitVec 7
  mb : Memory
  mlen : W64
  dg : Memory
  dlen : BitVec 7
  status : BitVec 1
  cause : BitVec 4
  esticky : BitVec 9
  att : BitVec 7
  rng : Rng
  port : HostPort
  deriving DecidableEq, Repr

/-- The faults of CORE: none. An error is a cause in a register, not a stop, and no behaviour is stuck
(`60_exceptions.md` R305; `93_implementation_defined.md` part 1). Having no constructor is safe: no step can
end in a fault (log entry 10). -/
inductive Fault where
  deriving DecidableEq, Repr

/-- The refusals of the model. -/
inductive Refusal where
  /-- Raised by `exec` for an instruction that has no meaning yet: none is left (safe). -/
  | notModelled (mnemonic : String)
  deriving DecidableEq, Repr

/-- The outcome of a step of CORE. -/
abbrev Result := Host.Outcome State Fault Refusal

/-- How a command ends (`60_exceptions.md` R303, R304): it completes with its effects, or it raises a cause and
leaves the given data state. -/
inductive CommandEnd where
  | completes (s : State)
  | raises (c : Cause) (s : State)
  deriving DecidableEq, Repr

/-- The point at infinity as a register writes it (`10_state.md` R22). -/
def PointReg.infinity : PointReg := { inf := true, x := 0, y := 0 }

/-- The machine right after reset (`10_state.md` R40; `70_reset_and_hazards.md` R330). The random port and the
host port are outside CORE: no draw given, no operation pending (DESIGN CHOICE, log entries 1 and 2). -/
def State.reset : State where
  scalars := Vector.replicate 16 0
  points := Vector.replicate 8 PointReg.infinity
  ha := Vector.replicate 4 0
  hb := Vector.replicate 8 0
  hbl := 0
  mb := []
  mlen := 0
  dg := []
  dlen := 0
  status := 0
  cause := 0
  esticky := 0
  att := 0
  rng := { queued := [], index := 0 }
  port := { pending := [], reply := .nothing }

end Sys2Proof.Machine
end

