-- ==== Sys2Proof/Machine/Flags.lean ====
section
/-! DEFINITION. The only flag of CORE, `STATUS.ERR`, the cause codes, the sticky bits, and the form of boolean
results (`10_state.md` R31 to R33, R37; `60_exceptions.md` R302, R303). -/

namespace Sys2Proof.Machine

/-- The code of a cause (R302). -/
def Cause.code : Cause → BitVec 4
  | .illegal => 1
  | .domain => 2
  | .exhausted => 3
  | .arg => 4
  | .bounds => 5
  | .modzero => 6
  | .infcoord => 7
  | .rng => 8

/-- The `ESTICKY` register with the bit of a cause set: bit `c` for cause code `c` (R33, R303). -/
def stickyWith (e : BitVec 9) (c : Cause) : BitVec 9 := e ||| (1#9 <<< c.code.toNat)

/-- A boolean result as a scalar register holds it (R37). -/
def boolScalar (b : Bool) : W64 := if b then 1 else 0

end Sys2Proof.Machine
end

