-- ==== Sys2Proof/Machine/Ops.lean ====
section
/-! DEFINITION. The named operations over buffers and registers (`00_scope.md` R14), the draw, and raising an
error (`60_exceptions.md` R303). These are the only ways a command touches state. -/

namespace Sys2Proof.Machine

/-! ### Buffers (`20_memory.md` R52) -/

/-- One byte of a buffer. -/
def Memory.read : Memory → Nat → Byte
  | [], _ => unlistedByte
  | (k, v) :: m, a => if k = a then v else Memory.read m a

/-- Store one byte, keeping the canonical form: a byte equal to the unlisted one leaves no entry. -/
def Memory.write : Memory → Nat → Byte → Memory
  | [], a, b => if b = unlistedByte then [] else [(a, b)]
  | (k, v) :: m, a, b =>
    if a < k then (if b = unlistedByte then (k, v) :: m else (a, b) :: (k, v) :: m)
    else if a = k then (if b = unlistedByte then m else (a, b) :: m)
    else (k, v) :: Memory.write m a b

/-- `MemRead(space, addr, k)` (R52). -/
def Memory.readBytes (m : Memory) (addr k : Nat) : List Byte := (List.range k).map fun i => m.read (addr + i)

/-- `MemWrite(space, addr, k, B)` with `k = len(B)` (R52). -/
def Memory.writeBytes (m : Memory) (addr : Nat) : List Byte → Memory
  | [] => m
  | b :: bs => Memory.writeBytes (m.write addr b) (addr + 1) bs

/-- The canonical form: addresses strictly rising, no entry equal to the unlisted byte. -/
def Memory.wf : Memory → Bool
  | [] => true
  | (k, v) :: m => v != unlistedByte && m.all (fun c => decide (k < c.1)) && Memory.wf m

/-- Every listed address lies below `n`, the size of the space (R50). -/
def Memory.below (m : Memory) (n : Nat) : Bool := m.all fun c => decide (c.1 < n)

/-! ### Scalar registers (`00_scope.md` R14, `10_state.md` R20) -/

/-- `s[i]`. -/
def State.scalar (s : State) (i : SReg) : W64 := s.scalars[i]

/-- `s[i] <- v`. -/
def State.setScalar (s : State) (i : SReg) (v : W64) : State := { s with scalars := s.scalars.set i v }

/-- `toSW(v)` (R14; every value written lies in `[0, 2^SW)`). -/
def toSW (v : Nat) : W64 := BitVec.ofNat 64 v

/-! ### Point registers (`10_state.md` R22) -/

/-- The value of a point register: `INF` whatever `X` and `Y` hold when its `INF` field is 1. -/
def PointReg.value (r : PointReg) : Point := if r.inf then .inf else .finite r.x.toNat r.y.toNat

/-- What a point register holds after a point is written to it. -/
def PointReg.ofPoint : Point → PointReg
  | .inf => PointReg.infinity
  | .finite x y => { inf := false, x := toSW x, y := toSW y }

/-- `p[i]`. -/
def State.point (s : State) (i : PReg) : Point := (s.points[i]).value

/-- `p[i] <- P`. -/
def State.setPoint (s : State) (i : PReg) (p : Point) : State :=
  { s with points := s.points.set i (PointReg.ofPoint p) }

/-! ### Hash state, digest buffer, attempt count (`10_state.md` R24, R25, R28, R29, R34) -/

/-- `ha[i] <- h[i]` for every `i`. -/
def State.setHa (s : State) (h : Vector W32 4) : State := { s with ha := h }

/-- `hb[i] <- h[i]` for every `i`. -/
def State.setHb (s : State) (h : Vector W64 8) : State := { s with hb := h }

/-- `HBL <- L`. -/
def State.setHbl (s : State) (l : Nat) : State := { s with hbl := BitVec.ofNat 7 l }

/-- `MemWrite(DG, 0, 64, D ++ zeros(64 - L));  DLEN <- L` with `L = len(D)` (R28, R29): all 64 bytes are written. -/
def State.setDigest (s : State) (d : List Byte) : State :=
  { s with
    dg := s.dg.writeBytes 0 (d ++ zeros (Config.dgSize - d.length))
    dlen := BitVec.ofNat 7 d.length }

/-- `ATT <- att`. -/
def State.setAtt (s : State) (att : Nat) : State := { s with att := BitVec.ofNat 7 att }

/-- `ESTICKY <- 0` (`46_system.md` R281). -/
def State.clearSticky (s : State) : State := { s with esticky := 0 }

/-! ### The random port (`46_system.md` R290) -/

/-- `draw()`: the next draw, and the port after it. -/
def Rng.draw (g : Rng) : W64 × Rng :=
  match g.queued with
  | [] => (Config.randomSource g.index, { queued := [], index := g.index + 1 })
  | d :: ds => (d, { queued := ds, index := g.index + 1 })

/-- Put the port back after draws. -/
def State.setRng (s : State) (g : Rng) : State := { s with rng := g }

/-! ### Ending a command (`60_exceptions.md` R303)

CORE has no trap entry and no trap return (R305, R306): raising an error is writing three registers, and the
next command runs like any other. -/

/-- Normal completion: `CAUSE <- 0`, `STATUS.ERR <- 0`, `ESTICKY` unchanged. -/
def State.complete (s : State) : State := { s with cause := 0, status := 0 }

/-- Raising a cause: `CAUSE <- c`, `STATUS.ERR <- 1`, `ESTICKY[c] <- 1`. Nothing is saved and control goes
nowhere (R305). -/
def State.raise (s : State) (c : Cause) : State :=
  { s with cause := c.code, status := 1, esticky := stickyWith s.esticky c }

/-- The state at the end of a command (R303). -/
def CommandEnd.report : CommandEnd → State
  | .completes s => s.complete
  | .raises c s => s.raise c

end Sys2Proof.Machine
end

