-- ==== Sys2Proof/Machine/Operands.lean ====
section
/-! DEFINITION. The operand forms of the commands: signed and unsigned scalars (`10_state.md` R21), the digest
length (`30_encoding.md` R72, R77), blocks and the message (`20_memory.md` R57, R58). -/

namespace Sys2Proof.Machine

/-- A scalar operand read as unsigned (`uint`, R21). -/
def State.uintS (s : State) (r : SReg) : Nat := (s.scalar r).toNat

/-- A scalar operand read as two's complement (`sint`, R21). -/
def State.sintS (s : State) (r : SReg) : Int := (s.scalar r).toInt

/-- `L < 1 or L > 64` (R77) does not hold. -/
def lengthOk (l : Nat) : Bool := decide (1 ≤ l) && decide (l ≤ Config.bMaxOut)

/-- `k` bytes at `off` lie inside `MB` (R57), on unbounded integers. -/
def blockOk (cfg : Config) (off k : Nat) : Bool := decide (off + k ≤ cfg.mbsize)

/-- `MLEN <= MBSIZE` (R57). -/
def State.messageOk (cfg : Config) (s : State) : Bool := decide (s.mlen.toNat ≤ cfg.mbsize)

/-- The message `MB[0 .. MLEN)` (`10_state.md` R27). -/
def State.message (s : State) : List Byte := s.mb.readBytes 0 s.mlen.toNat

end Sys2Proof.Machine
end

