-- ==== Sys2Proof/Machine/DigestA.lean ====
section
/-! DEFINITION. The digest A unit (`41_digest_a.md`): DA.INIT, DA.CMP, DA.OUT, DA.HASH. The functions take the
open parameters as an argument; the commands use those of `Config.core`. -/

namespace Sys2Proof.Machine

/-- `padLen` of a message of `msgLen` bytes (R121). -/
def padLenA (msgLen : Nat) : Nat :=
  if 64 - (msgLen + 9) % 64 = 64 then 0 else 64 - (msgLen + 9) % 64

/-- `padA(M)` (R121). -/
def padA (m : List Byte) : List Byte :=
  m ++ [0x80] ++ zeros (padLenA m.length) ++ be64 (BitVec.ofNat 64 (8 * m.length))

/-- The 16 big-endian words of a 64-byte block (R122). -/
def aBlockWords (b : List Byte) : Vector W32 16 := Vector.ofFn fun j => wordBE32 (slice b (4 * j.val) 4)

/-- The working variables after the 32 rounds (R123). -/
def aRounds (p : DigestAParams) (sched : Vector W32 32) (h : Vector W32 4) : Vector W32 4 :=
  (List.finRange 32).foldl (fun v t => p.round t sched[t] v) h

/-- `A_compress(h, B)` (R123): the working variables start as the state and fold back position by position. -/
def aCompress (p : DigestAParams) (h : Vector W32 4) (b : List Byte) : Vector W32 4 :=
  Vector.zipWith (· + ·) h (aRounds p (p.sched (aBlockWords b)) h)

/-- Compress the blocks of a sequence in order (R124). -/
def aBlocks (p : DigestAParams) (h : Vector W32 4) (bs : List Byte) : Vector W32 4 :=
  (List.range (bs.length / Config.aBlock)).foldl
    (fun h i => aCompress p h (slice bs (Config.aBlock * i) Config.aBlock)) h

/-- The final state of `digestA(M)` (R124, R128). -/
def digestAState (p : DigestAParams) (m : List Byte) : Vector W32 4 := aBlocks p p.iv (padA m)

/-- The serialized state: `be32(h[0]) ++ … ++ be32(h[3])` (R124, R127). -/
def aOutput (h : Vector W32 4) : List Byte := h.toList.flatMap be32

/-- `digestA(M)` (R124). -/
def digestA (p : DigestAParams) (m : List Byte) : List Byte := aOutput (digestAState p m)

/-- The state effects of DA.HASH on a message that lies inside `MB` (R128), used by the reducers too (R235). -/
def State.performDaHash (p : DigestAParams) (s : State) : State :=
  (s.setHa (digestAState p s.message)).setDigest (digestA p s.message)

/-- DA.INIT (R125). -/
def daInitEnd (cfg : Config) (s : State) : CommandEnd := .completes (s.setHa cfg.digestA.iv)

/-- DA.INIT as a step. -/
def execDaInit (s : State) : Result := .next (daInitEnd Config.core s).report

/-- DA.CMP (R126). -/
def daCmpEnd (cfg : Config) (roff : SReg) (s : State) : CommandEnd :=
  if blockOk cfg (s.uintS roff) Config.aBlock then
    .completes (s.setHa (aCompress cfg.digestA s.ha (s.mb.readBytes (s.uintS roff) Config.aBlock)))
  else .raises .bounds s

/-- DA.CMP as a step. -/
def execDaCmp (roff : SReg) (s : State) : Result := .next (daCmpEnd Config.core roff s).report

/-- DA.OUT (R127). -/
def daOutEnd (s : State) : CommandEnd := .completes (s.setDigest (aOutput s.ha))

/-- DA.OUT as a step. -/
def execDaOut (s : State) : Result := .next (daOutEnd s).report

/-- DA.HASH (R128). -/
def daHashEnd (cfg : Config) (s : State) : CommandEnd :=
  if s.messageOk cfg then .completes (s.performDaHash cfg.digestA) else .raises .bounds s

/-- DA.HASH as a step. -/
def execDaHash (s : State) : Result := .next (daHashEnd Config.core s).report

end Sys2Proof.Machine
end

