-- ==== Sys2Proof/Machine/DigestB.lean ====
section
/-! DEFINITION. The digest B unit (`42_digest_b.md`): DB.INIT, DB.CMP, DB.OUT, DB.HASH, DB.HASHD. The functions
take the open parameters as an argument; the commands use those of `Config.core`. -/

namespace Sys2Proof.Machine

/-- `B_init(L)` (R151). -/
def bInit (p : DigestBParams) (l : Nat) : Vector W64 8 := p.iv.set 0 (p.iv[0] ^^^ p.param l)

/-- The 16 little-endian words of a 128-byte block (R156). -/
def bBlockWords (b : List Byte) : Vector W64 16 := Vector.ofFn fun j => wordLE64 (slice b (8 * j.val) 8)

/-- The working vector of a compression (R157, R158, R159). -/
def bWorking (p : DigestBParams) (h : Vector W64 8) (t : Nat) (last : Bool) : Vector W64 16 :=
  let v : Vector W64 16 := h ++ p.cv
  let v := v.set 12 (v[12] ^^^ BitVec.ofNat 64 t)
  if last then v.set 14 (v[14] ^^^ 0xFFFFFFFFFFFFFFFF) else v

/-- One step of G (R160): `v[a] <- v[a] + v[b] + x;  v[d] <- rotr64(v[d] ^ v[a], r)`. -/
def bAddXorRot (v : Vector W64 16) (a b d : Fin 16) (x : W64) (r : Nat) : Vector W64 16 :=
  let v := v.set a (v[a] + v[b] + x)
  v.set d ((v[d] ^^^ v[a]).rotateRight r)

/-- The mixing function G (R160), rotation amounts 32, 24, 16, 63 (`00_scope.md` R7). -/
def bMix (v : Vector W64 16) (a b c d : Fin 16) (x y : W64) : Vector W64 16 :=
  let v := bAddXorRot v a b d x 32
  let v := bAddXorRot v c d b 0 24
  let v := bAddXorRot v a b d y 16
  bAddXorRot v c d b 0 63

/-- One round (R161): four columns, then four diagonals, message words chosen by a table row. -/
def bRound (v : Vector W64 16) (m : Vector W64 16) (s : SigmaRow) : Vector W64 16 :=
  let v := bMix v 0 4 8 12 m[s[0]] m[s[1]]
  let v := bMix v 1 5 9 13 m[s[2]] m[s[3]]
  let v := bMix v 2 6 10 14 m[s[4]] m[s[5]]
  let v := bMix v 3 7 11 15 m[s[6]] m[s[7]]
  let v := bMix v 0 5 10 15 m[s[8]] m[s[9]]
  let v := bMix v 1 6 11 12 m[s[10]] m[s[11]]
  let v := bMix v 2 7 8 13 m[s[12]] m[s[13]]
  bMix v 3 4 9 14 m[s[14]] m[s[15]]

/-- The row of the table for round `r` (R161): `r mod 10`. -/
def bSigmaRow (p : DigestBParams) (r : Nat) : SigmaRow := p.sigma[r % 10]

/-- `B_compress(h, B, t, last)` (R163), with the feed-forward of R162. -/
def bCompress (p : DigestBParams) (h : Vector W64 8) (b : List Byte) (t : Nat) (last : Bool) : Vector W64 8 :=
  let m := bBlockWords b
  let v := (List.range Config.bRounds).foldl (fun v r => bRound v m (bSigmaRow p r)) (bWorking p h t last)
  Vector.ofFn fun i : Fin 8 => h[i] ^^^ v[i.val] ^^^ v[i.val + 8]

/-- Compress the first `k` full blocks of a message as non-final blocks (R164): the counter of block `i` is
`128 * (i + 1)`. -/
def bFullBlocks (p : DigestBParams) (h : Vector W64 8) (m : List Byte) (k : Nat) : Vector W64 8 :=
  (List.range k).foldl
    (fun h i => bCompress p h (slice m (Config.bBlock * i) Config.bBlock) (Config.bBlock * (i + 1)) false) h

/-- The final state of `digestB(M, L)` (R164). -/
def digestBState (p : DigestBParams) (m : List Byte) (l : Nat) : Vector W64 8 :=
  let h := bInit p l
  let len := m.length
  if len = 0 then bCompress p h (zeros Config.bBlock) 0 true
  else
    let nb := (len + (Config.bBlock - 1)) / Config.bBlock
    if p.fullFinal = .extraEmptyFinal ∧ len % Config.bBlock = 0 then
      bCompress p (bFullBlocks p h m nb) (zeros Config.bBlock) len true
    else
      let t := m.drop (Config.bBlock * (nb - 1))
      bCompress p (bFullBlocks p h m (nb - 1)) (t ++ zeros (Config.bBlock - t.length)) len true

/-- The first `L` bytes of the little-endian serialization of the state (R164, R167). -/
def bOutput (h : Vector W64 8) (l : Nat) : List Byte := (h.toList.flatMap le64).take l

/-- `digestB(M, L)` (R164). -/
def digestB (p : DigestBParams) (m : List Byte) (l : Nat) : List Byte := bOutput (digestBState p m l) l

/-- The state effects of DB.HASH and DB.HASHD with a legal `L` on the message `m` (R168, R169), used by the
reducers too (R235). -/
def State.performDbHash (p : DigestBParams) (m : List Byte) (l : Nat) (s : State) : State :=
  ((s.setHb (digestBState p m l)).setHbl l).setDigest (digestB p m l)

/-- The current digest `DG[0 .. DLEN)` (R169). -/
def State.digest (s : State) : List Byte := s.dg.readBytes 0 s.dlen.toNat

/-- DB.INIT (R165). -/
def dbInitEnd (cfg : Config) (len : BitVec 8) (s : State) : CommandEnd :=
  if lengthOk len.toNat then .completes ((s.setHb (bInit cfg.digestB len.toNat)).setHbl len.toNat)
  else .raises .arg s

/-- DB.INIT as a step. -/
def execDbInit (len : BitVec 8) (s : State) : Result := .next (dbInitEnd Config.core len s).report

/-- DB.CMP (R166). -/
def dbCmpEnd (cfg : Config) (roff rt : SReg) (last : Bool) (s : State) : CommandEnd :=
  if blockOk cfg (s.uintS roff) Config.bBlock then
    .completes (s.setHb (bCompress cfg.digestB s.hb (s.mb.readBytes (s.uintS roff) Config.bBlock) (s.uintS rt) last))
  else .raises .bounds s

/-- DB.CMP as a step. -/
def execDbCmp (roff rt : SReg) (last : Bool) (s : State) : Result :=
  .next (dbCmpEnd Config.core roff rt last s).report

/-- DB.OUT (R167). -/
def dbOutEnd (s : State) : CommandEnd :=
  if s.hbl = 0 then .raises .arg s else .completes (s.setDigest (bOutput s.hb s.hbl.toNat))

/-- DB.OUT as a step. -/
def execDbOut (s : State) : Result := .next (dbOutEnd s).report

/-- DB.HASH (R168): `E_ARG`, then `E_BOUNDS`. -/
def dbHashEnd (cfg : Config) (len : BitVec 8) (s : State) : CommandEnd :=
  if lengthOk len.toNat then
    if s.messageOk cfg then .completes (s.performDbHash cfg.digestB s.message len.toNat)
    else .raises .bounds s
  else .raises .arg s

/-- DB.HASH as a step. -/
def execDbHash (len : BitVec 8) (s : State) : Result := .next (dbHashEnd Config.core len s).report

/-- DB.HASHD (R169): the input is read before `DG` is overwritten. -/
def dbHashdEnd (cfg : Config) (len : BitVec 8) (s : State) : CommandEnd :=
  if lengthOk len.toNat then .completes (s.performDbHash cfg.digestB s.digest len.toNat)
  else .raises .arg s

/-- DB.HASHD as a step. -/
def execDbHashd (len : BitVec 8) (s : State) : Result := .next (dbHashdEnd Config.core len s).report

end Sys2Proof.Machine
end

