-- ==== Sys2Proof/Machine/ModArith.lean ====
section
/-! DEFINITION. The modular arithmetic unit (`40_modarith.md`): MODRED, MODMUL, MODINV. -/

namespace Sys2Proof.Machine

/-- `mod(v, m)` for `m ≥ 1` (R100): the residue in `[0, m)`, whatever the sign of `v`. -/
def mod (v : Int) (m : Nat) : Nat := (v % (m : Int)).toNat

/-- `modmul(x, y, m)` (R102): the exact product, then one reduction. -/
def modmul (x y : Int) (m : Nat) : Nat := mod (x * y) m

/-- The loop of the extended Euclidean algorithm (R104) with at most `fuel` passes: the last `r0` and `t0`. -/
def euclid : Nat → Nat → Nat → Int → Int → Nat × Int
  | 0, r0, _, t0, _ => (r0, t0)
  | fuel + 1, r0, r1, t0, t1 =>
    if r1 = 0 then (r0, t0) else euclid fuel r1 (r0 % r1) t1 (t0 - (r0 / r1 : Nat) * t1)

/-- `modinv(v, m)` for `m ≥ 1` (R104); `none` is DomainError. The remainders strictly decrease, so `mod(v, m)`
passes are enough (DEDUCED, log entry 7). -/
def modinv (v : Int) (m : Nat) : Option Nat :=
  let e := euclid (mod v m) m (mod v m) 0 1
  if e.1 = 1 then some (mod e.2 m) else none

/-- MODRED (R101). -/
def modredEnd (rd rv rm : SReg) (s : State) : CommandEnd :=
  if s.uintS rm = 0 then .raises .modzero s
  else .completes (s.setScalar rd (toSW (mod (s.sintS rv) (s.uintS rm))))

/-- MODRED as a step. -/
def execModred (rd rv rm : SReg) (s : State) : Result := .next (modredEnd rd rv rm s).report

/-- MODMUL (R103). -/
def modmulEnd (rd rx ry rm : SReg) (s : State) : CommandEnd :=
  if s.uintS rm = 0 then .raises .modzero s
  else .completes (s.setScalar rd (toSW (modmul (s.sintS rx) (s.sintS ry) (s.uintS rm))))

/-- MODMUL as a step. -/
def execModmul (rd rx ry rm : SReg) (s : State) : Result := .next (modmulEnd rd rx ry rm s).report

/-- MODINV (R105): `E_MODZERO` before `E_DOMAIN`. -/
def modinvEnd (rd rv rm : SReg) (s : State) : CommandEnd :=
  if s.uintS rm = 0 then .raises .modzero s
  else
    match modinv (s.sintS rv) (s.uintS rm) with
    | none => .raises .domain s
    | some x => .completes (s.setScalar rd (toSW x))

/-- MODINV as a step. -/
def execModinv (rd rv rm : SReg) (s : State) : Result := .next (modinvEnd rd rv rm s).report

end Sys2Proof.Machine
end

