-- ==== Sys2Proof/Machine/EcGroup.lean ====
section
/-! DEFINITION. The elliptic-curve unit (`43_ec_group.md`): the point adder, the binary-method multiplier, and
PINF, PLDG, PSET, PGETX, PGETY, PISINF, PADD, PDBL, PMUL. The functions take the curve as an argument. -/

namespace Sys2Proof.Machine

/-- The base point `(Gx, Gy)` (`00_scope.md` R5). -/
def basePoint (c : Curve) : Point := .finite c.gx c.gy

/-- `isPointAtInfinity(P)` (R191). -/
def Point.isInf : Point → Bool
  | .inf => true
  | .finite _ _ => false

/-- The third point of the chord or tangent with slope `lam` through `(x1, y1)` and abscissa `x2` (R200). -/
def chordPoint (c : Curve) (lam x1 y1 x2 : Int) : Point :=
  let x3 := mod (lam * lam - x1 - x2) c.q
  .finite x3 (mod (lam * (x1 - x3) - y1) c.q)

/-- Cases 3 to 5 of `pointAdd`, on normalized coordinates (R200); `none` is DomainError. -/
def addReduced (c : Curve) (x1 y1 x2 y2 : Nat) : Option Point :=
  if x1 = x2 then
    if y1 = y2 then
      if y1 = 0 then some .inf
      else (modinv (2 * y1) c.q).map fun i : Nat => chordPoint c (mod ((3 * x1 * x1 + c.a) * i) c.q) x1 y1 x2
    else some .inf
  else (modinv ((x2 : Int) - x1) c.q).map fun i : Nat => chordPoint c (mod (((y2 : Int) - y1) * i) c.q) x1 y1 x2

/-- `pointAdd(P, Q)` (R200), its cases in order; `none` is DomainError. -/
def pointAdd (c : Curve) : Point → Point → Option Point
  | .inf, q => some q
  | .finite x y, .inf => some (.finite x y)
  | .finite x1 y1, .finite x2 y2 => addReduced c (mod x1 c.q) (mod y1 c.q) (mod x2 c.q) (mod y2 c.q)

/-- The loop of `pointMultiply` (R204) with at most `fuel` passes: `r` is the running result, `a` the working
point; least significant bit first, add before doubling. -/
def mulLoop (c : Curve) : Nat → Nat → Point → Point → Option Point
  | 0, _, r, _ => some r
  | fuel + 1, k, r, a =>
    if k = 0 then some r
    else
      match (if k % 2 = 1 then pointAdd c r a else some r) with
      | none => none
      | some r' =>
        match pointAdd c a a with
        | none => none
        | some a' => mulLoop c fuel (k / 2) r' a'

/-- `pointMultiply(k, P)` (R204): `k` halves in each pass, so `k` passes are enough. -/
def pointMultiply (c : Curve) (k : Nat) (p : Point) : Option Point := mulLoop c k k .inf p

/-- End a command that writes one point: DomainError becomes `E_DOMAIN` (R201). -/
def pointEnd (pd : PReg) (s : State) : Option Point → CommandEnd
  | none => .raises .domain s
  | some p => .completes (s.setPoint pd p)

/-- PINF (R192). -/
def execPinf (pd : PReg) (s : State) : Result := .next (CommandEnd.completes (s.setPoint pd .inf)).report

/-- PLDG (R193). -/
def execPldg (pd : PReg) (s : State) : Result :=
  .next (CommandEnd.completes (s.setPoint pd (basePoint Config.core.curve))).report

/-- PSET (R194): stored as given, always finite. -/
def execPset (pd : PReg) (rx ry : SReg) (s : State) : Result :=
  .next (CommandEnd.completes (s.setPoint pd (.finite (s.uintS rx) (s.uintS ry)))).report

/-- PGETX (R195). -/
def pgetxEnd (rd : SReg) (pa : PReg) (s : State) : CommandEnd :=
  match s.point pa with
  | .inf => .raises .infcoord s
  | .finite x _ => .completes (s.setScalar rd (toSW x))

/-- PGETX as a step. -/
def execPgetx (rd : SReg) (pa : PReg) (s : State) : Result := .next (pgetxEnd rd pa s).report

/-- PGETY (R196). -/
def pgetyEnd (rd : SReg) (pa : PReg) (s : State) : CommandEnd :=
  match s.point pa with
  | .inf => .raises .infcoord s
  | .finite _ y => .completes (s.setScalar rd (toSW y))

/-- PGETY as a step. -/
def execPgety (rd : SReg) (pa : PReg) (s : State) : Result := .next (pgetyEnd rd pa s).report

/-- PISINF (R197). -/
def execPisinf (rd : SReg) (pa : PReg) (s : State) : Result :=
  .next (CommandEnd.completes (s.setScalar rd (boolScalar (s.point pa).isInf))).report

/-- PADD (R201). -/
def execPadd (pd pa pb : PReg) (s : State) : Result :=
  .next (pointEnd pd s (pointAdd Config.core.curve (s.point pa) (s.point pb))).report

/-- PDBL (R202): the doubling case given its own opcode. -/
def execPdbl (pd pa : PReg) (s : State) : Result :=
  .next (pointEnd pd s (pointAdd Config.core.curve (s.point pa) (s.point pa))).report

/-- PMUL (R205). -/
def execPmul (pd : PReg) (rk : SReg) (pa : PReg) (s : State) : Result :=
  .next (pointEnd pd s (pointMultiply Config.core.curve (s.uintS rk) (s.point pa))).report

end Sys2Proof.Machine
end

