-- ==== Sys2Proof/Machine/HashReducers.lean ====
section
/-! DEFINITION. The hash reducer unit (`44_hash_reducers.md`): the four reducers and HRED. -/

namespace Sys2Proof.Machine

/-- `red_none(M)` (R231). -/
def redNone (n : Nat) (m : List Byte) : Nat :=
  let e := (m.take Config.noHashBytes).foldl (fun e b => mod (e * 256 + b.toNat) n) 0
  if e = 0 then 1 else e

/-- The summing step of the digest-based reducers: `DG[0 .. k)` summed, reduced modulo `n` (R232 to R235). -/
def State.digestSum (n k : Nat) (s : State) : Nat := mod (byteSum (s.dg.readBytes 0 k)) n

/-- The reducer of a variant on a message inside `MB` (R235): the scalar `e` and the state it leaves. -/
def State.reduce (cfg : Config) (v : Variant) (s : State) : Nat × State :=
  match v with
  | .noHash => (redNone cfg.curve.n (s.mb.readBytes 0 (min s.mlen.toNat Config.noHashBytes)), s)
  | .hashA =>
    let s1 := s.performDaHash cfg.digestA
    (s1.digestSum cfg.curve.n Config.aOut, s1)
  | .hashB =>
    let s1 := s.performDbHash cfg.digestB s.message Config.bSigLen
    (s1.digestSum cfg.curve.n Config.bSigLen, s1)
  | .hashAB =>
    let s1 := s.performDaHash cfg.digestA
    let s2 := s1.performDbHash cfg.digestB s1.digest Config.bSigLen
    (s2.digestSum cfg.curve.n Config.bSigLen, s2)

/-- HRED (R235). -/
def hredEnd (cfg : Config) (rd : SReg) (v : Variant) (s : State) : CommandEnd :=
  if s.messageOk cfg then .completes ((s.reduce cfg v).2.setScalar rd (toSW (s.reduce cfg v).1))
  else .raises .bounds s

/-- HRED as a step. -/
def execHred (rd : SReg) (v : Variant) (s : State) : Result := .next (hredEnd Config.core rd v s).report

end Sys2Proof.Machine
end

