-- ==== Sys2Proof/Machine/Ecdsa.lean ====
section
/-! DEFINITION. The ECDSA unit (`45_ecdsa.md`): KEYGEN, SIGN, VERIFY. -/

namespace Sys2Proof.Machine

/-- A value lies in `[1, n-1]` (`46_system.md` R291; R266). -/
def inRange (c : Curve) (k : Nat) : Bool := decide (1 ≤ k) && decide (k ≤ c.n - 1)

/-- KEYGEN (R255). A draw out of range is consumed (`60_exceptions.md` R304 b). -/
def keygenEnd (cfg : Config) (rd : SReg) (pq : PReg) (s : State) : CommandEnd :=
  let d := s.rng.draw.1.toNat
  let s1 := s.setRng s.rng.draw.2
  if inRange cfg.curve d then
    match pointMultiply cfg.curve d (basePoint cfg.curve) with
    | none => .raises .domain s1
    | some q => .completes ((s1.setScalar rd (toSW d)).setPoint pq q)
  else .raises .rng s1

/-- KEYGEN as a step. -/
def execKeygen (rd : SReg) (pq : PReg) (s : State) : Result := .next (keygenEnd Config.core rd pq s).report

/-- What one attempt of the signing loop gives (R252). -/
inductive Attempt where
  | retry
  | accept (r sg : Nat)
  | domainError
  deriving DecidableEq, Repr

/-- One attempt with the draw `k` in `[1, n-1]`, private key `d`, reduced message `e` (R252, R260): the three
retry conditions in order. -/
def signAttempt (c : Curve) (d e k : Nat) : Attempt :=
  match pointMultiply c k (basePoint c) with
  | none => .domainError
  | some .inf => .retry
  | some (.finite x _) =>
    let r := mod x c.n
    if r = 0 then .retry
    else
      match modinv k c.n with
      | none => .domainError
      | some i =>
        let sg := mod (i * (e + d * r)) c.n
        if sg = 0 then .retry else .accept r sg

/-- How the signing loop ends: the attempts made, the random port after them, and the pair or the cause. -/
inductive LoopEnd where
  | accepted (att : Nat) (g : Rng) (r sg : Nat)
  | failed (att : Nat) (g : Rng) (c : Cause)
  deriving DecidableEq, Repr

/-- The signing loop (R260) with `fuel` attempts left after `att` made: one draw at the start of each. -/
def signLoop (c : Curve) (d e : Nat) : Nat → Nat → Rng → LoopEnd
  | 0, att, g => .failed att g .exhausted
  | fuel + 1, att, g =>
    if inRange c g.draw.1.toNat then
      match signAttempt c d e g.draw.1.toNat with
      | .retry => signLoop c d e fuel (att + 1) g.draw.2
      | .accept r sg => .accepted (att + 1) g.draw.2 r sg
      | .domainError => .failed (att + 1) g.draw.2 .domain
    else .failed (att + 1) g.draw.2 .rng

/-- SIGN (R260): `E_BOUNDS` first; then the reducer, whose effects stay whatever follows; then the loop of 100
attempts (`60_exceptions.md` R304 c). -/
def signEnd (cfg : Config) (rr rs rk : SReg) (v : Variant) (s : State) : CommandEnd :=
  if s.messageOk cfg then
    let s1 := (s.reduce cfg v).2
    match signLoop cfg.curve (s.uintS rk) (s.reduce cfg v).1 Config.retry 0 s.rng with
    | .failed att g c => .raises c ((s1.setRng g).setAtt att)
    | .accepted att g r sg =>
      .completes ((((s1.setRng g).setAtt att).setScalar rr (toSW r)).setScalar rs (toSW sg))
  else .raises .bounds s

/-- SIGN as a step. -/
def execSign (rr rs rk : SReg) (v : Variant) (s : State) : Result := .next (signEnd Config.core rr rs rk v s).report

/-- The point `X = u1·G + u2·Q` of the verification equation (R253); `none` is DomainError. -/
def verifyPoint (c : Curve) (e r sg : Nat) (q : Point) : Option Point :=
  match modinv sg c.n with
  | none => none
  | some w =>
    match pointMultiply c (mod (e * w) c.n) (basePoint c), pointMultiply c (mod (r * w) c.n) q with
    | some a, some b => pointAdd c a b
    | _, _ => none

/-- The verification equation (R253, R265): a DomainError and `X = INF` give false. -/
def verifyHolds (c : Curve) (e r sg : Nat) (q : Point) : Bool :=
  match verifyPoint c e r sg q with
  | none => false
  | some .inf => false
  | some (.finite x _) => decide (mod x c.n = r)

/-- VERIFY (R265): bounds, then the range check before hashing, then the equation. -/
def verifyEnd (cfg : Config) (rd rr rs : SReg) (pq : PReg) (v : Variant) (s : State) : CommandEnd :=
  if s.messageOk cfg then
    if inRange cfg.curve (s.uintS rr) && inRange cfg.curve (s.uintS rs) then
      .completes ((s.reduce cfg v).2.setScalar rd
        (boolScalar (verifyHolds cfg.curve (s.reduce cfg v).1 (s.uintS rr) (s.uintS rs) (s.point pq))))
    else .completes (s.setScalar rd 0)
  else .raises .bounds s

/-- VERIFY as a step. -/
def execVerify (rd rr rs : SReg) (pq : PReg) (v : Variant) (s : State) : Result :=
  .next (verifyEnd Config.core rd rr rs pq v s).report

end Sys2Proof.Machine
end

