-- ==== Sys2Proof/Machine/System.lean ====
section
/-! DEFINITION. System commands: NOP and CLRE (`46_system.md` R280, R281). -/

namespace Sys2Proof.Machine

/-- NOP (R280): no effect on data state; completes normally. -/
def execNop (s : State) : Result := .next (CommandEnd.completes s).report

/-- CLRE (R281): `ESTICKY <- 0`; completes normally. -/
def execClre (s : State) : Result := .next (CommandEnd.completes s.clearSticky).report

end Sys2Proof.Machine
end

