-- ==== Sys2Proof/Machine/Dispatch.lean ====
section
/-! DEFINITION. The dispatch of a decoded command to its meaning, one arm per constructor of `Instr`. -/

namespace Sys2Proof.Machine

def exec (i : Instr) (s : State) : Host.Outcome State Fault Refusal :=
  match i with
  | .nop => Sys2Proof.Machine.execNop s
  | .clre => Sys2Proof.Machine.execClre s
  | .modred rd rv rm => Sys2Proof.Machine.execModred rd rv rm s
  | .modmul rd rx ry rm => Sys2Proof.Machine.execModmul rd rx ry rm s
  | .modinv rd rv rm => Sys2Proof.Machine.execModinv rd rv rm s
  | .daInit => Sys2Proof.Machine.execDaInit s
  | .daCmp roff => Sys2Proof.Machine.execDaCmp roff s
  | .daOut => Sys2Proof.Machine.execDaOut s
  | .daHash => Sys2Proof.Machine.execDaHash s
  | .dbInit len => Sys2Proof.Machine.execDbInit len s
  | .dbCmp roff rt last => Sys2Proof.Machine.execDbCmp roff rt last s
  | .dbOut => Sys2Proof.Machine.execDbOut s
  | .dbHash len => Sys2Proof.Machine.execDbHash len s
  | .dbHashd len => Sys2Proof.Machine.execDbHashd len s
  | .pinf pd => Sys2Proof.Machine.execPinf pd s
  | .pldg pd => Sys2Proof.Machine.execPldg pd s
  | .pset pd rx ry => Sys2Proof.Machine.execPset pd rx ry s
  | .pgetx rd pa => Sys2Proof.Machine.execPgetx rd pa s
  | .pgety rd pa => Sys2Proof.Machine.execPgety rd pa s
  | .pisinf rd pa => Sys2Proof.Machine.execPisinf rd pa s
  | .padd pd pa pb => Sys2Proof.Machine.execPadd pd pa pb s
  | .pdbl pd pa => Sys2Proof.Machine.execPdbl pd pa s
  | .pmul pd rk pa => Sys2Proof.Machine.execPmul pd rk pa s
  | .hred rd v => Sys2Proof.Machine.execHred rd v s
  | .keygen rd pq => Sys2Proof.Machine.execKeygen rd pq s
  | .sign rr rs rk v => Sys2Proof.Machine.execSign rr rs rk v s
  | .verify rd rr rs pq v => Sys2Proof.Machine.execVerify rd rr rs pq v s

end Sys2Proof.Machine
end

