-- ==== Sys2Proof/WellFormed.lean ====
section
/-! DEFINITION. Which command terms an encoding stands for. Register ranges are in the types of `Instr`; the
one check left is that SIGN names two different destinations (`30_encoding.md` R73, R75). -/

namespace Sys2Proof

/-- The term has an encoding: SIGN's `rr` and `rs` differ (`30_encoding.md` R75); nothing else is required. -/
def Instr.wellFormed : Instr → Bool
  | .nop => true
  | .clre => true
  | .modred _ _ _ => true
  | .modmul _ _ _ _ => true
  | .modinv _ _ _ => true
  | .daInit => true
  | .daCmp _ => true
  | .daOut => true
  | .daHash => true
  | .dbInit _ => true
  | .dbCmp _ _ _ => true
  | .dbOut => true
  | .dbHash _ => true
  | .dbHashd _ => true
  | .pinf _ => true
  | .pldg _ => true
  | .pset _ _ _ => true
  | .pgetx _ _ => true
  | .pgety _ _ => true
  | .pisinf _ _ => true
  | .padd _ _ _ => true
  | .pdbl _ _ => true
  | .pmul _ _ _ => true
  | .hred _ _ => true
  | .keygen _ _ => true
  | .sign rr rs _ _ => rr != rs
  | .verify _ _ _ _ _ => true

end Sys2Proof
end

