-- ==== Sys2Proof/Decode.lean ====
section
/-! DEFINITION. Decoding and encoding of command words (`30_encoding.md`). The decoder is total on 32-bit words
and rejects by name; every rejection is the illegal command of R75. The encoder follows, written from the same
opcode map (R73). -/

namespace Sys2Proof

/-! ### Fields of a command word (R70) -/

/-- `op = bits[31:24]`. -/
def opField (w : BitVec 32) : BitVec 8 := w.extractLsb' 24 8

/-- `f0 = bits[23:20]`. -/
def f0Field (w : BitVec 32) : BitVec 4 := w.extractLsb' 20 4

/-- `f1 = bits[19:16]`. -/
def f1Field (w : BitVec 32) : BitVec 4 := w.extractLsb' 16 4

/-- `f2 = bits[15:12]`. -/
def f2Field (w : BitVec 32) : BitVec 4 := w.extractLsb' 12 4

/-- `f3 = bits[11:8]`. -/
def f3Field (w : BitVec 32) : BitVec 4 := w.extractLsb' 8 4

/-- `imm = bits[7:0]`. -/
def immField (w : BitVec 32) : BitVec 8 := w.extractLsb' 0 8

/-- Why a word is illegal (R75). -/
inductive Illegal where
  /-- An opcode not in the opcode map. -/
  | unassignedOpcode
  /-- A listed opcode with a non-zero unused register field. -/
  | unusedField
  /-- A `P` field of 8 or more. -/
  | pointField
  /-- Non-zero must-be-zero bits in `imm`. -/
  | immBits
  /-- SIGN with the same register for `r` and `s`. -/
  | signSameRegister
  deriving DecidableEq, Repr

/-- What the decoder answers. -/
inductive Decoded where
  | command (i : Instr)
  | illegal (why : Illegal)
  deriving DecidableEq, Repr

/-! ### Field kinds (R71) -/

/-- Kind `S`: every value names a scalar register. -/
def scalarField (f : BitVec 4) (k : SReg → Decoded) : Decoded := k f.toFin

/-- Kind `P`: bit 3 must be 0. -/
def pointField (f : BitVec 4) (k : PReg → Decoded) : Decoded :=
  if h : f.toNat < 8 then k ⟨f.toNat, h⟩ else .illegal .pointField

/-- Kind `-`: the field must be 0. -/
def noField (f : BitVec 4) (k : Decoded) : Decoded :=
  if f = 0 then k else .illegal .unusedField

/-- Immediate kind `-`: must be 0. -/
def noImm (imm : BitVec 8) (k : Decoded) : Decoded :=
  if imm = 0 then k else .illegal .immBits

/-- Immediate kind `B`: bit 0 is the flag, bits 7:1 must be 0. -/
def flagImm (imm : BitVec 8) (k : Bool → Decoded) : Decoded :=
  if imm.extractLsb' 1 7 = 0 then k (imm.getLsbD 0) else .illegal .immBits

/-- The variant with a given code (R78). -/
def variantOf (c : BitVec 2) : Variant :=
  if c = 0 then .noHash else if c = 1 then .hashA else if c = 2 then .hashB else .hashAB

/-- Immediate kind `V`: bits 1:0 are the variant code, bits 7:2 must be 0. -/
def variantImm (imm : BitVec 8) (k : Variant → Decoded) : Decoded :=
  if imm.extractLsb' 2 6 = 0 then k (variantOf (imm.extractLsb' 0 2)) else .illegal .immBits

/-! ### The decoder (R74), one row of the opcode map a line -/

/-- The command a word stands for, from the fields of the word (R73, R74): the signature `f0 f1 f2 f3` and the
immediate kind of each row, in that order. -/
def decodeFields (op : BitVec 8) (f0 f1 f2 f3 : BitVec 4) (imm : BitVec 8) : Decoded :=
  match op with
  | 0x00#8 => noField f0 <| noField f1 <| noField f2 <| noField f3 <| noImm imm <| .command .nop
  | 0x01#8 => noField f0 <| noField f1 <| noField f2 <| noField f3 <| noImm imm <| .command .clre
  | 0x10#8 => scalarField f0 fun rd => scalarField f1 fun rv => scalarField f2 fun rm => noField f3 <| noImm imm <|
      .command (.modred rd rv rm)
  | 0x11#8 => scalarField f0 fun rd => scalarField f1 fun rx => scalarField f2 fun ry => scalarField f3 fun rm =>
      noImm imm <| .command (.modmul rd rx ry rm)
  | 0x12#8 => scalarField f0 fun rd => scalarField f1 fun rv => scalarField f2 fun rm => noField f3 <| noImm imm <|
      .command (.modinv rd rv rm)
  | 0x20#8 => noField f0 <| noField f1 <| noField f2 <| noField f3 <| noImm imm <| .command .daInit
  | 0x21#8 => noField f0 <| scalarField f1 fun roff => noField f2 <| noField f3 <| noImm imm <|
      .command (.daCmp roff)
  | 0x22#8 => noField f0 <| noField f1 <| noField f2 <| noField f3 <| noImm imm <| .command .daOut
  | 0x23#8 => noField f0 <| noField f1 <| noField f2 <| noField f3 <| noImm imm <| .command .daHash
  | 0x30#8 => noField f0 <| noField f1 <| noField f2 <| noField f3 <| .command (.dbInit imm)
  | 0x31#8 => noField f0 <| scalarField f1 fun roff => scalarField f2 fun rt => noField f3 <| flagImm imm fun last =>
      .command (.dbCmp roff rt last)
  | 0x32#8 => noField f0 <| noField f1 <| noField f2 <| noField f3 <| noImm imm <| .command .dbOut
  | 0x33#8 => noField f0 <| noField f1 <| noField f2 <| noField f3 <| .command (.dbHash imm)
  | 0x34#8 => noField f0 <| noField f1 <| noField f2 <| noField f3 <| .command (.dbHashd imm)
  | 0x40#8 => pointField f0 fun pd => noField f1 <| noField f2 <| noField f3 <| noImm imm <| .command (.pinf pd)
  | 0x41#8 => pointField f0 fun pd => noField f1 <| noField f2 <| noField f3 <| noImm imm <| .command (.pldg pd)
  | 0x42#8 => pointField f0 fun pd => scalarField f1 fun rx => scalarField f2 fun ry => noField f3 <| noImm imm <|
      .command (.pset pd rx ry)
  | 0x43#8 => scalarField f0 fun rd => pointField f1 fun pa => noField f2 <| noField f3 <| noImm imm <|
      .command (.pgetx rd pa)
  | 0x44#8 => scalarField f0 fun rd => pointField f1 fun pa => noField f2 <| noField f3 <| noImm imm <|
      .command (.pgety rd pa)
  | 0x45#8 => scalarField f0 fun rd => pointField f1 fun pa => noField f2 <| noField f3 <| noImm imm <|
      .command (.pisinf rd pa)
  | 0x46#8 => pointField f0 fun pd => pointField f1 fun pa => pointField f2 fun pb => noField f3 <| noImm imm <|
      .command (.padd pd pa pb)
  | 0x47#8 => pointField f0 fun pd => pointField f1 fun pa => noField f2 <| noField f3 <| noImm imm <|
      .command (.pdbl pd pa)
  | 0x48#8 => pointField f0 fun pd => scalarField f1 fun rk => pointField f2 fun pa => noField f3 <| noImm imm <|
      .command (.pmul pd rk pa)
  | 0x50#8 => scalarField f0 fun rd => noField f1 <| noField f2 <| noField f3 <| variantImm imm fun v =>
      .command (.hred rd v)
  | 0x60#8 => scalarField f0 fun rd => pointField f1 fun pq => noField f2 <| noField f3 <| noImm imm <|
      .command (.keygen rd pq)
  | 0x61#8 => scalarField f0 fun rr => scalarField f1 fun rs => scalarField f2 fun rk => noField f3 <|
      variantImm imm fun v => if rr = rs then .illegal .signSameRegister else .command (.sign rr rs rk v)
  | 0x62#8 => scalarField f0 fun rd => scalarField f1 fun rr => scalarField f2 fun rs => pointField f3 fun pq =>
      variantImm imm fun v => .command (.verify rd rr rs pq v)
  | _ => .illegal .unassignedOpcode

/-- The decoder: it depends on nothing but the word (R74). -/
def decode (w : BitVec 32) : Decoded :=
  decodeFields (opField w) (f0Field w) (f1Field w) (f2Field w) (f3Field w) (immField w)

/-- The command the decoder reads from a table word (every bit above `nbits` is 0); `none` where it refuses. -/
def decodeTableWord (nbits w : Nat) : Option Instr :=
  match decode (BitVec.ofNat 32 (w % 2 ^ nbits)) with
  | .command i => some i
  | .illegal _ => none

/-! ### The encoder (R70, R73) -/

/-- A word from its fields (R70). -/
def wordOf (op : BitVec 8) (f0 f1 f2 f3 : BitVec 4) (imm : BitVec 8) : BitVec 32 :=
  (op ++ f0 ++ f1 ++ f2 ++ f3 ++ imm).cast (by rfl)

/-- The field that names a scalar register. -/
def sField (r : SReg) : BitVec 4 := BitVec.ofFin r

/-- The field that names a point register: bit 3 is 0. -/
def pField (p : PReg) : BitVec 4 := BitVec.ofNat 4 p.val

/-- The last-block immediate. -/
def lastImm (b : Bool) : BitVec 8 := if b then 1 else 0

/-- The variant's code (R78). -/
def variantCode : Variant → BitVec 8
  | .noHash => 0
  | .hashA => 1
  | .hashB => 2
  | .hashAB => 3

/-- The word of a command (R73; meaningful for a well-formed one). -/
def encode : Instr → BitVec 32
  | .nop => wordOf 0x00 0 0 0 0 0
  | .clre => wordOf 0x01 0 0 0 0 0
  | .modred rd rv rm => wordOf 0x10 (sField rd) (sField rv) (sField rm) 0 0
  | .modmul rd rx ry rm => wordOf 0x11 (sField rd) (sField rx) (sField ry) (sField rm) 0
  | .modinv rd rv rm => wordOf 0x12 (sField rd) (sField rv) (sField rm) 0 0
  | .daInit => wordOf 0x20 0 0 0 0 0
  | .daCmp roff => wordOf 0x21 0 (sField roff) 0 0 0
  | .daOut => wordOf 0x22 0 0 0 0 0
  | .daHash => wordOf 0x23 0 0 0 0 0
  | .dbInit len => wordOf 0x30 0 0 0 0 len
  | .dbCmp roff rt last => wordOf 0x31 0 (sField roff) (sField rt) 0 (lastImm last)
  | .dbOut => wordOf 0x32 0 0 0 0 0
  | .dbHash len => wordOf 0x33 0 0 0 0 len
  | .dbHashd len => wordOf 0x34 0 0 0 0 len
  | .pinf pd => wordOf 0x40 (pField pd) 0 0 0 0
  | .pldg pd => wordOf 0x41 (pField pd) 0 0 0 0
  | .pset pd rx ry => wordOf 0x42 (pField pd) (sField rx) (sField ry) 0 0
  | .pgetx rd pa => wordOf 0x43 (sField rd) (pField pa) 0 0 0
  | .pgety rd pa => wordOf 0x44 (sField rd) (pField pa) 0 0 0
  | .pisinf rd pa => wordOf 0x45 (sField rd) (pField pa) 0 0 0
  | .padd pd pa pb => wordOf 0x46 (pField pd) (pField pa) (pField pb) 0 0
  | .pdbl pd pa => wordOf 0x47 (pField pd) (pField pa) 0 0 0
  | .pmul pd rk pa => wordOf 0x48 (pField pd) (sField rk) (pField pa) 0 0
  | .hred rd v => wordOf 0x50 (sField rd) 0 0 0 (variantCode v)
  | .keygen rd pq => wordOf 0x60 (sField rd) (pField pq) 0 0 0
  | .sign rr rs rk v => wordOf 0x61 (sField rr) (sField rs) (sField rk) 0 (variantCode v)
  | .verify rd rr rs pq v => wordOf 0x62 (sField rd) (sField rr) (sField rs) (pField pq) (variantCode v)

/-! ### The opcode map as masks and matches (R73), written out a second time -/

/-- The mask of a command's row (R73). -/
def rowMask : Instr → BitVec 32
  | .nop => 0xFFFFFFFF
  | .clre => 0xFFFFFFFF
  | .modred _ _ _ => 0xFF000FFF
  | .modmul _ _ _ _ => 0xFF0000FF
  | .modinv _ _ _ => 0xFF000FFF
  | .daInit => 0xFFFFFFFF
  | .daCmp _ => 0xFFF0FFFF
  | .daOut => 0xFFFFFFFF
  | .daHash => 0xFFFFFFFF
  | .dbInit _ => 0xFFFFFF00
  | .dbCmp _ _ _ => 0xFFF00FFE
  | .dbOut => 0xFFFFFFFF
  | .dbHash _ => 0xFFFFFF00
  | .dbHashd _ => 0xFFFFFF00
  | .pinf _ => 0xFF8FFFFF
  | .pldg _ => 0xFF8FFFFF
  | .pset _ _ _ => 0xFF800FFF
  | .pgetx _ _ => 0xFF08FFFF
  | .pgety _ _ => 0xFF08FFFF
  | .pisinf _ _ => 0xFF08FFFF
  | .padd _ _ _ => 0xFF888FFF
  | .pdbl _ _ => 0xFF88FFFF
  | .pmul _ _ _ => 0xFF808FFF
  | .hred _ _ => 0xFF0FFFFC
  | .keygen _ _ => 0xFF08FFFF
  | .sign _ _ _ _ => 0xFF000FFC
  | .verify _ _ _ _ _ => 0xFF0008FC

/-- The match of a command's row (R73). -/
def rowMatch : Instr → BitVec 32
  | .nop => 0x00000000
  | .clre => 0x01000000
  | .modred _ _ _ => 0x10000000
  | .modmul _ _ _ _ => 0x11000000
  | .modinv _ _ _ => 0x12000000
  | .daInit => 0x20000000
  | .daCmp _ => 0x21000000
  | .daOut => 0x22000000
  | .daHash => 0x23000000
  | .dbInit _ => 0x30000000
  | .dbCmp _ _ _ => 0x31000000
  | .dbOut => 0x32000000
  | .dbHash _ => 0x33000000
  | .dbHashd _ => 0x34000000
  | .pinf _ => 0x40000000
  | .pldg _ => 0x41000000
  | .pset _ _ _ => 0x42000000
  | .pgetx _ _ => 0x43000000
  | .pgety _ _ => 0x44000000
  | .pisinf _ _ => 0x45000000
  | .padd _ _ _ => 0x46000000
  | .pdbl _ _ => 0x47000000
  | .pmul _ _ _ => 0x48000000
  | .hred _ _ => 0x50000000
  | .keygen _ _ => 0x60000000
  | .sign _ _ _ _ => 0x61000000
  | .verify _ _ _ _ _ => 0x62000000

end Sys2Proof
end

