-- ==== Sys2Proof/Machine/HostPort.lean ====
section
/-! DEFINITION. The host port (`46_system.md` R285, R286): the register table (`10_state.md` R36), the host's
reads, writes and reset, and taking the next host operation. -/

namespace Sys2Proof.Machine

/-- A place of the REG space (R36). -/
inductive RegPlace where
  | cmd
  | status
  | cause
  | esticky
  | att
  | mlen
  | dlen
  | hbl
  | scalar (i : SReg)
  | pointInf (i : PReg)
  | pointX (i : PReg)
  | pointY (i : PReg)
  | ha (i : Fin 4)
  | hb (i : Fin 8)
  | reserved
  deriving DecidableEq, Repr

/-- The place within a point register's group of four indices (R36): `020 + 4·i` to `023 + 4·i`. -/
def pointPlace (i : PReg) (k : Nat) : RegPlace :=
  if k = 0 then .pointInf i else if k = 1 then .pointX i else if k = 2 then .pointY i else .reserved

/-- The register table (R36), whole: every index not listed is reserved. -/
def regPlace (idx : BitVec 12) : RegPlace :=
  let n := idx.toNat
  if n = 0x000 then .cmd
  else if n = 0x001 then .status
  else if n = 0x002 then .cause
  else if n = 0x003 then .esticky
  else if n = 0x004 then .att
  else if n = 0x005 then .mlen
  else if n = 0x006 then .dlen
  else if n = 0x007 then .hbl
  else if 0x010 ≤ n ∧ n < 0x020 then .scalar (Fin.ofNat 16 (n - 0x010))
  else if 0x020 ≤ n ∧ n < 0x040 then pointPlace (Fin.ofNat 8 ((n - 0x020) / 4)) ((n - 0x020) % 4)
  else if 0x040 ≤ n ∧ n < 0x044 then .ha (Fin.ofNat 4 (n - 0x040))
  else if 0x048 ≤ n ∧ n < 0x050 then .hb (Fin.ofNat 8 (n - 0x048))
  else .reserved

/-- The value of a register, zero-extended to 64 bits (`20_memory.md` R51); `CMD` and reserved indices read 0. -/
def State.readPlace (s : State) : RegPlace → W64
  | .cmd => 0
  | .status => s.status.setWidth 64
  | .cause => s.cause.setWidth 64
  | .esticky => s.esticky.setWidth 64
  | .att => s.att.setWidth 64
  | .mlen => s.mlen
  | .dlen => s.dlen.setWidth 64
  | .hbl => s.hbl.setWidth 64
  | .scalar i => s.scalars[i]
  | .pointInf i => boolScalar s.points[i].inf
  | .pointX i => s.points[i].x
  | .pointY i => s.points[i].y
  | .ha i => s.ha[i].setWidth 64
  | .hb i => s.hb[i]
  | .reserved => 0

/-- `HostReadReg(idx)` (R285). -/
def State.hostReadReg (s : State) (idx : BitVec 12) : W64 := s.readPlace (regPlace idx)

/-- A host write of a point register changes one field of it (`10_state.md` R22, R36). -/
def State.setPointReg (s : State) (i : PReg) (r : PointReg) : State := { s with points := s.points.set i r }

/-- Store the low bits of the data (`20_memory.md` R51). Read-only and reserved places ignore the write; `HBL`
ignores a value above 64; a write of `CMD` stores nothing (it issues a command, R286). -/
def State.writePlace (s : State) (v : W64) : RegPlace → State
  | .cmd => s
  | .status => s
  | .cause => s
  | .esticky => s
  | .att => s
  | .mlen => { s with mlen := v }
  | .dlen => s
  | .hbl => if v.toNat ≤ Config.bMaxOut then { s with hbl := v.setWidth 7 } else s
  | .scalar i => { s with scalars := s.scalars.set i v }
  | .pointInf i => s.setPointReg i { s.points[i] with inf := v.getLsbD 0 }
  | .pointX i => s.setPointReg i { s.points[i] with x := v }
  | .pointY i => s.setPointReg i { s.points[i] with y := v }
  | .ha i => { s with ha := s.ha.set i (v.setWidth 32) }
  | .hb i => { s with hb := s.hb.set i v }
  | .reserved => s

/-- `HostReadMB(i)` (`20_memory.md` R53). -/
def State.hostReadMB (cfg : Config) (s : State) (i : Nat) : Byte := if i < cfg.mbsize then s.mb.read i else 0

/-- `HostReadDG(i)` (R53). -/
def State.hostReadDG (s : State) (i : Nat) : Byte := if i < Config.dgSize then s.dg.read i else 0

/-- `HostWriteMB(i, byte)` (R53). -/
def State.hostWriteMB (cfg : Config) (s : State) (i : Nat) (b : Byte) : State :=
  if i < cfg.mbsize then { s with mb := s.mb.write i b } else s

/-- `HostReset()` (`70_reset_and_hazards.md` R330): every piece of CORE's state at its reset value; the random
source and the host's own plan are outside CORE. -/
def State.hostReset (s : State) : State := { State.reset with rng := s.rng, port := s.port }

/-- Put a reply on the port. -/
def State.reply (s : State) (r : HostReply) : State := { s with port := { s.port with reply := r } }

/-- What the next move of the machine is. -/
inductive Move where
  /-- No host operation is pending: CORE is idle (`60_exceptions.md` R315). -/
  | idle
  /-- A host operation that issues no command, done. -/
  | done (s : State)
  /-- A `CMD` write whose word decodes: the command, and the state it starts from. -/
  | issue (i : Instr) (s : State)

/-- The effect of one host operation on the state from which it has been taken (R285, R286). Bits 63:32 of a
`CMD` write are ignored; an undecodable word raises `E_ILLEGAL` (`30_encoding.md` R75). -/
def hostMove (cfg : Config) (s : State) : HostOp → Move
  | .readReg idx => .done (s.reply (.word (s.hostReadReg idx)))
  | .writeReg idx v =>
    if regPlace idx = .cmd then
      match decode (v.setWidth 32) with
      | .command i => .issue i (s.reply .nothing)
      | .illegal _ => .done (CommandEnd.raises .illegal (s.reply .nothing)).report
    else .done ((s.writePlace v (regPlace idx)).reply .nothing)
  | .readMB i => .done (s.reply (.byte (s.hostReadMB cfg i)))
  | .writeMB i b => .done ((s.hostWriteMB cfg i b).reply .nothing)
  | .readDG i => .done (s.reply (.byte (s.hostReadDG i)))
  | .reset => .done (s.hostReset.reply .nothing)

/-- The state with its first pending operation taken: `rest` is what stays to come. -/
def State.withPending (s : State) (rest : List HostOp) : State := { s with port := { s.port with pending := rest } }

/-- Take the next host operation. -/
def nextMove (cfg : Config) (s : State) : Move :=
  match s.port.pending with
  | [] => .idle
  | op :: rest => hostMove cfg (s.withPending rest) op

/-- The host operation that issues a command word (R286): a write of REG index 0. -/
def issueOp (w : BitVec 32) : HostOp := .writeReg 0 (w.setWidth 64)

end Sys2Proof.Machine
end

