-- ==== Sys2Proof/Machine/Step.lean ====
section
/-! DEFINITION. One step of CORE: one move of the host, a command being one move (`00_scope.md` R10,
`46_system.md` R285, R286). -/

namespace Sys2Proof.Machine

/-- One step: idle when no host operation is pending; else the next operation, whole. -/
def step (s : State) : Host.Outcome State Fault Refusal :=
  match nextMove Config.core s with
  | .idle => .next s
  | .done s' => .next s'
  | .issue i s' => exec i s'

/-- The state whose next step issues the given table word: its `CMD` write is put first among the host's pending
operations (log entry 1). -/
def State.withFetchWord (s : State) (nbits w : Nat) : State :=
  s.withPending (issueOp (BitVec.ofNat 32 (w % 2 ^ nbits)) :: s.port.pending)

end Sys2Proof.Machine
end

