-- ==== Sys2Proof/Machine/Assembler.lean ====
section
/-! DEFINITION. The assembler syntax and the pseudo-commands (`30_encoding.md` R80, R81): from a line of text to
the host operations it stands for. No step of the machine uses this file: it is the notation of programs. -/

namespace Sys2Proof.Machine

/-- An operand of a line (R80). -/
inductive AsmOperand where
  | s (i : SReg)
  | p (i : PReg)
  | num (n : Nat)
  | variant (v : Variant)
  deriving DecidableEq, Repr

/-! ### Characters and numbers -/

/-- The value of a digit in the given base (10 or 16). -/
def digitValue (base : Nat) (c : Char) : Option Nat :=
  let n := c.toNat
  let d := if 48 ≤ n ∧ n ≤ 57 then some (n - 48)
    else if 65 ≤ n ∧ n ≤ 70 then some (n - 55)
    else if 97 ≤ n ∧ n ≤ 102 then some (n - 87)
    else none
  d.filter fun k => decide (k < base)

/-- A non-empty run of digits. -/
def digits (base : Nat) : Option Nat → List Char → Option Nat
  | acc, [] => acc
  | acc, c :: cs =>
    match digitValue base c with
    | none => none
    | some d => digits base (some (acc.getD 0 * base + d)) cs

/-- A decimal number, or a hexadecimal number with the prefix `0x` (R80). -/
def number : List Char → Option Nat
  | '0' :: 'x' :: cs => digits 16 none cs
  | cs => digits 10 none cs

/-- Drop blanks at both ends. -/
def trim (cs : List Char) : List Char :=
  ((cs.dropWhile (· == ' ')).reverse.dropWhile (· == ' ')).reverse

/-- Cut a text at every comma. -/
def commas : List Char → List (List Char)
  | [] => [[]]
  | c :: cs =>
    if c = ',' then [] :: commas cs
    else
      match commas cs with
      | [] => [[c]]
      | x :: xs => (c :: x) :: xs

/-- A register number below `n` (`n > 0`). -/
def below (n : Nat) [NeZero n] (cs : List Char) : Option (Fin n) :=
  (digits 10 none cs).bind fun k => if k < n then some (Fin.ofNat n k) else none

/-! ### Operands (R80) -/

/-- One operand: a scalar register, a point register, a variant's name, or a number. -/
def asmOperand (cs : List Char) : Option AsmOperand :=
  match cs with
  | ['n', 'o', 'n', 'e'] => some (.variant .noHash)
  | ['a'] => some (.variant .hashA)
  | ['b'] => some (.variant .hashB)
  | ['a', 'b'] => some (.variant .hashAB)
  | 's' :: ds => (below 16 ds).map .s
  | 'p' :: ds => (below 8 ds).map .p
  | cs => (number cs).map .num

/-- The operands of a line: none, or separated by commas. -/
def asmOperands (cs : List Char) : Option (List AsmOperand) :=
  if trim cs = [] then some [] else (commas cs).mapM fun x => asmOperand (trim x)

/-- A variant operand: its code or its name (R80). -/
def asmVariant : AsmOperand → Option Variant
  | .variant v => some v
  | .num n => if n < 4 then some (variantOf (BitVec.ofNat 2 n)) else none
  | .s _ => none
  | .p _ => none

/-- An 8-bit immediate operand (`30_encoding.md` R71). -/
def asmImm (n : Nat) : Option (BitVec 8) := if n < 256 then some (BitVec.ofNat 8 n) else none

/-! ### Commands and pseudo-commands -/

/-- The command of a mnemonic and its operands in the order of the opcode map (R73, R80). -/
def asmCommand (mn : String) (ops : List AsmOperand) : Option Instr :=
  match mn, ops with
  | "NOP", [] => some .nop
  | "CLRE", [] => some .clre
  | "MODRED", [.s rd, .s rv, .s rm] => some (.modred rd rv rm)
  | "MODMUL", [.s rd, .s rx, .s ry, .s rm] => some (.modmul rd rx ry rm)
  | "MODINV", [.s rd, .s rv, .s rm] => some (.modinv rd rv rm)
  | "DA.INIT", [] => some .daInit
  | "DA.CMP", [.s roff] => some (.daCmp roff)
  | "DA.OUT", [] => some .daOut
  | "DA.HASH", [] => some .daHash
  | "DB.INIT", [.num l] => (asmImm l).map .dbInit
  | "DB.CMP", [.s roff, .s rt, .num l] => if l < 2 then some (.dbCmp roff rt (decide (l = 1))) else none
  | "DB.OUT", [] => some .dbOut
  | "DB.HASH", [.num l] => (asmImm l).map .dbHash
  | "DB.HASHD", [.num l] => (asmImm l).map .dbHashd
  | "PINF", [.p pd] => some (.pinf pd)
  | "PLDG", [.p pd] => some (.pldg pd)
  | "PSET", [.p pd, .s rx, .s ry] => some (.pset pd rx ry)
  | "PGETX", [.s rd, .p pa] => some (.pgetx rd pa)
  | "PGETY", [.s rd, .p pa] => some (.pgety rd pa)
  | "PISINF", [.s rd, .p pa] => some (.pisinf rd pa)
  | "PADD", [.p pd, .p pa, .p pb] => some (.padd pd pa pb)
  | "PDBL", [.p pd, .p pa] => some (.pdbl pd pa)
  | "PMUL", [.p pd, .s rk, .p pa] => some (.pmul pd rk pa)
  | "HRED", [.s rd, v] => (asmVariant v).map (.hred rd)
  | "KEYGEN", [.s rd, .p pq] => some (.keygen rd pq)
  | "SIGN", [.s rr, .s rs, .s rk, v] => (asmVariant v).bind fun v => if rr = rs then none else some (.sign rr rs rk v)
  | "VERIFY", [.s rd, .s rr, .s rs, .p pq, v] => (asmVariant v).map (.verify rd rr rs pq)
  | _, _ => none

/-- The variant a pseudo-command's suffix names (R81). -/
def suffixVariant (mn base : String) : Option Variant :=
  if mn = base ++ ".NONE" then some .noHash
  else if mn = base ++ ".A" then some .hashA
  else if mn = base ++ ".B" then some .hashB
  else if mn = base ++ ".AB" then some .hashAB
  else none

/-- `PMULG pd, rk` (R81). -/
def pmulg (pd : PReg) (rk : SReg) : List Instr := [.pldg pd, .pmul pd rk pd]

/-- `PMOV pd, pa` (R81): with `pd = pa` the assembler emits nothing. -/
def pmov (pd pa : PReg) : List Instr := if pd = pa then [] else [.pinf pd, .padd pd pd pa]

/-- The expansion of a pseudo-command (R81). -/
def asmPseudo (mn : String) (ops : List AsmOperand) : Option (List Instr) :=
  match ops with
  | [] => if mn = "DB.HASH32" then some [.dbHash 32] else none
  | [.s rd] => (suffixVariant mn "HRED").map fun v => [.hred rd v]
  | [.s rr, .s rs, .s rk] => if rr = rs then none else (suffixVariant mn "SIGN").map fun v => [.sign rr rs rk v]
  | [.s rd, .s rr, .s rs, .p pq] => (suffixVariant mn "VERIFY").map fun v => [.verify rd rr rs pq v]
  | [.p pd, .s rk] => if mn = "PMULG" then some (pmulg pd rk) else none
  | [.p pd, .p pa] => if mn = "PMOV" then some (pmov pd pa) else none
  | _ => none

/-- The commands of a mnemonic with operands: a command, or the expansion of a pseudo-command. -/
def asmCommands (mn : String) (ops : List AsmOperand) : Option (List Instr) :=
  match asmCommand mn ops with
  | some i => some [i]
  | none => asmPseudo mn ops

/-! ### HOST lines (R80; `46_system.md` R285) -/

/-- The fields of a point register, by name. -/
def pointFieldName (i : PReg) (cs : List Char) : Option Nat :=
  match cs with
  | ['I', 'N', 'F'] => some (0x020 + 4 * i.val)
  | ['X'] => some (0x021 + 4 * i.val)
  | ['Y'] => some (0x022 + 4 * i.val)
  | _ => none

/-- A register's REG index from its name or from a number (`46_system.md` R285; `10_state.md` R36). -/
def regIndex (cs : List Char) : Option (BitVec 12) :=
  let named : Option Nat := match cs with
    | ['C', 'M', 'D'] => some 0x000
    | ['S', 'T', 'A', 'T', 'U', 'S'] => some 0x001
    | ['C', 'A', 'U', 'S', 'E'] => some 0x002
    | ['E', 'S', 'T', 'I', 'C', 'K', 'Y'] => some 0x003
    | ['A', 'T', 'T'] => some 0x004
    | ['M', 'L', 'E', 'N'] => some 0x005
    | ['D', 'L', 'E', 'N'] => some 0x006
    | ['H', 'B', 'L'] => some 0x007
    | 'h' :: 'a' :: ds => (below 4 ds).map fun i => 0x040 + i.val
    | 'h' :: 'b' :: ds => (below 8 ds).map fun i => 0x048 + i.val
    | 's' :: ds => (below 16 ds).map fun i => 0x010 + i.val
    | 'p' :: d :: '.' :: field => (below 8 [d]).bind fun i => pointFieldName i field
    | cs => number cs
  named.bind fun n => if n < 2 ^ 12 then some (BitVec.ofNat 12 n) else none

/-- A number below `2^w`. -/
def wordNumber (w : Nat) (cs : List Char) : Option (BitVec w) :=
  (number cs).bind fun n => if n < 2 ^ w then some (BitVec.ofNat w n) else none

/-- A HOST line, after the word HOST: the operation's name and its operands. -/
def asmHost (name : String) (ops : List (List Char)) : Option HostOp :=
  match name, ops with
  | "ReadReg", [r] => (regIndex r).map .readReg
  | "WriteReg", [r, v] => (regIndex r).bind fun i => (wordNumber 64 v).map (.writeReg i)
  | "ReadMB", [i] => (number i).map .readMB
  | "WriteMB", [i, b] => (number i).bind fun i => (wordNumber 8 b).map (.writeMB i)
  | "ReadDG", [i] => (number i).map .readDG
  | "Reset", [] => some .reset
  | "Issue", [w] => (wordNumber 32 w).map issueOp
  | _, _ => none

/-- The text before a comment, without blanks at its ends (R80: `#` starts a comment). -/
def codeOf (cs : List Char) : List Char := trim (cs.takeWhile (· != '#'))

/-- The host operations of one line; `none` where the line has no meaning. -/
def asmLine (line : String) : Option (List HostOp) :=
  let cs := codeOf line.toList
  let word := cs.takeWhile (· != ' ')
  let rest := trim (cs.dropWhile (· != ' '))
  if cs = [] then some []
  else if word = ['H', 'O', 'S', 'T'] then
    let name := rest.takeWhile (· != ' ')
    let args := trim (rest.dropWhile (· != ' '))
    (asmHost (String.ofList name) (if args = [] then [] else (commas args).map trim)).map fun op => [op]
  else
    (asmOperands rest).bind fun ops =>
      (asmCommands (String.ofList word) ops).map fun is => is.map fun i => issueOp (encode i)

/-- The host operations of a program, line by line. -/
def asmProgram (lines : List String) : Option (List HostOp) := (lines.mapM asmLine).map List.flatten

end Sys2Proof.Machine
end

