-- ==== Sys2Proof/Safety.lean ====
section
/-! DEFINITION. The terms claims are stated in: the machine's invariant, what counts as a safe run, the
destinations of each command (`10_state.md` R41), and the curve's points. -/

namespace Sys2Proof.Machine

/-- What holds in every state of CORE after every step, each field from a rule of `10_state.md`. -/
structure State.Inv (s : State) : Prop where
  /-- `MB` is in its one canonical form and inside `MBSIZE` (R26). -/
  mb_wf : s.mb.wf = true
  mb_below : s.mb.below Config.core.mbsize = true
  /-- `DG` is in its one canonical form and has 64 bytes (R28). -/
  dg_wf : s.dg.wf = true
  dg_below : s.dg.below 64 = true
  /-- `DLEN` is 0 to 64 (R29), and `DG[DLEN .. 64)` is zero (R28). -/
  dlen_le : s.dlen.toNat ≤ 64
  dg_tail : ∀ i, s.dlen.toNat ≤ i → s.dg.read i = 0
  /-- `HBL` is 0 to 64 (R25). -/
  hbl_le : s.hbl.toNat ≤ 64
  /-- `ATT` is at most `RETRY` (R34). -/
  att_le : s.att.toNat ≤ 100
  /-- `CAUSE` is a code of `60_exceptions.md` R302; codes 9 to 15 are never produced. -/
  cause_le : s.cause.toNat ≤ 8
  /-- `STATUS.ERR = 1` exactly when `CAUSE != 0` (R32). -/
  status_iff : s.status = 1 ↔ s.cause ≠ 0
  /-- `ESTICKY` bit 0 reads as 0 (R33). -/
  sticky_zero : s.esticky.getLsbD 0 = false
  /-- The cause in `CAUSE` is recorded in `ESTICKY` (R33, `60_exceptions.md` R303). -/
  sticky_cause : s.cause ≠ 0 → s.esticky.getLsbD s.cause.toNat = true

/-- No error has been recorded since the last CLRE or reset (`60_exceptions.md` R306). -/
def State.noError (s : State) : Prop := s.esticky = 0

/-- A run of `k` steps is safe: every step answers a next state, and no error is recorded at its end. -/
def safeRun (k : Nat) (s : State) : Prop := ∃ t, Sys2Proof.core.run k s = .next t ∧ State.noError t

/-! ### How a command leaves the reporting registers (`60_exceptions.md` R302, R303) -/

/-- The state with a normal completion reported: `CAUSE` 0, `STATUS.ERR` 0, `ESTICKY` as it was. -/
def completed (s : State) : State := { s with cause := 0, status := 0 }

/-- The state with cause code `c` reported: `CAUSE` `c`, `STATUS.ERR` 1, `ESTICKY` bit `c` set. -/
def failed (s : State) (c : Nat) : State :=
  { s with cause := BitVec.ofNat 4 c, status := 1, esticky := s.esticky ||| BitVec.ofNat 9 (2 ^ c) }

/-- The state with `s[rd]` holding the integer `v`. -/
def withScalar (s : State) (rd : SReg) (v : Nat) : State := { s with scalars := s.scalars.set rd (BitVec.ofNat 64 v) }

/-- The state with point register `pd` holding the given fields. -/
def withPoint (s : State) (pd : PReg) (r : PointReg) : State := { s with points := s.points.set pd r }

/-! ### The destinations of each command (`10_state.md` R41) -/

/-- Scalar destinations. -/
def scalarDests : Instr → List SReg
  | .nop => []
  | .clre => []
  | .modred rd _ _ => [rd]
  | .modmul rd _ _ _ => [rd]
  | .modinv rd _ _ => [rd]
  | .daInit => []
  | .daCmp _ => []
  | .daOut => []
  | .daHash => []
  | .dbInit _ => []
  | .dbCmp _ _ _ => []
  | .dbOut => []
  | .dbHash _ => []
  | .dbHashd _ => []
  | .pinf _ => []
  | .pldg _ => []
  | .pset _ _ _ => []
  | .pgetx rd _ => [rd]
  | .pgety rd _ => [rd]
  | .pisinf rd _ => [rd]
  | .padd _ _ _ => []
  | .pdbl _ _ => []
  | .pmul _ _ _ => []
  | .hred rd _ => [rd]
  | .keygen rd _ => [rd]
  | .sign rr rs _ _ => [rr, rs]
  | .verify rd _ _ _ _ => [rd]

/-- Point destinations. -/
def pointDests : Instr → List PReg
  | .nop => []
  | .clre => []
  | .modred _ _ _ => []
  | .modmul _ _ _ _ => []
  | .modinv _ _ _ => []
  | .daInit => []
  | .daCmp _ => []
  | .daOut => []
  | .daHash => []
  | .dbInit _ => []
  | .dbCmp _ _ _ => []
  | .dbOut => []
  | .dbHash _ => []
  | .dbHashd _ => []
  | .pinf pd => [pd]
  | .pldg pd => [pd]
  | .pset pd _ _ => [pd]
  | .pgetx _ _ => []
  | .pgety _ _ => []
  | .pisinf _ _ => []
  | .padd pd _ _ => [pd]
  | .pdbl pd _ => [pd]
  | .pmul pd _ _ => [pd]
  | .hred _ _ => []
  | .keygen _ pq => [pq]
  | .sign _ _ _ _ => []
  | .verify _ _ _ _ _ => []

/-- The variant of a command that reduces the message (HRED, SIGN, VERIFY). -/
def variantUsed : Instr → Option Variant
  | .nop => none
  | .clre => none
  | .modred _ _ _ => none
  | .modmul _ _ _ _ => none
  | .modinv _ _ _ => none
  | .daInit => none
  | .daCmp _ => none
  | .daOut => none
  | .daHash => none
  | .dbInit _ => none
  | .dbCmp _ _ _ => none
  | .dbOut => none
  | .dbHash _ => none
  | .dbHashd _ => none
  | .pinf _ => none
  | .pldg _ => none
  | .pset _ _ _ => none
  | .pgetx _ _ => none
  | .pgety _ _ => none
  | .pisinf _ _ => none
  | .padd _ _ _ => none
  | .pdbl _ _ => none
  | .pmul _ _ _ => none
  | .hred _ v => some v
  | .keygen _ _ => none
  | .sign _ _ _ v => some v
  | .verify _ _ _ _ v => some v

/-- The variant runs digest A (`44_hash_reducers.md` R232, R234). -/
def Variant.usesA (v : Variant) : Bool := v == .hashA || v == .hashAB

/-- The variant runs digest B (R233, R234). -/
def Variant.usesB (v : Variant) : Bool := v == .hashB || v == .hashAB

/-- The command may write `ha`. -/
def writesHa (i : Instr) : Bool :=
  i.mnemonic == "DA.INIT" || i.mnemonic == "DA.CMP" || i.mnemonic == "DA.HASH" || (variantUsed i).any Variant.usesA

/-- The command may write `HBL`. -/
def writesHbl (i : Instr) : Bool :=
  i.mnemonic == "DB.INIT" || i.mnemonic == "DB.HASH" || i.mnemonic == "DB.HASHD" || (variantUsed i).any Variant.usesB

/-- The command may write `hb`. -/
def writesHb (i : Instr) : Bool := writesHbl i || i.mnemonic == "DB.CMP"

/-- The command may write `DG` and `DLEN`. -/
def writesDigest (i : Instr) : Bool :=
  i.mnemonic == "DA.OUT" || i.mnemonic == "DA.HASH" || i.mnemonic == "DB.OUT" || i.mnemonic == "DB.HASH" ||
    i.mnemonic == "DB.HASHD" || (variantUsed i).any fun v => v != .noHash

/-! ### The curve (`43_ec_group.md`, `00_scope.md` R5) -/

/-- A reduced point of `y² = x³ + 4x + 20` over the field of 29 elements, or the point at infinity (R190). -/
def onCurve : Point → Bool
  | .inf => true
  | .finite x y => decide (x < 29) && decide (y < 29) && decide (y * y % 29 = (x * x * x + 4 * x + 20) % 29)

/-- The sum of two points where the adder gives one. -/
def pointSum (p q : Point) : Point := (pointAdd Config.curveDs1 p q).getD .inf

/-- `P + P + … + P`, `k` times: repeated addition, the meaning of a multiple. -/
def repeatedSum (p : Point) : Nat → Point
  | 0 => .inf
  | k + 1 => pointSum p (repeatedSum p k)

/-- The running result and the working point of the binary method after `j` bits of `k`, least significant first:
add the working point when the bit is set, then double it (R204). -/
def binaryMethod (k : Nat) (p : Point) : Nat → Point × Point
  | 0 => (.inf, p)
  | j + 1 =>
    let ra := binaryMethod k p j
    (if k.testBit j then pointSum ra.1 ra.2 else ra.1, pointSum ra.2 ra.2)

/-- What the binary method gives on a scalar of at most 64 bits, for any point, on the curve or not (R204). -/
def binaryMultiple (p : Point) (k : Nat) : Point := (binaryMethod k p 64).1

/-- The fields of a point register that holds a point as a command writes it (`10_state.md` R22). -/
def regOf : Point → PointReg
  | .inf => { inf := true, x := 0, y := 0 }
  | .finite x y => { inf := false, x := BitVec.ofNat 64 x, y := BitVec.ofNat 64 y }

/-- The base point `(1, 5)` (R5). -/
def baseG : Point := .finite 1 5

/-- The point is finite and its abscissa is `r` modulo 37 (`45_ecdsa.md` R253). -/
def abscissaIs (r : Nat) : Point → Bool
  | .inf => false
  | .finite x _ => decide (x % 37 = r)

/-- The draw `k` in `[1, 36]` makes an attempt of the signing loop retry, for the reduced message `e` and the private
key `d`: the abscissa `r` of `k·G` is 0, or `e + d·r` is 0 modulo 37 and with it `s` (`45_ecdsa.md` R252, R254 (ii),
(iii)). -/
def signRetries (e d : Nat) (k : W64) : Bool :=
  decide (1 ≤ k.toNat) && decide (k.toNat ≤ 36) &&
    match repeatedSum baseG k.toNat with
    | .inf => true
    | .finite r _ => decide (r = 0) || decide ((e + d * r) % 37 = 0)

/-- The value of a point register: `INF`, or the pair of its coordinates (`10_state.md` R22). -/
def pointOf (r : PointReg) : Point := if r.inf then .inf else .finite r.x.toNat r.y.toNat

/-- Run a list of commands, stopping where one does not answer a next state. -/
def execAll : List Instr → State → Host.Outcome State Fault Refusal
  | [], s => .next s
  | i :: is, s =>
    match exec i s with
    | .next t => execAll is t
    | .fault r => .fault r
    | .refused r => .refused r

end Sys2Proof.Machine
end

