-- ==== Sys2Proof/Certificates/Slice0/Obligations.lean ====
section
/-! DEFINITION. The statements for the provers. -/

open Sys2Proof Sys2Proof.Machine

/-! ### Encoding -/

/-- Every command that has an encoding is read back from it, with every operand (R70, R73, R74). -/
def Obligations.DecodeInvertsEncode : Prop :=
  ∀ i : Instr, i.wellFormed = true → decode (encode i) = .command i

/-- A word that decodes is the encoding of what it decodes to, so no bit of it is dropped (R70, R71, R74, R75). -/
def Obligations.EncodeInvertsDecode : Prop :=
  ∀ (w : BitVec 32) (i : Instr), decode w = .command i → i.wellFormed = true ∧ encode i = w

/-- The decoder is the masks and matches of R73 with the one exception of R74: a word decodes only in its row; a
word of a row decodes to that row's mnemonic unless the row is SIGN with `f0 = f1`, and then it is illegal; a word
of no row is illegal. A row is named by any command of it. -/
def Obligations.DecodeFollowsMaskAndMatch : Prop :=
  ∀ w : BitVec 32,
    (∀ i, decode w = .command i → w &&& rowMask i = rowMatch i) ∧
    (∀ j : Instr, w &&& rowMask j = rowMatch j → ¬ (j.mnemonic = "SIGN" ∧ f0Field w = f1Field w) →
      ∃ i, decode w = .command i ∧ i.mnemonic = j.mnemonic) ∧
    (∀ j : Instr, w &&& rowMask j = rowMatch j → j.mnemonic = "SIGN" → f0Field w = f1Field w →
      ∃ why, decode w = .illegal why) ∧
    ((∀ j : Instr, w &&& rowMask j ≠ rowMatch j) → ∃ why, decode w = .illegal why)

/-- The worked encodings of R82 and some of `95_test_vectors.md` section 2.7 decode as they say. -/
def Obligations.SpecWordsDecode : Prop :=
  decode 0x12201000 = .command (.modinv 2 0 1) ∧
  decode 0x31034001 = .command (.dbCmp 3 4 true) ∧
  decode 0x33000020 = .command (.dbHash 32) ∧
  decode 0x48230000 = .command (.pmul 2 3 0) ∧
  decode 0x61453000 = .command (.sign 4 5 3 .noHash) ∧
  decode 0x62945103 = .command (.verify 9 4 5 1 .hashAB) ∧
  decode 0x11123400 = .command (.modmul 1 2 3 4) ∧
  decode 0x42178000 = .command (.pset 1 7 8) ∧
  decode 0x50F00002 = .command (.hred 15 .hashB) ∧
  decode 0x60310000 = .command (.keygen 3 1) ∧
  decode 0x21010000 = .command (.daCmp 1) ∧
  decode 0x48A30000 = .illegal .pointField ∧
  decode 0x61443000 = .illegal .signSameRegister ∧
  decode 0x50000004 = .illegal .immBits ∧
  decode 0x02000000 = .illegal .unassignedOpcode ∧
  decode 0x20100000 = .illegal .unusedField ∧
  decode 0x30000000 = .command (.dbInit 0)

/-! ### The step and the host port -/

/-- A `CMD` write whose low 32 bits decode to a command makes the step run that command, from the state in which
that host operation has been taken from the pending ones and nothing is returned (R286; the pending list and the
reply are the model's own, log entry 1). -/
def Obligations.StepIssuesDecodedCommand : Prop :=
  ∀ (s : State) (v : W64) (rest : List HostOp) (i : Instr),
    s.port.pending = .writeReg 0 v :: rest → decode (v.setWidth 32) = .command i → i.wellFormed = true →
      step s = exec i { s with port := { pending := rest, reply := .nothing } }

/-- A `CMD` write whose low 32 bits do not decode changes nothing but `STATUS`, `CAUSE` (1) and `ESTICKY` (bit 1). The pending
list and the reply are the model's own (log entry 1). -/
def Obligations.IllegalWordOnlyReports : Prop :=
  ∀ (s : State) (v : W64) (rest : List HostOp) (why : Illegal),
    s.port.pending = .writeReg 0 v :: rest → decode (v.setWidth 32) = .illegal why →
      step s = .next (failed { s with port := { pending := rest, reply := .nothing } } 1)

/-- With no host operation pending CORE keeps all state. The pending
list and the reply are the model's own (log entry 1). -/
def Obligations.IdleStepKeepsState : Prop :=
  ∀ s : State, s.port.pending = [] → step s = .next s

/-- A register read returns the register of the table R36, zero-extended, and changes nothing but the reply; `CMD`
and every index outside the table read 0. The pending list and the reply are the model's own (log entry 1). -/
def Obligations.HostReadReturnsRegisterTable : Prop :=
  ∀ (s : State) (idx : BitVec 12) (rest : List HostOp), s.port.pending = .readReg idx :: rest →
    ∃ v : W64, step s = .next { s with port := { pending := rest, reply := .word v } } ∧
      (idx = 0x000 → v = 0) ∧
      (idx = 0x001 → v.toNat = s.status.toNat) ∧
      (idx = 0x002 → v.toNat = s.cause.toNat) ∧
      (idx = 0x003 → v.toNat = s.esticky.toNat) ∧
      (idx = 0x004 → v.toNat = s.att.toNat) ∧
      (idx = 0x005 → v = s.mlen) ∧
      (idx = 0x006 → v.toNat = s.dlen.toNat) ∧
      (idx = 0x007 → v.toNat = s.hbl.toNat) ∧
      (∀ i : Fin 16, idx.toNat = 0x010 + i.val → v = s.scalars[i]) ∧
      (∀ i : Fin 8, idx.toNat = 0x020 + 4 * i.val → v = if s.points[i].inf then 1 else 0) ∧
      (∀ i : Fin 8, idx.toNat = 0x021 + 4 * i.val → v = s.points[i].x) ∧
      (∀ i : Fin 8, idx.toNat = 0x022 + 4 * i.val → v = s.points[i].y) ∧
      (∀ i : Fin 8, idx.toNat = 0x023 + 4 * i.val → v = 0) ∧
      (∀ i : Fin 4, idx.toNat = 0x040 + i.val → v.toNat = s.ha[i].toNat) ∧
      (∀ i : Fin 8, idx.toNat = 0x048 + i.val → v = s.hb[i]) ∧
      (0x008 ≤ idx.toNat → idx.toNat < 0x010 → v = 0) ∧
      (0x044 ≤ idx.toNat → idx.toNat < 0x048 → v = 0) ∧
      (0x050 ≤ idx.toNat → v = 0)

/-- A register write other than of `CMD` changes at most the register at its index: that register then reads as the
low bits of the data (for `HBL` only when the data is at most 64), a read-only register as before, a reserved index
as 0; every other register, both buffers and the random port are unchanged (R36, R51). The
pending list and the reply are the model's own (log entry 1). -/
def Obligations.HostWriteChangesOneRegister : Prop :=
  ∀ (s : State) (idx : BitVec 12) (v : W64) (rest : List HostOp), idx ≠ 0 →
    s.port.pending = .writeReg idx v :: rest →
      ∃ t : State, step s = .next t ∧ t.port = { pending := rest, reply := .nothing } ∧
        t.mb = s.mb ∧ t.dg = s.dg ∧ t.rng = s.rng ∧
        (∀ idx' : BitVec 12, idx' ≠ idx → t.hostReadReg idx' = s.hostReadReg idx') ∧
        (idx = 0x005 ∨ (0x010 ≤ idx.toNat ∧ idx.toNat < 0x020) ∨ (0x048 ≤ idx.toNat ∧ idx.toNat < 0x050) ∨
            (0x020 ≤ idx.toNat ∧ idx.toNat < 0x040 ∧ (idx.toNat % 4 = 1 ∨ idx.toNat % 4 = 2)) →
          t.hostReadReg idx = v) ∧
        (0x020 ≤ idx.toNat ∧ idx.toNat < 0x040 ∧ idx.toNat % 4 = 0 → t.hostReadReg idx = v &&& 1) ∧
        (0x040 ≤ idx.toNat ∧ idx.toNat < 0x044 → t.hostReadReg idx = v &&& 0xFFFFFFFF) ∧
        (idx = 0x007 → t.hostReadReg idx = if v.toNat ≤ 64 then v else s.hostReadReg idx) ∧
        (idx = 0x001 ∨ idx = 0x002 ∨ idx = 0x003 ∨ idx = 0x004 ∨ idx = 0x006 →
          t.hostReadReg idx = s.hostReadReg idx) ∧
        ((0x008 ≤ idx.toNat ∧ idx.toNat < 0x010) ∨ (0x044 ≤ idx.toNat ∧ idx.toNat < 0x048) ∨
            0x050 ≤ idx.toNat ∨ (0x020 ≤ idx.toNat ∧ idx.toNat < 0x040 ∧ idx.toNat % 4 = 3) →
          t.hostReadReg idx = 0)

/-- Host buffer accesses move one byte: a write of `MB[i]` changes that byte alone when `i < MBSIZE` and nothing
otherwise; a read returns the byte, or 0 beyond the buffer, and changes nothing but the reply (R53). The pending
list and the reply are the model's own (log entry 1). -/
def Obligations.HostBufferAccessMovesOneByte : Prop :=
  ∀ (s : State) (i : Nat) (rest : List HostOp),
    (∀ b : Byte, s.mb.wf = true → s.port.pending = .writeMB i b :: rest →
      ∃ mb' : Memory, step s = .next { s with mb := mb', port := { pending := rest, reply := .nothing } } ∧
        (∀ j, mb'.read j = if j = i ∧ i < Config.core.mbsize then b else s.mb.read j)) ∧
    (s.port.pending = .readMB i :: rest →
      step s = .next { s with port := { pending := rest, reply := .byte (if i < Config.core.mbsize then s.mb.read i else 0) } }) ∧
    (s.port.pending = .readDG i :: rest →
      step s = .next { s with port := { pending := rest, reply := .byte (if i < 64 then s.dg.read i else 0) } })

/-- `HostReset()` puts all of CORE's state at its reset value; the random port goes on where it was (R330). What
the host still plans to do stays too (the model's own field, log entry 1). -/
def Obligations.HostResetRestoresResetState : Prop :=
  ∀ (s : State) (rest : List HostOp), s.port.pending = .reset :: rest →
    step s = .next { State.reset with rng := s.rng, port := { pending := rest, reply := .nothing } }

/-- The reset state, register by register and byte by byte (R40). -/
def Obligations.ResetReadsAsTheTable : Prop :=
  (∀ i : Fin 16, State.reset.scalars[i] = 0) ∧
  (∀ i : Fin 8, State.reset.points[i].inf = true ∧ State.reset.points[i].x = 0 ∧ State.reset.points[i].y = 0) ∧
  (∀ i : Fin 4, State.reset.ha[i] = 0) ∧
  (∀ i : Fin 8, State.reset.hb[i] = 0) ∧
  State.reset.hbl = 0 ∧
  (∀ j, State.reset.mb.read j = 0) ∧
  State.reset.mlen = 0 ∧
  (∀ j, State.reset.dg.read j = 0) ∧
  State.reset.dlen = 0 ∧
  State.reset.status = 0 ∧ State.reset.cause = 0 ∧ State.reset.esticky = 0 ∧ State.reset.att = 0

/-! ### The invariant -/

/-- The reset state meets the invariant. -/
def Obligations.ResetMeetsInvariant : Prop := State.reset.Inv

/-- From every state that meets the invariant, a step leads to a state that meets it. -/
def Obligations.StepKeepsInvariant : Prop :=
  ∀ s t : State, s.Inv → step s = .next t → t.Inv

/-! ### How every command ends -/

/-- Every command of the machine ends, in every state: with cause 0, or with a cause 1 to 8; `STATUS.ERR` says
which, and `ESTICKY` gains exactly the cause's bit, but for CLRE, which clears it (R303). -/
def Obligations.EveryCommandReportsItsEnd : Prop :=
  ∀ (i : Instr) (s : State), ∃ t : State, exec i s = .next t ∧
    ((t.cause = 0 ∧ t.status = 0 ∧ t.esticky = if i = .clre then 0 else s.esticky) ∨
     (∃ c : Nat, 1 ≤ c ∧ c ≤ 8 ∧ t.cause = BitVec.ofNat 4 c ∧ t.status = 1 ∧
       t.esticky = s.esticky ||| BitVec.ofNat 9 (2 ^ c)))

/-- A command that ends with a cause changes nothing but the report; KEYGEN with `E_RNG` has also consumed one
draw; SIGN that fails after its bounds check has also consumed its draws, written `ATT`, and keeps what its reducer
did to the hash units and the digest buffer (R304). The draws are
held in State as the model chose (log entry 2). -/
def Obligations.FailedCommandChangesOnlyReport : Prop :=
  ∀ (i : Instr) (s t : State), exec i s = .next t → t.cause ≠ 0 →
    (i.mnemonic ≠ "KEYGEN" → i.mnemonic ≠ "SIGN" → t = failed s t.cause.toNat) ∧
    (i.mnemonic = "KEYGEN" → t = failed { s with rng := s.rng.draw.2 } t.cause.toNat) ∧
    (∀ rr rs rk v, i = .sign rr rs rk v → t.cause = 5 → t = failed s 5) ∧
    (∀ rr rs rk v, i = .sign rr rs rk v → t.cause ≠ 5 →
      (t.cause = 2 ∨ t.cause = 3 ∨ t.cause = 8) ∧ 1 ≤ t.att.toNat ∧
      t.rng = { queued := s.rng.queued.drop t.att.toNat, index := s.rng.index + t.att.toNat } ∧
      ∃ u : State, exec (.hred rr v) s = .next u ∧
        t = failed { u with scalars := s.scalars, att := t.att, rng := t.rng } t.cause.toNat)

/-- No command writes `MB`, `MLEN` or the host's side of the port, each leaves every register it does not have as a
destination unchanged, and every command but KEYGEN and SIGN leaves the random port (R26, R27, R34, R41, R290). The
host's side of the port is the model's own (log entry 1), and how State holds the draws is the model's choice (log
entry 2). -/
def Obligations.CommandsWriteOnlyTheirDestinations : Prop :=
  ∀ (i : Instr) (s t : State), exec i s = .next t →
    t.mb = s.mb ∧ t.mlen = s.mlen ∧ t.port = s.port ∧
    (∀ r : SReg, r ∉ scalarDests i → t.scalars[r] = s.scalars[r]) ∧
    (∀ p : PReg, p ∉ pointDests i → t.points[p] = s.points[p]) ∧
    (writesHa i = false → t.ha = s.ha) ∧
    (writesHb i = false → t.hb = s.hb) ∧
    (writesHbl i = false → t.hbl = s.hbl) ∧
    (writesDigest i = false → t.dg = s.dg ∧ t.dlen = s.dlen) ∧
    (i.mnemonic ≠ "SIGN" → t.att = s.att) ∧
    (i.mnemonic ≠ "KEYGEN" → i.mnemonic ≠ "SIGN" → t.rng = s.rng)

/-- KEYGEN makes exactly one draw, SIGN exactly one for each attempt it made and none when its bounds check fails,
every other command none; draws are answered in order (R290). How State holds the draws is the model's choice
(log entry 2). -/
def Obligations.DrawsPerCommand : Prop :=
  ∀ (i : Instr) (s t : State), exec i s = .next t →
    (i.mnemonic = "KEYGEN" → t.rng = { queued := s.rng.queued.drop 1, index := s.rng.index + 1 }) ∧
    (i.mnemonic = "SIGN" → s.mlen.toNat ≤ Config.core.mbsize →
      1 ≤ t.att.toNat ∧ t.att.toNat ≤ 100 ∧
      t.rng = { queued := s.rng.queued.drop t.att.toNat, index := s.rng.index + t.att.toNat }) ∧
    (i.mnemonic = "SIGN" → Config.core.mbsize < s.mlen.toNat → t.rng = s.rng ∧ t.att = s.att) ∧
    (i.mnemonic ≠ "KEYGEN" → i.mnemonic ≠ "SIGN" → t.rng = s.rng)

/-! ### System commands -/

/-- NOP is the word 0 and only reports a normal completion (R280). -/
def Obligations.NopOnlyReports : Prop :=
  decode 0x00000000 = .command .nop ∧ ∀ s : State, exec .nop s = .next (completed s)

/-- CLRE clears `ESTICKY` and nothing else but the report; it is the only way besides reset: a step clears a bit of
`ESTICKY` only when the host operation it takes is a reset or the issue of CLRE (R281). The host operation stands
first among the pending ones (the model's own field, log entry 1). -/
def Obligations.ClreAloneClearsSticky : Prop :=
  decode 0x01000000 = .command .clre ∧
  (∀ s : State, exec .clre s = .next (completed { s with esticky := 0 })) ∧
  (∀ (s t : State) (b : Nat), step s = .next t → s.esticky.getLsbD b = true → t.esticky.getLsbD b = false →
    ∃ rest, s.port.pending = .reset :: rest ∨ ∃ v : W64, s.port.pending = .writeReg 0 v :: rest ∧
      v.setWidth 32 = 0x01000000#32)

/-! ### Modular arithmetic unit -/

/-- `mod` at every sign combination and at zero (R107). -/
def Obligations.ModAtEverySign : Prop :=
  ∀ (v : Int) (m : Nat), 1 ≤ m →
    mod v m < m ∧
    (v = 0 → mod v m = 0) ∧
    (0 < v → v < m → (mod v m : Int) = v) ∧
    (v = m → mod v m = 0) ∧
    ((m : Int) < v → (mod v m : Int) = v - m * (v / m)) ∧
    (-(m : Int) < v → v < 0 → (mod v m : Int) = v + m) ∧
    (v = -(m : Int) → mod v m = 0) ∧
    (v < -(m : Int) → (mod v m : Int) = v + m * ((-v + (m - 1)) / m)) ∧
    (m = 1 → mod v m = 0)

/-- MODRED with a non-zero modulus completes: `s[rd]` is the residue in `[0, m)` of the signed operand, and nothing
else changes but the report (R100, R101). -/
def Obligations.ModredWritesTheResidue : Prop :=
  ∀ (s : State) (rd rv rm : SReg), s.scalars[rm].toNat ≠ 0 →
    ∃ r : Nat, r < s.scalars[rm].toNat ∧ (s.scalars[rm].toNat : Int) ∣ s.scalars[rv].toInt - r ∧
      exec (.modred rd rv rm) s = .next (completed (withScalar s rd r))

/-- MODMUL with a non-zero modulus completes: `s[rd]` is the residue in `[0, m)` of the exact signed product, and
nothing else changes but the report (R102, R103). -/
def Obligations.ModmulWritesTheResidueOfTheExactProduct : Prop :=
  ∀ (s : State) (rd rx ry rm : SReg), s.scalars[rm].toNat ≠ 0 →
    ∃ r : Nat, r < s.scalars[rm].toNat ∧
      (s.scalars[rm].toNat : Int) ∣ s.scalars[rx].toInt * s.scalars[ry].toInt - r ∧
      exec (.modmul rd rx ry rm) s = .next (completed (withScalar s rd r))

/-- MODINV with a non-zero modulus prime to the signed operand completes: `s[rd]` is the inverse in `[0, m)`, and
nothing else changes but the report (R104, R105). -/
def Obligations.ModinvWritesTheInverse : Prop :=
  ∀ (s : State) (rd rv rm : SReg), s.scalars[rm].toNat ≠ 0 →
    Int.gcd s.scalars[rv].toInt s.scalars[rm].toNat = 1 →
    ∃ x : Nat, x < s.scalars[rm].toNat ∧ (s.scalars[rm].toNat : Int) ∣ s.scalars[rv].toInt * x - 1 ∧
      exec (.modinv rd rv rm) s = .next (completed (withScalar s rd x))

/-- A modulus of 0 raises `E_MODZERO` (6) in all three commands; MODINV with a non-zero modulus not prime to the
operand raises `E_DOMAIN` (2); nothing else changes (R101, R103, R105). -/
def Obligations.ModularArithmeticErrors : Prop :=
  ∀ (s : State) (rd rx ry rm : SReg),
    (s.scalars[rm] = 0 → exec (.modred rd rx rm) s = .next (failed s 6) ∧
      exec (.modmul rd rx ry rm) s = .next (failed s 6) ∧ exec (.modinv rd rx rm) s = .next (failed s 6)) ∧
    (s.scalars[rm] ≠ 0 → Int.gcd s.scalars[rx].toInt s.scalars[rm].toNat ≠ 1 →
      exec (.modinv rd rx rm) s = .next (failed s 2))

/-! ### Digest A unit -/

/-- DA.INIT loads `A_IV` into `ha` and changes nothing else but the report (R125). -/
def Obligations.DaInitLoadsTheInitialState : Prop :=
  ∀ s : State, exec .daInit s = .next (completed { s with ha := Config.core.digestA.iv })

/-- DA.CMP with its block inside `MB` completes: the 16 big-endian words of the 64 bytes at the offset are
expanded by `A_SCHED`, 32 rounds of `A_ROUND` run on a copy of `ha`, and the working variables are added back
position by position modulo 2^32; nothing else changes but the report (R122, R123, R126). -/
def Obligations.DaCmpCompressesOneBlock : Prop :=
  ∀ (s : State) (roff : SReg), s.scalars[roff].toNat + 64 ≤ Config.core.mbsize →
    let byte := fun k : Nat => (s.mb.read (s.scalars[roff].toNat + k)).toNat
    let words : Vector W32 16 := Vector.ofFn fun j : Fin 16 => BitVec.ofNat 32
      (byte (4 * j) * 2 ^ 24 + byte (4 * j + 1) * 2 ^ 16 + byte (4 * j + 2) * 2 ^ 8 + byte (4 * j + 3))
    let sched := Config.core.digestA.sched words
    let work := (List.finRange 32).foldl (fun v t => Config.core.digestA.round t sched[t] v) s.ha
    exec (.daCmp roff) s = .next (completed { s with ha := Vector.ofFn fun i : Fin 4 => s.ha[i] + work[i] })

/-- DA.OUT completes: the 16 bytes of `ha`, most significant byte of each word first, then 48 zero bytes stand in
`DG`, `DLEN` is 16, and nothing else changes but the report (R127; R28, R29). -/
def Obligations.DaOutWritesBigEndianDigest : Prop :=
  ∀ s : State, s.dg.wf = true →
    ∃ dg' : Memory, exec .daOut s = .next (completed { s with dg := dg', dlen := 16 }) ∧
      (∀ i k : Fin 4, dg'.read (4 * i + k) = s.ha[i].extractLsb' (8 * (3 - k)) 8) ∧
      (∀ j, 16 ≤ j → j < 64 → dg'.read j = 0) ∧ (∀ j, 64 ≤ j → dg'.read j = s.dg.read j)

/-- The padded message of digest A, byte by byte (R121). -/
def Obligations.PaddingOfDigestA : Prop :=
  ∀ m : List Byte, m.length < 2 ^ 29 →
    let pad := if 64 - (m.length + 9) % 64 = 64 then 0 else 64 - (m.length + 9) % 64
    pad ≤ 63 ∧ (padA m).length = m.length + 1 + pad + 8 ∧ 64 ∣ (padA m).length ∧ 64 ≤ (padA m).length ∧
      (∀ i, i < m.length → (padA m)[i]? = m[i]?) ∧
      (padA m)[m.length]? = some 0x80 ∧
      (∀ i, i < pad → (padA m)[m.length + 1 + i]? = some 0) ∧
      (∀ i, i < 8 → (padA m)[m.length + 1 + pad + i]? = some (BitVec.ofNat 8 (8 * m.length / 2 ^ (8 * (7 - i)))))

/-- DA.HASH with the message inside `MB` completes: the blocks of the padded message are compressed in order from
`A_IV`, `ha` holds the last state, `DG` its 16 bytes big-endian and then zeros, `DLEN` is 16; nothing else changes
but the report (R124, R128). -/
def Obligations.DaHashChainsTheBlocks : Prop :=
  ∀ s : State, s.mlen.toNat ≤ Config.core.mbsize → s.dg.wf = true →
    let p := padA ((List.range s.mlen.toNat).map fun i => s.mb.read i)
    ∃ (h : Nat → Vector W32 4) (dg' : Memory),
      h 0 = Config.core.digestA.iv ∧
      (∀ b, b < p.length / 64 → h (b + 1) = aCompress Config.core.digestA (h b) (slice p (64 * b) 64)) ∧
      exec .daHash s = .next (completed { s with ha := h (p.length / 64), dg := dg', dlen := 16 }) ∧
      (∀ i k : Fin 4, dg'.read (4 * i + k) = (h (p.length / 64))[i].extractLsb' (8 * (3 - k)) 8) ∧
      (∀ j, 16 ≤ j → j < 64 → dg'.read j = 0) ∧ (∀ j, 64 ≤ j → dg'.read j = s.dg.read j)

/-- For a message whose padded form is one block and stands in `MB` at the offset, DA.INIT, DA.CMP, DA.OUT leave
exactly the state DA.HASH leaves (R124, R125 to R128). -/
def Obligations.DigestABlockByBlockIsDigestA : Prop :=
  ∀ (s : State) (roff : SReg), s.mlen.toNat ≤ 55 → s.scalars[roff].toNat + 64 ≤ Config.core.mbsize →
    s.mb.readBytes s.scalars[roff].toNat 64 = padA (s.mb.readBytes 0 s.mlen.toNat) →
      ∃ t : State, execAll [.daInit, .daCmp roff, .daOut] s = .next t ∧ exec .daHash s = .next t

/-! ### Digest B unit -/

/-- DB.INIT with `1 ≤ L ≤ 64` loads `B_IV`, its word 0 XORed with `B_PARAM(L)`, sets `HBL` to `L`, and changes
nothing else but the report (R151, R165). -/
def Obligations.DbInitLoadsTheInitialState : Prop :=
  ∀ (s : State) (len : BitVec 8), 1 ≤ len.toNat → len.toNat ≤ 64 →
    exec (.dbInit len) s = .next (completed { s with
      hb := Vector.ofFn fun i : Fin 8 =>
        if i = 0 then Config.core.digestB.iv[i] ^^^ Config.core.digestB.param len.toNat else Config.core.digestB.iv[i]
      hbl := BitVec.ofNat 7 len.toNat })

/-- The mixing function on four different working words: the four add, xor and rotate steps with the amounts 32,
24, 16, 63, all modulo 2^64; every other word is unchanged (R160). Which word is
added to which, where `x` and `y` enter, and that the xor precedes the rotation, R160 takes from general knowledge, not
from its source: PRESUMED, log entry 6. -/
def Obligations.MixingFunctionG : Prop :=
  ∀ (v : Vector W64 16) (a b c d : Fin 16) (x y : W64),
    a ≠ b → a ≠ c → a ≠ d → b ≠ c → b ≠ d → c ≠ d →
    let a1 := v[a] + v[b] + x
    let d1 := (v[d] ^^^ a1).rotateRight 32
    let c1 := v[c] + d1
    let b1 := (v[b] ^^^ c1).rotateRight 24
    let a2 := a1 + b1 + y
    let d2 := (d1 ^^^ a2).rotateRight 16
    let c2 := c1 + d2
    let b2 := (b1 ^^^ c2).rotateRight 63
    (bMix v a b c d x y)[a] = a2 ∧ (bMix v a b c d x y)[b] = b2 ∧ (bMix v a b c d x y)[c] = c2 ∧
      (bMix v a b c d x y)[d] = d2 ∧
      ∀ e : Fin 16, e ≠ a → e ≠ b → e ≠ c → e ≠ d → (bMix v a b c d x y)[e] = v[e]

/-- DB.CMP with its block inside `MB` completes: 12 rounds on the working vector made of `hb`, `B_CV`, the counter
in word 12 and the inversion of word 14 on the last block, with the 16 little-endian words of the 128 bytes at the
offset; a round is eight applications of G, four on columns and four on diagonals, application `i` taking the message
words that columns `2i` and `2i+1` of the table's row name, row `r mod 10` in round `r`; each state word is XORed with
both halves; nothing else changes but the report (R156 to R163, R166). The word groups, the pairing of table columns
with applications and the inside of G are R161's and R160's passages from general knowledge, not from the source:
PRESUMED, log entry 6. -/
def Obligations.DbCmpCompressesOneBlock : Prop :=
  ∀ (s : State) (roff rt : SReg) (last : Bool), s.scalars[roff].toNat + 128 ≤ Config.core.mbsize →
    let byte := fun k : Nat => (s.mb.read (s.scalars[roff].toNat + k)).toNat
    let words : Vector W64 16 := Vector.ofFn fun j : Fin 16 => BitVec.ofNat 64
      ((List.range 8).map fun k => byte (8 * j + k) * 2 ^ (8 * k)).sum
    let start : Vector W64 16 := Vector.ofFn fun i : Fin 16 =>
      if i < 8 then s.hb[Fin.ofNat 8 i.val]
      else if i = 12 then Config.core.digestB.cv[(4 : Fin 8)] ^^^ s.scalars[rt]
      else if i = 14 ∧ last = true then ~~~ Config.core.digestB.cv[(6 : Fin 8)]
      else Config.core.digestB.cv[Fin.ofNat 8 (i.val - 8)]
    let groups : List (Fin 16 × Fin 16 × Fin 16 × Fin 16) := [(0, 4, 8, 12), (1, 5, 9, 13), (2, 6, 10, 14),
      (3, 7, 11, 15), (0, 5, 10, 15), (1, 6, 11, 12), (2, 7, 8, 13), (3, 4, 9, 14)]
    let round := fun (v : Vector W64 16) (row : SigmaRow) => groups.zipIdx.foldl (fun v g =>
      bMix v g.1.1 g.1.2.1 g.1.2.2.1 g.1.2.2.2 words[row[Fin.ofNat 16 (2 * g.2)]]
        words[row[Fin.ofNat 16 (2 * g.2 + 1)]]) v
    let work := (List.range 12).foldl (fun v r => round v Config.core.digestB.sigma[Fin.ofNat 10 r]) start
    exec (.dbCmp roff rt last) s = .next (completed { s with
      hb := Vector.ofFn fun i : Fin 8 => s.hb[i] ^^^ work[i.val] ^^^ work[i.val + 8] })

/-- DB.OUT with `HBL` 1 to 64 completes: the first `HBL` bytes of `hb`, least significant byte of each word first,
then zeros stand in `DG`, `DLEN` is `HBL`, and nothing else changes but the report (R167; R28, R29). -/
def Obligations.DbOutWritesLittleEndianDigest : Prop :=
  ∀ s : State, s.dg.wf = true → 1 ≤ s.hbl.toNat → s.hbl.toNat ≤ 64 →
    ∃ dg' : Memory, exec .dbOut s = .next (completed { s with dg := dg', dlen := s.hbl }) ∧
      (∀ i k : Fin 8, 8 * i.val + k.val < s.hbl.toNat → dg'.read (8 * i + k) = s.hb[i].extractLsb' (8 * k) 8) ∧
      (∀ j, s.hbl.toNat ≤ j → j < 64 → dg'.read j = 0) ∧ (∀ j, 64 ≤ j → dg'.read j = s.dg.read j)

/-- DB.HASH with `1 ≤ L ≤ 64` and the message inside `MB` completes: full blocks in order with the counters
`128·(i+1)`, then the final compression as `B_FULLFINAL` says, its counter the message length and its block filled
with zeros; `hb`, `HBL`, `DG` and `DLEN` hold the result; nothing else changes but the report (R164, R168). The
counter values and the zero fill are R164's passage from general knowledge, not from the source: PRESUMED, log entry
6. -/
def Obligations.DbHashChainsTheBlocks : Prop :=
  ∀ (s : State) (len : BitVec 8), 1 ≤ len.toNat → len.toNat ≤ 64 → s.mlen.toNat ≤ Config.core.mbsize →
    s.dg.wf = true →
    let m := (List.range s.mlen.toNat).map fun i => s.mb.read i
    let n := s.mlen.toNat
    let p := Config.core.digestB
    ∃ (h : Nat → Vector W64 8) (out : Vector W64 8) (dg' : Memory),
      h 0 = (Vector.ofFn fun i : Fin 8 => if i = 0 then p.iv[i] ^^^ p.param len.toNat else p.iv[i]) ∧
      (∀ b, 128 * (b + 1) ≤ n → h (b + 1) = bCompress p (h b) (slice m (128 * b) 128) (128 * (b + 1)) false) ∧
      (n = 0 → out = bCompress p (h 0) (zeros 128) 0 true) ∧
      (n ≠ 0 → n % 128 = 0 → p.fullFinal = .extraEmptyFinal →
        out = bCompress p (h (n / 128)) (zeros 128) n true) ∧
      (n ≠ 0 → (n % 128 ≠ 0 ∨ p.fullFinal = .lastFullIsFinal) →
        out = bCompress p (h ((n - 1) / 128))
          (m.drop (128 * ((n - 1) / 128)) ++ zeros (128 - (n - 128 * ((n - 1) / 128)))) n true) ∧
      exec (.dbHash len) s = .next (completed { s with
        hb := out, hbl := BitVec.ofNat 7 len.toNat, dg := dg', dlen := BitVec.ofNat 7 len.toNat }) ∧
      (∀ i k : Fin 8, 8 * i.val + k.val < len.toNat → dg'.read (8 * i + k) = out[i].extractLsb' (8 * k) 8) ∧
      (∀ j, len.toNat ≤ j → j < 64 → dg'.read j = 0) ∧ (∀ j, 64 ≤ j → dg'.read j = s.dg.read j)

/-- DB.HASHD with `1 ≤ L ≤ 64` completes: one compression of the `DLEN` bytes that `DG` held before, filled with
zeros, as the last block, whatever `B_FULLFINAL` is; `hb`, `HBL`, `DG`, `DLEN` hold the result; nothing else changes
but the report (R164, R169). The counter equal to `DLEN` and the zero fill are R164's passage from general knowledge,
not from the source: PRESUMED, log entry 6. -/
def Obligations.DbHashdHashesTheDigestBuffer : Prop :=
  ∀ (s : State) (len : BitVec 8), 1 ≤ len.toNat → len.toNat ≤ 64 → s.dlen.toNat ≤ 64 → s.dg.wf = true →
    let p := Config.core.digestB
    let m := (List.range s.dlen.toNat).map fun i => s.dg.read i
    let out := bCompress p (Vector.ofFn fun i : Fin 8 => if i = 0 then p.iv[i] ^^^ p.param len.toNat else p.iv[i])
      (m ++ zeros (128 - s.dlen.toNat)) s.dlen.toNat true
    ∃ dg' : Memory,
      exec (.dbHashd len) s = .next (completed { s with
        hb := out, hbl := BitVec.ofNat 7 len.toNat, dg := dg', dlen := BitVec.ofNat 7 len.toNat }) ∧
      (∀ i k : Fin 8, 8 * i.val + k.val < len.toNat → dg'.read (8 * i + k) = out[i].extractLsb' (8 * k) 8) ∧
      (∀ j, len.toNat ≤ j → j < 64 → dg'.read j = 0) ∧ (∀ j, 64 ≤ j → dg'.read j = s.dg.read j)

/-- For a message of at most 127 bytes that stands in `MB` at the offset followed by zeros up to 128 bytes, with its
length in the counter register, DB.INIT, DB.CMP (last) and DB.OUT leave exactly the state DB.HASH leaves (R164 to
R168). That the block is filled with zeros and the length is the counter is R164's passage from general knowledge,
not from the source: PRESUMED, log entry 6. -/
def Obligations.DigestBBlockByBlockIsDigestB : Prop :=
  ∀ (s : State) (len : BitVec 8) (roff rt : SReg), 1 ≤ len.toNat → len.toNat ≤ 64 →
    s.mlen.toNat ≤ 127 → s.scalars[roff].toNat + 128 ≤ Config.core.mbsize → s.scalars[rt] = s.mlen →
    s.mb.readBytes s.scalars[roff].toNat 128 =
      s.mb.readBytes 0 s.mlen.toNat ++ zeros (128 - s.mlen.toNat) →
      ∃ t : State, execAll [.dbInit len, .dbCmp roff rt true, .dbOut] s = .next t ∧ exec (.dbHash len) s = .next t

/-! ### Errors of the buffers and of the digest length -/

/-- A block or a message that does not fit in `MB` raises `E_BOUNDS` (5), whatever else is wrong but for an illegal
digest length, and nothing else changes (R57, R307). -/
def Obligations.BoundsErrors : Prop :=
  ∀ s : State,
    (∀ roff : SReg, Config.core.mbsize < s.scalars[roff].toNat + 64 → exec (.daCmp roff) s = .next (failed s 5)) ∧
    (∀ (roff rt : SReg) (last : Bool), Config.core.mbsize < s.scalars[roff].toNat + 128 →
      exec (.dbCmp roff rt last) s = .next (failed s 5)) ∧
    (Config.core.mbsize < s.mlen.toNat →
      exec .daHash s = .next (failed s 5) ∧
      (∀ len : BitVec 8, 1 ≤ len.toNat → len.toNat ≤ 64 → exec (.dbHash len) s = .next (failed s 5)) ∧
      (∀ rd v, exec (.hred rd v) s = .next (failed s 5)) ∧
      (∀ rr rs rk v, exec (.sign rr rs rk v) s = .next (failed s 5)) ∧
      (∀ rd rr rs pq v, exec (.verify rd rr rs pq v) s = .next (failed s 5)))

/-- A digest length outside 1 to 64 raises `E_ARG` (4) in DB.INIT, DB.HASH and DB.HASHD before anything else is
looked at; so does DB.OUT with `HBL` 0; nothing else changes (R77, R165, R167 to R169, R307). -/
def Obligations.DigestLengthErrors : Prop :=
  ∀ s : State,
    (∀ len : BitVec 8, len.toNat = 0 ∨ 64 < len.toNat →
      exec (.dbInit len) s = .next (failed s 4) ∧ exec (.dbHash len) s = .next (failed s 4) ∧
      exec (.dbHashd len) s = .next (failed s 4)) ∧
    (s.hbl = 0 → exec .dbOut s = .next (failed s 4))

/-! ### Elliptic-curve unit -/

/-- PINF, PLDG and PSET complete in every state: the register holds infinity with zero coordinates, the base point,
or the pair of the two scalars as given; nothing else changes but the report (R192, R193, R194). -/
def Obligations.PointLoads : Prop :=
  ∀ (s : State) (pd : PReg) (rx ry : SReg),
    exec (.pinf pd) s = .next (completed (withPoint s pd { inf := true, x := 0, y := 0 })) ∧
    exec (.pldg pd) s = .next (completed (withPoint s pd { inf := false, x := 1, y := 5 })) ∧
    exec (.pset pd rx ry) s =
      .next (completed (withPoint s pd { inf := false, x := s.scalars[rx], y := s.scalars[ry] }))

/-- PGETX and PGETY of a finite point complete with the coordinate; of infinity, whatever its coordinates hold,
they raise `E_INFCOORD` (7) and change nothing else; PISINF completes with 1 or 0 (R195, R196, R197). -/
def Obligations.PointReads : Prop :=
  ∀ (s : State) (rd : SReg) (pa : PReg),
    (s.points[pa].inf = false →
      exec (.pgetx rd pa) s = .next (completed (withScalar s rd s.points[pa].x.toNat)) ∧
      exec (.pgety rd pa) s = .next (completed (withScalar s rd s.points[pa].y.toNat))) ∧
    (s.points[pa].inf = true →
      exec (.pgetx rd pa) s = .next (failed s 7) ∧ exec (.pgety rd pa) s = .next (failed s 7)) ∧
    exec (.pisinf rd pa) s = .next (completed (withScalar s rd (if s.points[pa].inf then 1 else 0)))

/-- PADD with a point at infinity gives the other operand as given, not normalized (R200 cases 1 and 2, R201). -/
def Obligations.PaddWithInfinity : Prop :=
  ∀ (s : State) (pd pa pb : PReg),
    (s.points[pa].inf = true → exec (.padd pd pa pb) s = .next (completed (withPoint s pd
      (if s.points[pb].inf then { inf := true, x := 0, y := 0 }
        else { inf := false, x := s.points[pb].x, y := s.points[pb].y })))) ∧
    (s.points[pa].inf = false → s.points[pb].inf = true → exec (.padd pd pa pb) s = .next (completed (withPoint s pd
      { inf := false, x := s.points[pa].x, y := s.points[pa].y })))

/-- PADD of two finite points with equal abscissas modulo 29 gives infinity when the ordinates differ modulo 29 or
are 0 modulo 29 (R200 cases 3 and 4, R201). -/
def Obligations.PaddCancels : Prop :=
  ∀ (s : State) (pd pa pb : PReg), s.points[pa].inf = false → s.points[pb].inf = false →
    s.points[pa].x.toNat % 29 = s.points[pb].x.toNat % 29 →
    (s.points[pa].y.toNat % 29 ≠ s.points[pb].y.toNat % 29 ∨ s.points[pa].y.toNat % 29 = 0) →
      exec (.padd pd pa pb) s = .next (completed (withPoint s pd { inf := true, x := 0, y := 0 }))

/-- PADD of two other finite points completes with the reduced third point of the chord, or of the tangent when the
two are equal modulo 29; nothing else changes but the report (R200 cases 4 and 5, R201). -/
def Obligations.PaddChordAndTangent : Prop :=
  ∀ (s : State) (pd pa pb : PReg), s.points[pa].inf = false → s.points[pb].inf = false →
    let x1 : Int := (s.points[pa].x.toNat % 29 : Nat)
    let y1 : Int := (s.points[pa].y.toNat % 29 : Nat)
    let x2 : Int := (s.points[pb].x.toNat % 29 : Nat)
    let y2 : Int := (s.points[pb].y.toNat % 29 : Nat)
    (x1 ≠ x2 ∨ (y1 = y2 ∧ y1 ≠ 0)) →
      ∃ lam x3 y3 : Nat, x3 < 29 ∧ y3 < 29 ∧
        (x1 ≠ x2 → (29 : Int) ∣ lam * (x2 - x1) - (y2 - y1)) ∧
        (x1 = x2 → (29 : Int) ∣ lam * (2 * y1) - (3 * x1 * x1 + 4)) ∧
        (29 : Int) ∣ lam * lam - x1 - x2 - x3 ∧ (29 : Int) ∣ lam * (x1 - x3) - y1 - y3 ∧
        exec (.padd pd pa pb) s = .next (completed (withPoint s pd
          { inf := false, x := BitVec.ofNat 64 x3, y := BitVec.ofNat 64 y3 }))

/-- PDBL completes: infinity for infinity and for an ordinate that is 0 modulo 29, else the tangent's point; it is
the same function as PADD of the register with itself (R200, R202). -/
def Obligations.PdblDoubles : Prop :=
  ∀ (s : State) (pd pa : PReg),
    exec (.pdbl pd pa) s = exec (.padd pd pa pa) s ∧
    (s.points[pa].inf = true ∨ s.points[pa].y.toNat % 29 = 0 →
      exec (.pdbl pd pa) s = .next (completed (withPoint s pd { inf := true, x := 0, y := 0 }))) ∧
    (s.points[pa].inf = false → s.points[pa].y.toNat % 29 ≠ 0 →
      ∃ lam x3 y3 : Nat, x3 < 29 ∧ y3 < 29 ∧
        (29 : Int) ∣ lam * (2 * s.points[pa].y.toNat) - (3 * s.points[pa].x.toNat * s.points[pa].x.toNat + 4) ∧
        (29 : Int) ∣ lam * lam - 2 * s.points[pa].x.toNat - x3 ∧
        (29 : Int) ∣ lam * (s.points[pa].x.toNat - x3) - s.points[pa].y.toNat - y3 ∧
        exec (.pdbl pd pa) s = .next (completed (withPoint s pd
          { inf := false, x := BitVec.ofNat 64 x3, y := BitVec.ofNat 64 y3 })))

/-- PMUL completes on every point and 64-bit scalar with what the binary method gives, bit by bit, least significant
first, adding before doubling, on points unreduced or off the curve too; on a reduced point of the curve, or infinity,
that is the point added to itself as often as the scalar says (R204, R205). -/
def Obligations.PmulIsRepeatedAddition : Prop :=
  ∀ (s : State) (pd pa : PReg) (rk : SReg),
    exec (.pmul pd rk pa) s =
      .next (completed (withPoint s pd (regOf (binaryMultiple (pointOf s.points[pa]) s.scalars[rk].toNat)))) ∧
    (onCurve (pointOf s.points[pa]) = true →
      exec (.pmul pd rk pa) s =
        .next (completed (withPoint s pd (regOf (repeatedSum (pointOf s.points[pa]) s.scalars[rk].toNat)))))

/-- The pseudo-command PMULG (PLDG, then PMUL) completes for every 64-bit scalar with the multiple of the base point
that the table of `95_test_vectors.md` section 2.4 lists for the scalar modulo 37 (R81, R204, R205). -/
def Obligations.PmulgGivesTheTableOfMultiples : Prop :=
  ∀ (s : State) (pd : PReg) (rk : SReg),
    let table : Vector Point 37 := #v[.inf, .finite 1 5, .finite 4 19, .finite 20 3, .finite 15 27, .finite 6 12,
      .finite 17 19, .finite 24 22, .finite 8 10, .finite 14 23, .finite 13 23, .finite 10 25, .finite 19 13,
      .finite 16 27, .finite 5 22, .finite 3 1, .finite 0 22, .finite 27 2, .finite 2 23, .finite 2 6,
      .finite 27 27, .finite 0 7, .finite 3 28, .finite 5 7, .finite 16 2, .finite 19 16, .finite 10 4,
      .finite 13 6, .finite 14 6, .finite 8 19, .finite 24 7, .finite 17 10, .finite 6 17, .finite 15 2,
      .finite 20 26, .finite 4 10, .finite 1 24]
    execAll (pmulg pd rk) s =
      .next (completed (withPoint s pd (regOf table[Fin.ofNat 37 s.scalars[rk].toNat])))

/-- PADD, PDBL and PMUL never raise `E_DOMAIN`: they complete on every pair of points, reduced or not, on the curve
or not; PMUL by 0 gives infinity, by 1 the point as given, by 2 what PDBL gives, and of infinity infinity (R200
consequence iv, R204, R206). -/
def Obligations.GroupCommandsAlwaysComplete : Prop :=
  ∀ (s : State) (pd pa pb : PReg) (rk : SReg),
    (∃ q : PointReg, exec (.padd pd pa pb) s = .next (completed (withPoint s pd q))) ∧
    (∃ q : PointReg, exec (.pdbl pd pa) s = .next (completed (withPoint s pd q))) ∧
    (∃ q : PointReg, exec (.pmul pd rk pa) s = .next (completed (withPoint s pd q)) ∧
      (s.scalars[rk] = 0 → q = { inf := true, x := 0, y := 0 }) ∧
      (s.points[pa].inf = true → q = { inf := true, x := 0, y := 0 }) ∧
      (s.scalars[rk] = 1 → s.points[pa].inf = false → q = s.points[pa]) ∧
      (s.scalars[rk] = 2 → exec (.pmul pd rk pa) s = exec (.pdbl pd pa) s))

/-- The group commands keep the curve: from reduced points of the curve, or infinity, PADD, PDBL, PMUL and PLDG
write a reduced point of the curve or infinity (R190). -/
def Obligations.GroupCommandsStayOnTheCurve : Prop :=
  ∀ (s t : State) (i : Instr) (pd : PReg),
    (∀ p : PReg, onCurve (pointOf s.points[p]) = true) →
    (i = .pldg pd ∨ (∃ pa pb, i = .padd pd pa pb) ∨ (∃ pa, i = .pdbl pd pa) ∨ (∃ rk pa, i = .pmul pd rk pa)) →
    exec i s = .next t → ∀ p : PReg, onCurve (pointOf t.points[p]) = true

/-- The pseudo-command PMOV copies the value of a point register: a finite point with its coordinates unchanged,
infinity as infinity; nothing else changes but the report (R81). -/
def Obligations.PmovCopiesThePoint : Prop :=
  ∀ (s : State) (pd pa : PReg), pd ≠ pa →
    execAll (pmov pd pa) s = .next (completed (withPoint s pd
      (if s.points[pa].inf then { inf := true, x := 0, y := 0 }
        else { inf := false, x := s.points[pa].x, y := s.points[pa].y })))

/-! ### Hash reducers -/

/-- HRED with variant 0 and the message inside `MB` completes: the first `min(MLEN, 8)` bytes as a big-endian
integer modulo 37, with 0 replaced by 1; nothing else changes but the report (R231, R235). -/
def Obligations.HredNoneReducesTheFirstBytes : Prop :=
  ∀ (s : State) (rd : SReg), s.mlen.toNat ≤ Config.core.mbsize →
    let k := min s.mlen.toNat 8
    let e := ((List.range k).map fun i => (s.mb.read i).toNat * 256 ^ (k - 1 - i)).sum % 37
    exec (.hred rd .noHash) s = .next (completed (withScalar s rd (if e = 0 then 1 else e)))

/-- HRED with variants 1, 2, 3 and the message inside `MB` completes: it leaves the state that DA.HASH, DB.HASH 32,
or DA.HASH then DB.HASHD 32 leave, and `s[rd]` holds the sum of the 16 or 32 digest bytes modulo 37 (R232 to R235). -/
def Obligations.HredPerformsTheDigestCommands : Prop :=
  ∀ (s : State) (rd : SReg), s.mlen.toNat ≤ Config.core.mbsize →
    let sum := fun (t : State) (k : Nat) => ((List.range k).map fun i => (t.dg.read i).toNat).sum % 37
    (∃ t : State, exec .daHash s = .next t ∧ exec (.hred rd .hashA) s = .next (withScalar t rd (sum t 16))) ∧
    (∃ t : State, exec (.dbHash 32) s = .next t ∧ exec (.hred rd .hashB) s = .next (withScalar t rd (sum t 32))) ∧
    (∃ t u : State, exec .daHash s = .next t ∧ exec (.dbHashd 32) t = .next u ∧
      exec (.hred rd .hashAB) s = .next (withScalar u rd (sum u 32)))

/-! ### ECDSA unit -/

/-- KEYGEN with a draw in `[1, 36]` completes with the draw in `s[rd]` and its multiple of the base point, a finite
one, in `p[pq]`; with any other draw it raises `E_RNG` (8); either way one draw is consumed, the first of the given
ones while there are any, and nothing else changes but the report (R255, R290, R304). The given draws are the
model's own field (log entry 2). -/
def Obligations.KeygenMakesAKeyPair : Prop :=
  ∀ (s : State) (rd : SReg) (pq : PReg) (d : W64) (ds : List W64), s.rng.queued = d :: ds →
    let s' : State := { s with rng := { queued := ds, index := s.rng.index + 1 } }
    (1 ≤ d.toNat → d.toNat ≤ 36 →
      (∃ x y : Nat, repeatedSum baseG d.toNat = .finite x y) ∧
      exec (.keygen rd pq) s =
        .next (completed (withPoint (withScalar s' rd d.toNat) pq (regOf (repeatedSum baseG d.toNat))))) ∧
    (d.toNat = 0 ∨ 37 ≤ d.toNat → exec (.keygen rd pq) s = .next (failed s' 8))

/-- SIGN with the message inside `MB` completes at attempt `n + 1` when each of the first `n < 100` draws makes its
attempt retry, by `r = 0` or by `s = 0` (that is, `e + d·r ≡ 0` modulo 37), and the next, `k` in `[1, 36]`, gives
`r ≠ 0` and a non-zero `s` with `k·s ≡ e + d·r` modulo 37: `r`, `s` in their registers, `ATT` and the draws as made,
the reducer's effects kept (R252, R254, R260). The given draws are the model's own field (log entry 2). -/
def Obligations.SignAcceptsAfterRetries : Prop :=
  ∀ (s : State) (rr rs rk : SReg) (v : Variant) (bad rest : List W64) (k : W64) (r y sg : Nat),
    rr ≠ rs → s.mlen.toNat ≤ Config.core.mbsize → bad.length < 100 →
    (∀ b ∈ bad, signRetries (s.reduce Config.core v).1 s.scalars[rk].toNat b = true) →
    s.rng.queued = bad ++ k :: rest → 1 ≤ k.toNat → k.toNat ≤ 36 → repeatedSum baseG k.toNat = .finite r y →
    r ≠ 0 → 1 ≤ sg → sg ≤ 36 →
    k.toNat * sg % 37 = ((s.reduce Config.core v).1 + s.scalars[rk].toNat * r) % 37 →
      exec (.sign rr rs rk v) s = .next (completed { withScalar (withScalar (s.reduce Config.core v).2 rr r) rs sg with
        att := BitVec.ofNat 7 (bad.length + 1)
        rng := { queued := rest, index := s.rng.index + (bad.length + 1) } })

/-- SIGN with the message inside `MB` fails with `E_EXHAUSTED` (3) and `ATT = 100` when each of its first 100 draws
makes its attempt retry, by `r = 0` or by `s = 0`, and with `E_RNG` (8) when a draw outside `[1, 36]` follows fewer
than 100 of them; `s[rr]` and `s[rs]` keep their values, the reducer's effects stay (R252, R254, R260, R304). The given
draws are the model's own field (log entry 2). -/
def Obligations.SignFailsByExhaustionOrBadDraw : Prop :=
  ∀ (s : State) (rr rs rk : SReg) (v : Variant) (bad rest : List W64),
    s.mlen.toNat ≤ Config.core.mbsize →
    (∀ b ∈ bad, signRetries (s.reduce Config.core v).1 s.scalars[rk].toNat b = true) →
    (bad.length = 100 → s.rng.queued = bad ++ rest →
      exec (.sign rr rs rk v) s = .next (failed { (s.reduce Config.core v).2 with
        att := 100, rng := { queued := rest, index := s.rng.index + 100 } } 3)) ∧
    (∀ k : W64, bad.length < 100 → s.rng.queued = bad ++ k :: rest → k.toNat = 0 ∨ 37 ≤ k.toNat →
      exec (.sign rr rs rk v) s = .next (failed { (s.reduce Config.core v).2 with
        att := BitVec.ofNat 7 (bad.length + 1)
        rng := { queued := rest, index := s.rng.index + (bad.length + 1) } } 8))

/-- Whatever the draws, a SIGN that completes leaves a pair in `[1, 36]` that satisfies the signing equation for
some `k` in `[1, 36]` (R252, R267). -/
def Obligations.SignedPairSatisfiesTheEquation : Prop :=
  ∀ (s t : State) (rr rs rk : SReg) (v : Variant), rr ≠ rs →
    exec (.sign rr rs rk v) s = .next t → t.cause = 0 →
      1 ≤ t.scalars[rr].toNat ∧ t.scalars[rr].toNat ≤ 36 ∧ 1 ≤ t.scalars[rs].toNat ∧ t.scalars[rs].toNat ≤ 36 ∧
      ∃ k y : Nat, 1 ≤ k ∧ k ≤ 36 ∧ repeatedSum baseG k = .finite t.scalars[rr].toNat y ∧
        k * t.scalars[rs].toNat % 37 =
          ((s.reduce Config.core v).1 + s.scalars[rk].toNat * t.scalars[rr].toNat) % 37

/-- VERIFY with the message inside `MB` and `r` or `s`, read as unsigned, outside `[1, 36]` completes with 0 and
leaves the hash units alone (R266). -/
def Obligations.VerifyRejectsOutOfRange : Prop :=
  ∀ (s : State) (rd rr rs : SReg) (pq : PReg) (v : Variant), s.mlen.toNat ≤ Config.core.mbsize →
    (s.scalars[rr].toNat = 0 ∨ 37 ≤ s.scalars[rr].toNat ∨ s.scalars[rs].toNat = 0 ∨ 37 ≤ s.scalars[rs].toNat) →
      exec (.verify rd rr rs pq v) s = .next (completed (withScalar s rd 0))

/-- VERIFY with the message inside `MB` and `r` and `s` in `[1, 36]` completes with 1 exactly when the point
`u1·G + u2·Q` is finite with abscissa `r` modulo 37, where `w` inverts `s`, `u1 = e·w`, `u2 = r·w`; the reducer's
effects are kept. `Q` is used as given, unreduced or off the curve too, and `u2·Q` is what the binary method gives; for
`Q` on the curve it is repeated addition (R204, R253, R265). -/
def Obligations.VerifyDecidesTheEquation : Prop :=
  ∀ (s : State) (rd rr rs : SReg) (pq : PReg) (v : Variant) (w : Nat), s.mlen.toNat ≤ Config.core.mbsize →
    1 ≤ s.scalars[rr].toNat → s.scalars[rr].toNat ≤ 36 → 1 ≤ s.scalars[rs].toNat → s.scalars[rs].toNat ≤ 36 →
    w < 37 → s.scalars[rs].toNat * w % 37 = 1 →
    let e := (s.reduce Config.core v).1
    let u1G := repeatedSum baseG (e * w % 37)
    let u2 := s.scalars[rr].toNat * w % 37
    let answer := fun x : Point => completed (withScalar (s.reduce Config.core v).2 rd
      (if abscissaIs s.scalars[rr].toNat x then 1 else 0))
    exec (.verify rd rr rs pq v) s =
      .next (answer (pointSum u1G (binaryMultiple (pointOf s.points[pq]) u2))) ∧
    (onCurve (pointOf s.points[pq]) = true →
      exec (.verify rd rr rs pq v) s =
        .next (answer (pointSum u1G (repeatedSum (pointOf s.points[pq]) u2))))

/-- Round trip: for every key pair, message, variant and every stream of draws, VERIFY of what a completed SIGN
wrote, with the same variant and message, completes with 1 (R254, R267). `DG` is in its canonical form, which the
invariant gives. -/
def Obligations.SignThenVerifyIsValid : Prop :=
  ∀ (s t : State) (rr rs rk rd : SReg) (pq : PReg) (v : Variant), s.dg.wf = true → rr ≠ rs →
    1 ≤ s.scalars[rk].toNat → s.scalars[rk].toNat ≤ 36 →
    pointOf s.points[pq] = repeatedSum baseG s.scalars[rk].toNat →
    exec (.sign rr rs rk v) s = .next t → t.cause = 0 →
      ∃ u : State, exec (.verify rd rr rs pq v) t = .next u ∧ u.cause = 0 ∧ u.scalars[rd] = 1
end

