-- ==== Sys2Proof/Laws/Arith.lean ====
section
/-! SUPPORT. What the modular operations do (`40_modarith.md` R100 to R106): the residue, and the inverse that the
extended Euclidean algorithm finds. -/

namespace Sys2Proof.Machine

theorem mod_toInt (v : Int) (m : Nat) (h : 1 ≤ m) : (mod v m : Int) = v % m :=
  Int.toNat_of_nonneg (Int.emod_nonneg v (by omega))

theorem mod_lt (v : Int) (m : Nat) (h : 1 ≤ m) : mod v m < m := by
  have := mod_toInt v m h
  have := Int.emod_lt_of_pos v (show (0 : Int) < m by omega)
  omega

theorem mod_dvd (v : Int) (m : Nat) (h : 1 ≤ m) : (m : Int) ∣ v - mod v m := by
  rw [mod_toInt v m h]
  exact Int.dvd_self_sub_emod

/-- The residue is the only value in `[0, m)` that differs from `v` by a multiple of `m`. -/
theorem mod_unique (v : Int) (m r : Nat) (hr : r < m) (hd : (m : Int) ∣ v - r) : mod v m = r := by
  have h : 1 ≤ m := by omega
  have e : v % m = (r : Int) % m := (Int.modEq_iff_dvd.mpr hd).symm
  have := mod_toInt v m h
  rw [e, Int.emod_eq_of_lt (by omega) (by omega)] at this
  omega

/-- On a non-negative integer the residue is the remainder. -/
theorem mod_natCast (v m : Nat) : mod (v : Int) m = v % m := by
  unfold mod
  rw [← Int.natCast_mod, Int.toNat_natCast]

/-- The loop keeps the gcd and the congruence, and with enough passes it ends at the gcd (R104). -/
theorem euclid_spec (m : Nat) (v : Int) (fuel r0 r1 : Nat) (t0 t1 : Int) (hf : r1 ≤ fuel)
    (h0 : (m : Int) ∣ t0 * v - r0) (h1 : (m : Int) ∣ t1 * v - r1) :
    (euclid fuel r0 r1 t0 t1).1 = Nat.gcd r0 r1 ∧
      (m : Int) ∣ (euclid fuel r0 r1 t0 t1).2 * v - (euclid fuel r0 r1 t0 t1).1 := by
  induction fuel generalizing r0 r1 t0 t1 with
  | zero =>
    obtain rfl : r1 = 0 := by omega
    exact ⟨(Nat.gcd_zero_right r0).symm, h0⟩
  | succ fuel ih =>
    rw [euclid]
    split_ifs with hz
    · subst hz
      exact ⟨(Nat.gcd_zero_right r0).symm, h0⟩
    · have hlt : r0 % r1 < r1 := Nat.mod_lt _ (by omega)
      have hdvd : (m : Int) ∣ (t0 - (r0 / r1 : Nat) * t1) * v - (r0 % r1 : Nat) := by
        have e : (t0 - (r0 / r1 : Nat) * t1) * v - (r0 % r1 : Nat) =
            (t0 * v - r0) - (r0 / r1 : Nat) * (t1 * v - r1) := by
          have : (r0 : Int) = (r1 : Int) * (r0 / r1 : Nat) + (r0 % r1 : Nat) := by
            exact_mod_cast (Nat.div_add_mod r0 r1).symm
          linear_combination this
        rw [e]
        exact dvd_sub h0 (h1.mul_left _)
      obtain ⟨hg, hd⟩ := ih r1 (r0 % r1) t1 _ (by omega) h1 hdvd
      refine ⟨?_, hd⟩
      rw [hg, Nat.gcd_comm, ← Nat.gcd_rec, Nat.gcd_comm]

theorem gcd_mod (v : Int) (m : Nat) (h : 1 ≤ m) : Nat.gcd m (mod v m) = Int.gcd v m := by
  have e : Int.gcd (mod v m : Int) m = Int.gcd v m := by
    rw [mod_toInt v m h]
    exact Int.gcd_emod v m
  rw [← e, Nat.gcd_comm]
  rfl

/-- `modinv` gives the inverse when there is one, and DomainError otherwise (R104). -/
theorem modinv_spec (v : Int) (m : Nat) (h : 1 ≤ m) :
    (Int.gcd v m = 1 → ∃ x, modinv v m = some x ∧ x < m ∧ (m : Int) ∣ v * x - 1) ∧
      (Int.gcd v m ≠ 1 → modinv v m = none) := by
  obtain ⟨hg, hd⟩ := euclid_spec m v (mod v m) m (mod v m) 0 1 le_rfl (by simp) (by simpa using mod_dvd v m h)
  rw [gcd_mod v m h] at hg
  constructor
  · intro h1
    refine ⟨_, by rw [modinv, if_pos (hg.trans h1)], mod_lt _ m h, ?_⟩
    rw [hg, h1] at hd
    have h2 := (mod_dvd (euclid (mod v m) m (mod v m) 0 1).2 m h).mul_left v
    have e : v * (mod (euclid (mod v m) m (mod v m) 0 1).2 m : Int) - 1 =
        ((euclid (mod v m) m (mod v m) 0 1).2 * v - (1 : Nat)) -
          v * ((euclid (mod v m) m (mod v m) 0 1).2 - mod (euclid (mod v m) m (mod v m) 0 1).2 m) := by
      push_cast
      ring
    rw [e]
    exact dvd_sub hd h2
  · intro h1
    rw [modinv, if_neg (hg ▸ h1)]

end Sys2Proof.Machine
end

