-- ==== Sys2Proof/Laws/Config.lean ====
section
/-! SUPPORT. The configuration of the machine is one that `00_scope.md` R8 allows, whatever the open values are. -/

namespace Sys2Proof.Config

theorem permRow_nodup (r : SigmaRow) : (permRow r).toList.Nodup := by
  unfold permRow
  split_ifs with h
  · exact h
  · decide

/-- Every value R8 allows for `MBSIZE` is taken, and only those. -/
theorem core_mbsize_ge : 128 ≤ core.mbsize := by
  show 128 ≤ 128 * (1 + mbBlocks % (2 ^ 22 - 1))
  omega

theorem core_legal : Legal core where
  lower := le_trans (by decide) core_mbsize_ge
  upper := by
    show 128 * (1 + mbBlocks % (2 ^ 22 - 1)) < 2 ^ 29
    omega
  multiple := by
    show 128 * (1 + mbBlocks % (2 ^ 22 - 1)) % 128 = 0
    omega
  perm i := by
    show (Vector.ofFn fun i : Fin 10 => permRow (bSigmaRaw i.val))[i].toList.Nodup
    simpa using permRow_nodup _

end Sys2Proof.Config
end

