-- ==== Sys2Proof/Laws/Curve.lean ====
section
/-! SUPPORT. What the point adder and the multiplier do on the curve of CORE (`43_ec_group.md` R200, R204): they
always answer, because a non-zero residue modulo 29 has an inverse, and the multiplier is the binary method. -/

namespace Sys2Proof.Machine

/-- A non-zero residue modulo 29 has an inverse (R200 consequence iv). -/
theorem modinv_q_isSome (v : Int) (h : ¬ (29 : Int) ∣ v) : (modinv v Config.curveDs1.q).isSome = true := by
  have hg : Int.gcd v (29 : Nat) = 1 := by
    have hp : Nat.Coprime 29 v.natAbs :=
      (Nat.Prime.coprime_iff_not_dvd (by norm_num)).mpr fun hd => h (by simpa using Int.natCast_dvd.mpr hd)
    have hc := hp.symm
    simpa [Int.gcd, Nat.Coprime] using hc
  obtain ⟨x, hx, -⟩ := (modinv_spec v 29 (by norm_num)).1 hg
  show (modinv v 29).isSome = true
  rw [hx]
  rfl

/-- `pointAdd` answers on every pair of points (R200). -/
theorem pointAdd_isSome (p q : Point) : (pointAdd Config.curveDs1 p q).isSome = true := by
  match p, q with
  | .inf, _ => rfl
  | .finite _ _, .inf => rfl
  | .finite x1 y1, .finite x2 y2 =>
    have lt : ∀ v : Nat, mod v Config.curveDs1.q < 29 := fun v => mod_lt v 29 (by norm_num)
    have h1 := lt x1; have h2 := lt y1; have h3 := lt x2; have h4 := lt y2
    show (addReduced _ _ _ _ _).isSome = true
    generalize mod (x1 : Int) Config.curveDs1.q = a at *
    generalize mod (y1 : Int) Config.curveDs1.q = b at *
    generalize mod (x2 : Int) Config.curveDs1.q = c at *
    generalize mod (y2 : Int) Config.curveDs1.q = d at *
    unfold addReduced
    split_ifs
    · rfl
    · rw [Option.isSome_map]
      exact modinv_q_isSome _ (by omega)
    · rfl
    · rw [Option.isSome_map]
      exact modinv_q_isSome _ (by omega)

/-- The loop of the multiplier answers on every point (R204). -/
theorem mulLoop_isSome (fuel k : Nat) (r a : Point) : (mulLoop Config.curveDs1 fuel k r a).isSome = true := by
  induction fuel generalizing k r a with
  | zero => rfl
  | succ fuel ih =>
    rw [mulLoop]
    split_ifs
    · rfl
    · obtain ⟨r', hr⟩ := Option.isSome_iff_exists.mp (pointAdd_isSome r a)
      obtain ⟨a', ha⟩ := Option.isSome_iff_exists.mp (pointAdd_isSome a a)
      rw [hr, ha]
      exact ih _ _ _
    · obtain ⟨a', ha⟩ := Option.isSome_iff_exists.mp (pointAdd_isSome a a)
      rw [ha]
      exact ih _ _ _

/-- `pointMultiply` answers for every scalar and point (R204). -/
theorem pointMultiply_isSome (k : Nat) (p : Point) : (pointMultiply Config.curveDs1 k p).isSome = true :=
  mulLoop_isSome k k .inf p

/-- `pointAdd` gives the sum of any two points (R200). -/
theorem pointAdd_eq_pointSum (p q : Point) : pointAdd Config.curveDs1 p q = some (pointSum p q) := by
  obtain ⟨r, hr⟩ := Option.isSome_iff_exists.mp (pointAdd_isSome p q)
  simp [pointSum, hr]

/-! ### The binary method (R204) -/

@[simp] theorem binaryMethod_zero (k : Nat) (p : Point) : binaryMethod k p 0 = (.inf, p) := rfl

theorem binaryMethod_succ (k : Nat) (p : Point) (j : Nat) :
    binaryMethod k p (j + 1) =
      (if k.testBit j then pointSum (binaryMethod k p j).1 (binaryMethod k p j).2 else (binaryMethod k p j).1,
        pointSum (binaryMethod k p j).2 (binaryMethod k p j).2) := rfl

/-- Past the highest set bit the running result stays. -/
theorem binaryMethod_stable (k : Nat) (p : Point) (j n : Nat) (h : k / 2 ^ j = 0) :
    (binaryMethod k p (j + n)).1 = (binaryMethod k p j).1 := by
  induction n with
  | zero => rfl
  | succ n ih =>
    have hk : k < 2 ^ j := (Nat.div_eq_zero_iff_lt (by positivity)).mp h
    have hb : k.testBit (j + n) = false :=
      Nat.testBit_lt_two_pow (hk.trans_le (Nat.pow_le_pow_right (by norm_num) (by omega)))
    rw [← Nat.add_assoc, binaryMethod_succ, hb]
    exact ih

/-- From bit `j` on, the loop goes on as the binary method does. -/
theorem mulLoop_eq_binaryMultiple (k : Nat) (p : Point) (hk : k < 2 ^ 64) (n j fuel : Nat) (hj : j + n = 64)
    (hf : k / 2 ^ j ≤ fuel) :
    mulLoop Config.curveDs1 fuel (k / 2 ^ j) (binaryMethod k p j).1 (binaryMethod k p j).2 =
      some (binaryMultiple p k) := by
  have ended : ∀ fuel r a, mulLoop Config.curveDs1 fuel 0 r a = some r := fun fuel r a => by
    cases fuel with
    | zero => rfl
    | succ f => rw [mulLoop, if_pos rfl]
  induction n generalizing j fuel with
  | zero =>
    obtain rfl : j = 64 := by omega
    rw [Nat.div_eq_of_lt hk, ended]
    rfl
  | succ n ih =>
    by_cases h0 : k / 2 ^ j = 0
    · have hs := binaryMethod_stable k p j (n + 1) h0
      rw [hj] at hs
      rw [h0, ended, binaryMultiple, hs]
    · have hpos : 0 < k / 2 ^ j := Nat.pos_of_ne_zero h0
      obtain ⟨f, rfl⟩ : ∃ f, fuel = f + 1 := ⟨fuel - 1, (Nat.sub_add_cancel (hpos.trans_le hf)).symm⟩
      have hd : k / 2 ^ j / 2 = k / 2 ^ (j + 1) := by rw [Nat.div_div_eq_div_mul, pow_succ]
      have hi := ih (j + 1) f (by omega)
        (by rw [← hd]; exact Nat.le_of_lt_succ ((Nat.div_lt_self hpos (by norm_num)).trans_le hf))
      have hb : k.testBit j = decide (k / 2 ^ j % 2 = 1) := Nat.testBit_eq_decide_div_mod_eq
      rw [binaryMethod_succ, hb] at hi
      rw [mulLoop, if_neg h0, hd]
      by_cases hbit : k / 2 ^ j % 2 = 1
      · rw [if_pos hbit, pointAdd_eq_pointSum, pointAdd_eq_pointSum]
        simpa only [hbit, decide_true, if_true] using hi
      · rw [if_neg hbit, pointAdd_eq_pointSum]
        simpa only [hbit, decide_false, Bool.false_eq_true, if_false] using hi

/-- `pointMultiply` by a scalar of at most 64 bits is the binary method, on any point (R204). -/
theorem pointMultiply_eq_binaryMultiple (k : Nat) (p : Point) (hk : k < 2 ^ 64) :
    pointMultiply Config.curveDs1 k p = some (binaryMultiple p k) := by
  have h := mulLoop_eq_binaryMultiple k p hk 64 0 k rfl (by simp)
  rw [Nat.pow_zero, Nat.div_one] at h
  exact h

/-- A command that writes one point completes when the unit answers (R201). -/
theorem pointEnd_of_isSome (pd : PReg) (s : State) (o : Option Point) (h : o.isSome = true) :
    ∃ p, o = some p ∧ pointEnd pd s o = .completes (s.setPoint pd p) := by
  obtain ⟨p, rfl⟩ := Option.isSome_iff_exists.mp h
  exact ⟨p, rfl, rfl⟩

end Sys2Proof.Machine
end

