-- ==== Sys2Proof/Laws/Memory.lean ====
section
/-! SUPPORT. The laws of the buffers (`20_memory.md` R52): a read after a write, and that every memory operation
keeps the canonical form and the size of the space. -/

namespace Sys2Proof.Machine

@[simp] theorem Memory.read_nil (a : Nat) : Memory.read [] a = 0 := rfl

@[simp] theorem Memory.wf_nil : Memory.wf [] = true := rfl

@[simp] theorem Memory.below_nil (n : Nat) : Memory.below [] n = true := rfl

theorem Memory.wf_cons (k : Nat) (v : Byte) (m : Memory) :
    Memory.wf ((k, v) :: m) = true ↔ v ≠ 0 ∧ (∀ c ∈ m, k < c.1) ∧ Memory.wf m = true := by
  simp [Memory.wf, unlistedByte, and_assoc]

/-- An address that no entry has reads as the unlisted byte. -/
theorem Memory.read_of_forall_ne (m : Memory) (a : Nat) (h : ∀ c ∈ m, c.1 ≠ a) : m.read a = 0 := by
  induction m with
  | nil => rfl
  | cons c m ih =>
    obtain ⟨k, v⟩ := c
    have hk : k ≠ a := h (k, v) (by simp)
    simp only [Memory.read, if_neg hk]
    exact ih fun c hc => h c (by simp [hc])

theorem Memory.read_of_forall_lt (m : Memory) (a : Nat) (h : ∀ c ∈ m, a < c.1) : m.read a = 0 :=
  Memory.read_of_forall_ne m a fun c hc => (h c hc).ne'

theorem Memory.read_of_below (m : Memory) (n a : Nat) (h : m.below n = true) (ha : n ≤ a) : m.read a = 0 := by
  refine Memory.read_of_forall_ne m a fun c hc => ?_
  have : c.1 < n := by simpa using List.all_eq_true.mp h c hc
  omega

/-- The entries a write can leave. -/
theorem Memory.mem_write (m : Memory) (a : Nat) (b : Byte) (c : Host.Cell) (h : c ∈ m.write a b) :
    c ∈ m ∨ c = (a, b) := by
  induction m with
  | nil => by_cases hb : b = unlistedByte <;> simp_all [Memory.write]
  | cons e m ih =>
    obtain ⟨k, v⟩ := e
    simp only [Memory.write] at h
    split_ifs at h <;> simp_all <;> tauto

/-- A write keeps the canonical form. -/
theorem Memory.write_wf (m : Memory) (a : Nat) (b : Byte) (h : m.wf = true) : (m.write a b).wf = true := by
  induction m with
  | nil =>
    rw [Memory.write]
    split_ifs with hb
    · rfl
    · exact (Memory.wf_cons a b []).mpr ⟨hb, by simp, rfl⟩
  | cons e m ih =>
    obtain ⟨k, v⟩ := e
    obtain ⟨hv, hk, hm⟩ := (Memory.wf_cons k v m).mp h
    simp only [Memory.write]
    split_ifs with h1 h2 h3 h4
    · exact h
    · refine (Memory.wf_cons _ _ _).mpr ⟨h2, ?_, h⟩
      rintro c (_ | ⟨_, hc⟩)
      · exact h1
      · exact h1.trans (hk c hc)
    · exact hm
    · subst h3
      exact (Memory.wf_cons _ _ _).mpr ⟨h4, hk, hm⟩
    · refine (Memory.wf_cons _ _ _).mpr ⟨hv, fun c hc => ?_, ih hm⟩
      rcases Memory.mem_write m a b c hc with h' | rfl
      · exact hk c h'
      · show k < a
        omega

/-- A write inside the space keeps the memory inside it. -/
theorem Memory.write_below (m : Memory) (n a : Nat) (b : Byte) (h : m.below n = true) (ha : a < n) :
    (m.write a b).below n = true := by
  refine List.all_eq_true.mpr fun c hc => ?_
  rcases Memory.mem_write m a b c hc with h' | rfl
  · exact List.all_eq_true.mp h c h'
  · simpa using ha

theorem Memory.read_cons (k : Nat) (v : Byte) (m : Memory) (j : Nat) :
    Memory.read ((k, v) :: m) j = if k = j then v else Memory.read m j := rfl

/-- A read after a write gives the byte written, and every other address reads as before. -/
theorem Memory.read_write (m : Memory) (a j : Nat) (b : Byte) (h : m.wf = true) :
    (m.write a b).read j = if j = a then b else m.read j := by
  induction m with
  | nil =>
    by_cases hb : b = unlistedByte
    · subst hb
      show (0 : Byte) = _
      split_ifs <;> rfl
    · rw [Memory.write, if_neg hb, Memory.read_cons]
      by_cases hj : j = a
      · rw [if_pos hj.symm, if_pos hj]
      · rw [if_neg (Ne.symm hj), if_neg hj]
  | cons e m ih =>
    obtain ⟨k, v⟩ := e
    obtain ⟨-, hk, hm⟩ := (Memory.wf_cons k v m).mp h
    have hlt : ∀ i, i ≤ k → Memory.read m i = 0 := fun i hi =>
      Memory.read_of_forall_lt m i fun c hc => hi.trans_lt (hk c hc)
    rw [Memory.write]
    by_cases h1 : a < k
    · rw [if_pos h1]
      by_cases hb : b = unlistedByte
      · rw [if_pos hb]
        by_cases hj : j = a
        · rw [if_pos hj, Memory.read_cons, if_neg (by omega), hlt j (by omega), hb]; rfl
        · rw [if_neg hj]
      · rw [if_neg hb, Memory.read_cons]
        by_cases hj : j = a
        · rw [if_pos hj.symm, if_pos hj]
        · rw [if_neg (Ne.symm hj), if_neg hj]
    · rw [if_neg h1]
      by_cases h2 : a = k
      · subst h2
        rw [if_pos rfl]
        by_cases hb : b = unlistedByte
        · rw [if_pos hb]
          by_cases hj : j = a
          · rw [if_pos hj, hlt j (by omega), hb]; rfl
          · rw [if_neg hj, Memory.read_cons, if_neg (Ne.symm hj)]
        · rw [if_neg hb, Memory.read_cons]
          by_cases hj : j = a
          · rw [if_pos hj.symm, if_pos hj]
          · rw [if_neg (Ne.symm hj), if_neg hj, Memory.read_cons, if_neg (Ne.symm hj)]
      · rw [if_neg h2, Memory.read_cons, ih hm, Memory.read_cons]
        by_cases hj : k = j
        · rw [if_pos hj, if_pos hj, if_neg (by omega)]
        · rw [if_neg hj, if_neg hj]

/-- Equal reads of canonical memories make equal memories. -/
theorem Memory.ext_read (m m' : Memory) (h : m.wf = true) (h' : m'.wf = true) (hr : ∀ a, m.read a = m'.read a) :
    m = m' := by
  induction m generalizing m' with
  | nil =>
    cases m' with
    | nil => rfl
    | cons e m' =>
      obtain ⟨k, v⟩ := e
      have := hr k
      simp only [Memory.read, if_pos] at this
      exact absurd this.symm ((Memory.wf_cons k v m').mp h').1
  | cons e m ih =>
    obtain ⟨k, v⟩ := e
    obtain ⟨hv, hk, hm⟩ := (Memory.wf_cons k v m).mp h
    cases m' with
    | nil =>
      have := hr k
      simp only [Memory.read, if_pos] at this
      exact absurd this hv
    | cons e' m' =>
      obtain ⟨k', v'⟩ := e'
      obtain ⟨hv', hk', hm'⟩ := (Memory.wf_cons k' v' m').mp h'
      have hkk : k = k' := by
        rcases Nat.lt_trichotomy k k' with hlt | rfl | hlt
        · have := hr k
          rw [Memory.read, if_pos rfl, Memory.read, if_neg hlt.ne',
            Memory.read_of_forall_lt m' k fun c hc => hlt.trans (hk' c hc)] at this
          exact absurd this hv
        · rfl
        · have := hr k'
          rw [Memory.read, if_neg hlt.ne', Memory.read_of_forall_lt m k' fun c hc => hlt.trans (hk c hc),
            Memory.read, if_pos rfl] at this
          exact absurd this.symm hv'
      subst hkk
      have hvv : v = v' := by simpa [Memory.read] using hr k
      subst hvv
      rw [ih m' hm hm' fun a => ?_]
      have := hr a
      by_cases hka : k = a
      · subst hka
        rw [Memory.read_of_forall_lt m k hk, Memory.read_of_forall_lt m' k hk']
      · simpa [Memory.read, hka] using this

/-! ### Runs of bytes -/

@[simp] theorem Memory.readBytes_length (m : Memory) (a k : Nat) : (m.readBytes a k).length = k := by
  simp [Memory.readBytes]

theorem Memory.readBytes_getElem (m : Memory) (a k i : Nat) (h : i < (m.readBytes a k).length) :
    (m.readBytes a k)[i] = m.read (a + i) := by
  simp [Memory.readBytes]

theorem Memory.writeBytes_wf (m : Memory) (a : Nat) (bs : List Byte) (h : m.wf = true) :
    (m.writeBytes a bs).wf = true := by
  induction bs generalizing m a with
  | nil => exact h
  | cons b bs ih => exact ih _ _ (Memory.write_wf m a b h)

theorem Memory.writeBytes_below (m : Memory) (n a : Nat) (bs : List Byte) (h : m.below n = true)
    (ha : a + bs.length ≤ n) : (m.writeBytes a bs).below n = true := by
  induction bs generalizing m a with
  | nil => exact h
  | cons b bs ih =>
    simp only [List.length_cons] at ha
    exact ih _ _ (Memory.write_below m n a b h (by omega)) (by omega)

/-- A read after a run of bytes has been written. -/
theorem Memory.read_writeBytes (m : Memory) (a j : Nat) (bs : List Byte) (h : m.wf = true) :
    (m.writeBytes a bs).read j = if a ≤ j ∧ j < a + bs.length then bs.getD (j - a) 0 else m.read j := by
  induction bs generalizing m a with
  | nil => simp [Memory.writeBytes]
  | cons b bs ih =>
    rw [Memory.writeBytes, ih _ _ (Memory.write_wf m a b h), Memory.read_write m a j b h, List.length_cons]
    rcases Nat.lt_trichotomy j a with hj | rfl | hj
    · rw [if_neg (by omega), if_neg (by omega), if_neg (by omega)]
    · simp
    · obtain ⟨d, rfl⟩ : ∃ d, j = a + 1 + d := ⟨j - (a + 1), by omega⟩
      have e1 : a + 1 + d - (a + 1) = d := by omega
      have e2 : a + 1 + d - a = d + 1 := by omega
      rw [e1, e2, List.getD_cons_succ, if_neg (show a + 1 + d ≠ a by omega)]
      by_cases hl : d < bs.length
      · rw [if_pos (by omega), if_pos (by omega)]
      · rw [if_neg (by omega), if_neg (by omega)]

end Sys2Proof.Machine
end

