-- ==== Sys2Proof/Laws/State.lean ====
section
/-! SUPPORT. What each update of the state does to each field: one lemma per field per update, all by `rfl`, so that
no later proof unfolds a record update. -/

namespace Sys2Proof.Machine

/-! ### `State.setScalar` -/

@[simp] theorem State.setScalar_scalars (s : State) (i : SReg) (v : W64) :
    (s.setScalar i v).scalars = s.scalars.set i v := rfl
@[simp] theorem State.setScalar_points (s : State) (i : SReg) (v : W64) : (s.setScalar i v).points = s.points := rfl
@[simp] theorem State.setScalar_ha (s : State) (i : SReg) (v : W64) : (s.setScalar i v).ha = s.ha := rfl
@[simp] theorem State.setScalar_hb (s : State) (i : SReg) (v : W64) : (s.setScalar i v).hb = s.hb := rfl
@[simp] theorem State.setScalar_hbl (s : State) (i : SReg) (v : W64) : (s.setScalar i v).hbl = s.hbl := rfl
@[simp] theorem State.setScalar_mb (s : State) (i : SReg) (v : W64) : (s.setScalar i v).mb = s.mb := rfl
@[simp] theorem State.setScalar_mlen (s : State) (i : SReg) (v : W64) : (s.setScalar i v).mlen = s.mlen := rfl
@[simp] theorem State.setScalar_dg (s : State) (i : SReg) (v : W64) : (s.setScalar i v).dg = s.dg := rfl
@[simp] theorem State.setScalar_dlen (s : State) (i : SReg) (v : W64) : (s.setScalar i v).dlen = s.dlen := rfl
@[simp] theorem State.setScalar_status (s : State) (i : SReg) (v : W64) : (s.setScalar i v).status = s.status := rfl
@[simp] theorem State.setScalar_cause (s : State) (i : SReg) (v : W64) : (s.setScalar i v).cause = s.cause := rfl
@[simp] theorem State.setScalar_esticky (s : State) (i : SReg) (v : W64) :
    (s.setScalar i v).esticky = s.esticky := rfl
@[simp] theorem State.setScalar_att (s : State) (i : SReg) (v : W64) : (s.setScalar i v).att = s.att := rfl
@[simp] theorem State.setScalar_rng (s : State) (i : SReg) (v : W64) : (s.setScalar i v).rng = s.rng := rfl
@[simp] theorem State.setScalar_port (s : State) (i : SReg) (v : W64) : (s.setScalar i v).port = s.port := rfl

/-! ### `State.setPoint` -/

@[simp] theorem State.setPoint_scalars (s : State) (i : PReg) (p : Point) :
    (s.setPoint i p).scalars = s.scalars := rfl
@[simp] theorem State.setPoint_points (s : State) (i : PReg) (p : Point) :
    (s.setPoint i p).points = s.points.set i (PointReg.ofPoint p) := rfl
@[simp] theorem State.setPoint_ha (s : State) (i : PReg) (p : Point) : (s.setPoint i p).ha = s.ha := rfl
@[simp] theorem State.setPoint_hb (s : State) (i : PReg) (p : Point) : (s.setPoint i p).hb = s.hb := rfl
@[simp] theorem State.setPoint_hbl (s : State) (i : PReg) (p : Point) : (s.setPoint i p).hbl = s.hbl := rfl
@[simp] theorem State.setPoint_mb (s : State) (i : PReg) (p : Point) : (s.setPoint i p).mb = s.mb := rfl
@[simp] theorem State.setPoint_mlen (s : State) (i : PReg) (p : Point) : (s.setPoint i p).mlen = s.mlen := rfl
@[simp] theorem State.setPoint_dg (s : State) (i : PReg) (p : Point) : (s.setPoint i p).dg = s.dg := rfl
@[simp] theorem State.setPoint_dlen (s : State) (i : PReg) (p : Point) : (s.setPoint i p).dlen = s.dlen := rfl
@[simp] theorem State.setPoint_status (s : State) (i : PReg) (p : Point) : (s.setPoint i p).status = s.status := rfl
@[simp] theorem State.setPoint_cause (s : State) (i : PReg) (p : Point) : (s.setPoint i p).cause = s.cause := rfl
@[simp] theorem State.setPoint_esticky (s : State) (i : PReg) (p : Point) :
    (s.setPoint i p).esticky = s.esticky := rfl
@[simp] theorem State.setPoint_att (s : State) (i : PReg) (p : Point) : (s.setPoint i p).att = s.att := rfl
@[simp] theorem State.setPoint_rng (s : State) (i : PReg) (p : Point) : (s.setPoint i p).rng = s.rng := rfl
@[simp] theorem State.setPoint_port (s : State) (i : PReg) (p : Point) : (s.setPoint i p).port = s.port := rfl

/-! ### `State.setPointReg` -/

@[simp] theorem State.setPointReg_scalars (s : State) (i : PReg) (r : PointReg) :
    (s.setPointReg i r).scalars = s.scalars := rfl
@[simp] theorem State.setPointReg_points (s : State) (i : PReg) (r : PointReg) :
    (s.setPointReg i r).points = s.points.set i r := rfl
@[simp] theorem State.setPointReg_ha (s : State) (i : PReg) (r : PointReg) : (s.setPointReg i r).ha = s.ha := rfl
@[simp] theorem State.setPointReg_hb (s : State) (i : PReg) (r : PointReg) : (s.setPointReg i r).hb = s.hb := rfl
@[simp] theorem State.setPointReg_hbl (s : State) (i : PReg) (r : PointReg) : (s.setPointReg i r).hbl = s.hbl := rfl
@[simp] theorem State.setPointReg_mb (s : State) (i : PReg) (r : PointReg) : (s.setPointReg i r).mb = s.mb := rfl
@[simp] theorem State.setPointReg_mlen (s : State) (i : PReg) (r : PointReg) :
    (s.setPointReg i r).mlen = s.mlen := rfl
@[simp] theorem State.setPointReg_dg (s : State) (i : PReg) (r : PointReg) : (s.setPointReg i r).dg = s.dg := rfl
@[simp] theorem State.setPointReg_dlen (s : State) (i : PReg) (r : PointReg) :
    (s.setPointReg i r).dlen = s.dlen := rfl
@[simp] theorem State.setPointReg_status (s : State) (i : PReg) (r : PointReg) :
    (s.setPointReg i r).status = s.status := rfl
@[simp] theorem State.setPointReg_cause (s : State) (i : PReg) (r : PointReg) :
    (s.setPointReg i r).cause = s.cause := rfl
@[simp] theorem State.setPointReg_esticky (s : State) (i : PReg) (r : PointReg) :
    (s.setPointReg i r).esticky = s.esticky := rfl
@[simp] theorem State.setPointReg_att (s : State) (i : PReg) (r : PointReg) : (s.setPointReg i r).att = s.att := rfl
@[simp] theorem State.setPointReg_rng (s : State) (i : PReg) (r : PointReg) : (s.setPointReg i r).rng = s.rng := rfl
@[simp] theorem State.setPointReg_port (s : State) (i : PReg) (r : PointReg) :
    (s.setPointReg i r).port = s.port := rfl

/-! ### `State.setHa` -/

@[simp] theorem State.setHa_scalars (s : State) (h : Vector W32 4) : (s.setHa h).scalars = s.scalars := rfl
@[simp] theorem State.setHa_points (s : State) (h : Vector W32 4) : (s.setHa h).points = s.points := rfl
@[simp] theorem State.setHa_ha (s : State) (h : Vector W32 4) : (s.setHa h).ha = h := rfl
@[simp] theorem State.setHa_hb (s : State) (h : Vector W32 4) : (s.setHa h).hb = s.hb := rfl
@[simp] theorem State.setHa_hbl (s : State) (h : Vector W32 4) : (s.setHa h).hbl = s.hbl := rfl
@[simp] theorem State.setHa_mb (s : State) (h : Vector W32 4) : (s.setHa h).mb = s.mb := rfl
@[simp] theorem State.setHa_mlen (s : State) (h : Vector W32 4) : (s.setHa h).mlen = s.mlen := rfl
@[simp] theorem State.setHa_dg (s : State) (h : Vector W32 4) : (s.setHa h).dg = s.dg := rfl
@[simp] theorem State.setHa_dlen (s : State) (h : Vector W32 4) : (s.setHa h).dlen = s.dlen := rfl
@[simp] theorem State.setHa_status (s : State) (h : Vector W32 4) : (s.setHa h).status = s.status := rfl
@[simp] theorem State.setHa_cause (s : State) (h : Vector W32 4) : (s.setHa h).cause = s.cause := rfl
@[simp] theorem State.setHa_esticky (s : State) (h : Vector W32 4) : (s.setHa h).esticky = s.esticky := rfl
@[simp] theorem State.setHa_att (s : State) (h : Vector W32 4) : (s.setHa h).att = s.att := rfl
@[simp] theorem State.setHa_rng (s : State) (h : Vector W32 4) : (s.setHa h).rng = s.rng := rfl
@[simp] theorem State.setHa_port (s : State) (h : Vector W32 4) : (s.setHa h).port = s.port := rfl

/-! ### `State.setHb` -/

@[simp] theorem State.setHb_scalars (s : State) (h : Vector W64 8) : (s.setHb h).scalars = s.scalars := rfl
@[simp] theorem State.setHb_points (s : State) (h : Vector W64 8) : (s.setHb h).points = s.points := rfl
@[simp] theorem State.setHb_ha (s : State) (h : Vector W64 8) : (s.setHb h).ha = s.ha := rfl
@[simp] theorem State.setHb_hb (s : State) (h : Vector W64 8) : (s.setHb h).hb = h := rfl
@[simp] theorem State.setHb_hbl (s : State) (h : Vector W64 8) : (s.setHb h).hbl = s.hbl := rfl
@[simp] theorem State.setHb_mb (s : State) (h : Vector W64 8) : (s.setHb h).mb = s.mb := rfl
@[simp] theorem State.setHb_mlen (s : State) (h : Vector W64 8) : (s.setHb h).mlen = s.mlen := rfl
@[simp] theorem State.setHb_dg (s : State) (h : Vector W64 8) : (s.setHb h).dg = s.dg := rfl
@[simp] theorem State.setHb_dlen (s : State) (h : Vector W64 8) : (s.setHb h).dlen = s.dlen := rfl
@[simp] theorem State.setHb_status (s : State) (h : Vector W64 8) : (s.setHb h).status = s.status := rfl
@[simp] theorem State.setHb_cause (s : State) (h : Vector W64 8) : (s.setHb h).cause = s.cause := rfl
@[simp] theorem State.setHb_esticky (s : State) (h : Vector W64 8) : (s.setHb h).esticky = s.esticky := rfl
@[simp] theorem State.setHb_att (s : State) (h : Vector W64 8) : (s.setHb h).att = s.att := rfl
@[simp] theorem State.setHb_rng (s : State) (h : Vector W64 8) : (s.setHb h).rng = s.rng := rfl
@[simp] theorem State.setHb_port (s : State) (h : Vector W64 8) : (s.setHb h).port = s.port := rfl

/-! ### `State.setHbl` -/

@[simp] theorem State.setHbl_scalars (s : State) (l : Nat) : (s.setHbl l).scalars = s.scalars := rfl
@[simp] theorem State.setHbl_points (s : State) (l : Nat) : (s.setHbl l).points = s.points := rfl
@[simp] theorem State.setHbl_ha (s : State) (l : Nat) : (s.setHbl l).ha = s.ha := rfl
@[simp] theorem State.setHbl_hb (s : State) (l : Nat) : (s.setHbl l).hb = s.hb := rfl
@[simp] theorem State.setHbl_hbl (s : State) (l : Nat) : (s.setHbl l).hbl = BitVec.ofNat 7 l := rfl
@[simp] theorem State.setHbl_mb (s : State) (l : Nat) : (s.setHbl l).mb = s.mb := rfl
@[simp] theorem State.setHbl_mlen (s : State) (l : Nat) : (s.setHbl l).mlen = s.mlen := rfl
@[simp] theorem State.setHbl_dg (s : State) (l : Nat) : (s.setHbl l).dg = s.dg := rfl
@[simp] theorem State.setHbl_dlen (s : State) (l : Nat) : (s.setHbl l).dlen = s.dlen := rfl
@[simp] theorem State.setHbl_status (s : State) (l : Nat) : (s.setHbl l).status = s.status := rfl
@[simp] theorem State.setHbl_cause (s : State) (l : Nat) : (s.setHbl l).cause = s.cause := rfl
@[simp] theorem State.setHbl_esticky (s : State) (l : Nat) : (s.setHbl l).esticky = s.esticky := rfl
@[simp] theorem State.setHbl_att (s : State) (l : Nat) : (s.setHbl l).att = s.att := rfl
@[simp] theorem State.setHbl_rng (s : State) (l : Nat) : (s.setHbl l).rng = s.rng := rfl
@[simp] theorem State.setHbl_port (s : State) (l : Nat) : (s.setHbl l).port = s.port := rfl

/-! ### `State.setDigest` -/

@[simp] theorem State.setDigest_scalars (s : State) (d : List Byte) : (s.setDigest d).scalars = s.scalars := rfl
@[simp] theorem State.setDigest_points (s : State) (d : List Byte) : (s.setDigest d).points = s.points := rfl
@[simp] theorem State.setDigest_ha (s : State) (d : List Byte) : (s.setDigest d).ha = s.ha := rfl
@[simp] theorem State.setDigest_hb (s : State) (d : List Byte) : (s.setDigest d).hb = s.hb := rfl
@[simp] theorem State.setDigest_hbl (s : State) (d : List Byte) : (s.setDigest d).hbl = s.hbl := rfl
@[simp] theorem State.setDigest_mb (s : State) (d : List Byte) : (s.setDigest d).mb = s.mb := rfl
@[simp] theorem State.setDigest_mlen (s : State) (d : List Byte) : (s.setDigest d).mlen = s.mlen := rfl
@[simp] theorem State.setDigest_dg (s : State) (d : List Byte) :
    (s.setDigest d).dg = s.dg.writeBytes 0 (d ++ zeros (Config.dgSize - d.length)) := rfl
@[simp] theorem State.setDigest_dlen (s : State) (d : List Byte) :
    (s.setDigest d).dlen = BitVec.ofNat 7 d.length := rfl
@[simp] theorem State.setDigest_status (s : State) (d : List Byte) : (s.setDigest d).status = s.status := rfl
@[simp] theorem State.setDigest_cause (s : State) (d : List Byte) : (s.setDigest d).cause = s.cause := rfl
@[simp] theorem State.setDigest_esticky (s : State) (d : List Byte) : (s.setDigest d).esticky = s.esticky := rfl
@[simp] theorem State.setDigest_att (s : State) (d : List Byte) : (s.setDigest d).att = s.att := rfl
@[simp] theorem State.setDigest_rng (s : State) (d : List Byte) : (s.setDigest d).rng = s.rng := rfl
@[simp] theorem State.setDigest_port (s : State) (d : List Byte) : (s.setDigest d).port = s.port := rfl

/-! ### `State.setAtt` -/

@[simp] theorem State.setAtt_scalars (s : State) (a : Nat) : (s.setAtt a).scalars = s.scalars := rfl
@[simp] theorem State.setAtt_points (s : State) (a : Nat) : (s.setAtt a).points = s.points := rfl
@[simp] theorem State.setAtt_ha (s : State) (a : Nat) : (s.setAtt a).ha = s.ha := rfl
@[simp] theorem State.setAtt_hb (s : State) (a : Nat) : (s.setAtt a).hb = s.hb := rfl
@[simp] theorem State.setAtt_hbl (s : State) (a : Nat) : (s.setAtt a).hbl = s.hbl := rfl
@[simp] theorem State.setAtt_mb (s : State) (a : Nat) : (s.setAtt a).mb = s.mb := rfl
@[simp] theorem State.setAtt_mlen (s : State) (a : Nat) : (s.setAtt a).mlen = s.mlen := rfl
@[simp] theorem State.setAtt_dg (s : State) (a : Nat) : (s.setAtt a).dg = s.dg := rfl
@[simp] theorem State.setAtt_dlen (s : State) (a : Nat) : (s.setAtt a).dlen = s.dlen := rfl
@[simp] theorem State.setAtt_status (s : State) (a : Nat) : (s.setAtt a).status = s.status := rfl
@[simp] theorem State.setAtt_cause (s : State) (a : Nat) : (s.setAtt a).cause = s.cause := rfl
@[simp] theorem State.setAtt_esticky (s : State) (a : Nat) : (s.setAtt a).esticky = s.esticky := rfl
@[simp] theorem State.setAtt_att (s : State) (a : Nat) : (s.setAtt a).att = BitVec.ofNat 7 a := rfl
@[simp] theorem State.setAtt_rng (s : State) (a : Nat) : (s.setAtt a).rng = s.rng := rfl
@[simp] theorem State.setAtt_port (s : State) (a : Nat) : (s.setAtt a).port = s.port := rfl

/-! ### `State.setRng` -/

@[simp] theorem State.setRng_scalars (s : State) (g : Rng) : (s.setRng g).scalars = s.scalars := rfl
@[simp] theorem State.setRng_points (s : State) (g : Rng) : (s.setRng g).points = s.points := rfl
@[simp] theorem State.setRng_ha (s : State) (g : Rng) : (s.setRng g).ha = s.ha := rfl
@[simp] theorem State.setRng_hb (s : State) (g : Rng) : (s.setRng g).hb = s.hb := rfl
@[simp] theorem State.setRng_hbl (s : State) (g : Rng) : (s.setRng g).hbl = s.hbl := rfl
@[simp] theorem State.setRng_mb (s : State) (g : Rng) : (s.setRng g).mb = s.mb := rfl
@[simp] theorem State.setRng_mlen (s : State) (g : Rng) : (s.setRng g).mlen = s.mlen := rfl
@[simp] theorem State.setRng_dg (s : State) (g : Rng) : (s.setRng g).dg = s.dg := rfl
@[simp] theorem State.setRng_dlen (s : State) (g : Rng) : (s.setRng g).dlen = s.dlen := rfl
@[simp] theorem State.setRng_status (s : State) (g : Rng) : (s.setRng g).status = s.status := rfl
@[simp] theorem State.setRng_cause (s : State) (g : Rng) : (s.setRng g).cause = s.cause := rfl
@[simp] theorem State.setRng_esticky (s : State) (g : Rng) : (s.setRng g).esticky = s.esticky := rfl
@[simp] theorem State.setRng_att (s : State) (g : Rng) : (s.setRng g).att = s.att := rfl
@[simp] theorem State.setRng_rng (s : State) (g : Rng) : (s.setRng g).rng = g := rfl
@[simp] theorem State.setRng_port (s : State) (g : Rng) : (s.setRng g).port = s.port := rfl

/-! ### `State.clearSticky` -/

@[simp] theorem State.clearSticky_scalars (s : State) : s.clearSticky.scalars = s.scalars := rfl
@[simp] theorem State.clearSticky_points (s : State) : s.clearSticky.points = s.points := rfl
@[simp] theorem State.clearSticky_ha (s : State) : s.clearSticky.ha = s.ha := rfl
@[simp] theorem State.clearSticky_hb (s : State) : s.clearSticky.hb = s.hb := rfl
@[simp] theorem State.clearSticky_hbl (s : State) : s.clearSticky.hbl = s.hbl := rfl
@[simp] theorem State.clearSticky_mb (s : State) : s.clearSticky.mb = s.mb := rfl
@[simp] theorem State.clearSticky_mlen (s : State) : s.clearSticky.mlen = s.mlen := rfl
@[simp] theorem State.clearSticky_dg (s : State) : s.clearSticky.dg = s.dg := rfl
@[simp] theorem State.clearSticky_dlen (s : State) : s.clearSticky.dlen = s.dlen := rfl
@[simp] theorem State.clearSticky_status (s : State) : s.clearSticky.status = s.status := rfl
@[simp] theorem State.clearSticky_cause (s : State) : s.clearSticky.cause = s.cause := rfl
@[simp] theorem State.clearSticky_esticky (s : State) : s.clearSticky.esticky = 0 := rfl
@[simp] theorem State.clearSticky_att (s : State) : s.clearSticky.att = s.att := rfl
@[simp] theorem State.clearSticky_rng (s : State) : s.clearSticky.rng = s.rng := rfl
@[simp] theorem State.clearSticky_port (s : State) : s.clearSticky.port = s.port := rfl

/-! ### `State.complete` -/

@[simp] theorem State.complete_scalars (s : State) : s.complete.scalars = s.scalars := rfl
@[simp] theorem State.complete_points (s : State) : s.complete.points = s.points := rfl
@[simp] theorem State.complete_ha (s : State) : s.complete.ha = s.ha := rfl
@[simp] theorem State.complete_hb (s : State) : s.complete.hb = s.hb := rfl
@[simp] theorem State.complete_hbl (s : State) : s.complete.hbl = s.hbl := rfl
@[simp] theorem State.complete_mb (s : State) : s.complete.mb = s.mb := rfl
@[simp] theorem State.complete_mlen (s : State) : s.complete.mlen = s.mlen := rfl
@[simp] theorem State.complete_dg (s : State) : s.complete.dg = s.dg := rfl
@[simp] theorem State.complete_dlen (s : State) : s.complete.dlen = s.dlen := rfl
@[simp] theorem State.complete_status (s : State) : s.complete.status = 0 := rfl
@[simp] theorem State.complete_cause (s : State) : s.complete.cause = 0 := rfl
@[simp] theorem State.complete_esticky (s : State) : s.complete.esticky = s.esticky := rfl
@[simp] theorem State.complete_att (s : State) : s.complete.att = s.att := rfl
@[simp] theorem State.complete_rng (s : State) : s.complete.rng = s.rng := rfl
@[simp] theorem State.complete_port (s : State) : s.complete.port = s.port := rfl

/-! ### `State.raise` -/

@[simp] theorem State.raise_scalars (s : State) (c : Cause) : (s.raise c).scalars = s.scalars := rfl
@[simp] theorem State.raise_points (s : State) (c : Cause) : (s.raise c).points = s.points := rfl
@[simp] theorem State.raise_ha (s : State) (c : Cause) : (s.raise c).ha = s.ha := rfl
@[simp] theorem State.raise_hb (s : State) (c : Cause) : (s.raise c).hb = s.hb := rfl
@[simp] theorem State.raise_hbl (s : State) (c : Cause) : (s.raise c).hbl = s.hbl := rfl
@[simp] theorem State.raise_mb (s : State) (c : Cause) : (s.raise c).mb = s.mb := rfl
@[simp] theorem State.raise_mlen (s : State) (c : Cause) : (s.raise c).mlen = s.mlen := rfl
@[simp] theorem State.raise_dg (s : State) (c : Cause) : (s.raise c).dg = s.dg := rfl
@[simp] theorem State.raise_dlen (s : State) (c : Cause) : (s.raise c).dlen = s.dlen := rfl
@[simp] theorem State.raise_status (s : State) (c : Cause) : (s.raise c).status = 1 := rfl
@[simp] theorem State.raise_cause (s : State) (c : Cause) : (s.raise c).cause = c.code := rfl
@[simp] theorem State.raise_esticky (s : State) (c : Cause) : (s.raise c).esticky = stickyWith s.esticky c := rfl
@[simp] theorem State.raise_att (s : State) (c : Cause) : (s.raise c).att = s.att := rfl
@[simp] theorem State.raise_rng (s : State) (c : Cause) : (s.raise c).rng = s.rng := rfl
@[simp] theorem State.raise_port (s : State) (c : Cause) : (s.raise c).port = s.port := rfl

/-! ### `State.reply` -/

@[simp] theorem State.reply_scalars (s : State) (r : HostReply) : (s.reply r).scalars = s.scalars := rfl
@[simp] theorem State.reply_points (s : State) (r : HostReply) : (s.reply r).points = s.points := rfl
@[simp] theorem State.reply_ha (s : State) (r : HostReply) : (s.reply r).ha = s.ha := rfl
@[simp] theorem State.reply_hb (s : State) (r : HostReply) : (s.reply r).hb = s.hb := rfl
@[simp] theorem State.reply_hbl (s : State) (r : HostReply) : (s.reply r).hbl = s.hbl := rfl
@[simp] theorem State.reply_mb (s : State) (r : HostReply) : (s.reply r).mb = s.mb := rfl
@[simp] theorem State.reply_mlen (s : State) (r : HostReply) : (s.reply r).mlen = s.mlen := rfl
@[simp] theorem State.reply_dg (s : State) (r : HostReply) : (s.reply r).dg = s.dg := rfl
@[simp] theorem State.reply_dlen (s : State) (r : HostReply) : (s.reply r).dlen = s.dlen := rfl
@[simp] theorem State.reply_status (s : State) (r : HostReply) : (s.reply r).status = s.status := rfl
@[simp] theorem State.reply_cause (s : State) (r : HostReply) : (s.reply r).cause = s.cause := rfl
@[simp] theorem State.reply_esticky (s : State) (r : HostReply) : (s.reply r).esticky = s.esticky := rfl
@[simp] theorem State.reply_att (s : State) (r : HostReply) : (s.reply r).att = s.att := rfl
@[simp] theorem State.reply_rng (s : State) (r : HostReply) : (s.reply r).rng = s.rng := rfl
@[simp] theorem State.reply_port (s : State) (r : HostReply) : (s.reply r).port = { s.port with reply := r } := rfl

/-! ### `State.withPending` -/

@[simp] theorem State.withPending_scalars (s : State) (l : List HostOp) : (s.withPending l).scalars = s.scalars := rfl
@[simp] theorem State.withPending_points (s : State) (l : List HostOp) : (s.withPending l).points = s.points := rfl
@[simp] theorem State.withPending_ha (s : State) (l : List HostOp) : (s.withPending l).ha = s.ha := rfl
@[simp] theorem State.withPending_hb (s : State) (l : List HostOp) : (s.withPending l).hb = s.hb := rfl
@[simp] theorem State.withPending_hbl (s : State) (l : List HostOp) : (s.withPending l).hbl = s.hbl := rfl
@[simp] theorem State.withPending_mb (s : State) (l : List HostOp) : (s.withPending l).mb = s.mb := rfl
@[simp] theorem State.withPending_mlen (s : State) (l : List HostOp) : (s.withPending l).mlen = s.mlen := rfl
@[simp] theorem State.withPending_dg (s : State) (l : List HostOp) : (s.withPending l).dg = s.dg := rfl
@[simp] theorem State.withPending_dlen (s : State) (l : List HostOp) : (s.withPending l).dlen = s.dlen := rfl
@[simp] theorem State.withPending_status (s : State) (l : List HostOp) : (s.withPending l).status = s.status := rfl
@[simp] theorem State.withPending_cause (s : State) (l : List HostOp) : (s.withPending l).cause = s.cause := rfl
@[simp] theorem State.withPending_esticky (s : State) (l : List HostOp) : (s.withPending l).esticky = s.esticky := rfl
@[simp] theorem State.withPending_att (s : State) (l : List HostOp) : (s.withPending l).att = s.att := rfl
@[simp] theorem State.withPending_rng (s : State) (l : List HostOp) : (s.withPending l).rng = s.rng := rfl
@[simp] theorem State.withPending_port (s : State) (l : List HostOp) :
    (s.withPending l).port = { s.port with pending := l } := rfl

/-! ### Reading back a register just written -/

@[simp] theorem State.setScalar_scalar_self (s : State) (i : SReg) (v : W64) : (s.setScalar i v).scalar i = v := by
  simp [State.scalar]

@[simp] theorem State.setScalar_scalar_of_ne (s : State) {i j : SReg} (v : W64) (h : i ≠ j) :
    (s.setScalar i v).scalar j = s.scalar j := by
  simp [State.scalar, Fin.val_ne_of_ne h]

theorem State.setPoint_getElem (s : State) (i j : PReg) (p : Point) :
    (s.setPoint i p).points[j] = if i = j then PointReg.ofPoint p else s.points[j] := by
  simp [Vector.getElem_set, Fin.ext_iff]

theorem State.setScalar_getElem (s : State) (i j : SReg) (v : W64) :
    (s.setScalar i v).scalars[j] = if i = j then v else s.scalars[j] := by
  simp [Vector.getElem_set, Fin.ext_iff]

/-- The value of a point register as written: infinity, or the coordinates modulo 2^64. -/
@[simp] theorem PointReg.value_ofPoint_inf : (PointReg.ofPoint .inf).value = .inf := rfl

theorem PointReg.value_ofPoint_finite (x y : Nat) (hx : x < 2 ^ 64) (hy : y < 2 ^ 64) :
    (PointReg.ofPoint (.finite x y)).value = .finite x y := by
  simp only [PointReg.ofPoint, PointReg.value, toSW, BitVec.toNat_ofNat, Nat.mod_eq_of_lt hx, Nat.mod_eq_of_lt hy]
  rfl

end Sys2Proof.Machine
end

