-- ==== Sys2Proof/Laws/Digest.lean ====
section
/-! SUPPORT. What the digest operations do: the lengths of their outputs, what a digest write leaves in `DG`
(`10_state.md` R28, R29), and which registers hashing and reducing may change (`44_hash_reducers.md` R235). -/

namespace Sys2Proof.Machine

@[simp] theorem zeros_length (k : Nat) : (zeros k).length = k := by simp [zeros]

@[simp] theorem be32_length (w : W32) : (be32 w).length = 4 := rfl

@[simp] theorem be64_length (v : W64) : (be64 v).length = 8 := rfl

@[simp] theorem le64_length (w : W64) : (le64 w).length = 8 := rfl

theorem flatMap_length_const {α β : Type} (f : α → List β) (k : Nat) (h : ∀ a, (f a).length = k) (l : List α) :
    (l.flatMap f).length = k * l.length := by
  induction l with
  | nil => rfl
  | cons a l ih => rw [List.flatMap_cons, List.length_append, h, ih, List.length_cons]; ring

/-- Digest A has 16 bytes (`41_digest_a.md` R124). -/
@[simp] theorem aOutput_length (h : Vector W32 4) : (aOutput h).length = 16 := by
  simp [aOutput, flatMap_length_const be32 4 be32_length]

@[simp] theorem digestA_length (p : DigestAParams) (m : List Byte) : (digestA p m).length = 16 := aOutput_length _

/-- Digest B has `L` bytes (`42_digest_b.md` R164). -/
theorem bOutput_length (h : Vector W64 8) (l : Nat) (hl : l ≤ 64) : (bOutput h l).length = l := by
  simp [bOutput, flatMap_length_const le64 8 le64_length, hl]

theorem digestB_length (p : DigestBParams) (m : List Byte) (l : Nat) (hl : l ≤ 64) : (digestB p m l).length = l :=
  bOutput_length _ l hl

/-- Every byte of `DG` after a digest of at most 64 bytes has been written. -/
theorem State.setDigest_read (s : State) (d : List Byte) (hd : d.length ≤ 64) (h : s.dg.wf = true) (j : Nat) :
    (s.setDigest d).dg.read j = if j < d.length then d.getD j 0 else if j < 64 then 0 else s.dg.read j := by
  have hl : (d ++ zeros (Config.dgSize - d.length)).length = 64 := by
    rw [List.length_append, zeros_length, Config.dgSize]; omega
  rw [State.setDigest_dg, Memory.read_writeBytes _ _ _ _ h, hl]
  simp only [Nat.zero_le, true_and, Nat.zero_add, Nat.sub_zero]
  by_cases h1 : j < d.length
  · rw [if_pos (by omega), if_pos h1, List.getD_append _ _ _ _ h1]
  · rw [if_neg h1]
    by_cases h2 : j < 64
    · rw [if_pos h2, if_pos h2, List.getD_append_right _ _ _ _ (by omega)]
      simp [zeros, List.getD_eq_getElem?_getD, List.getElem?_replicate]
      split_ifs <;> rfl
    · rw [if_neg h2, if_neg h2]

/-- A digest write keeps the canonical form of `DG`. -/
theorem State.setDigest_wf (s : State) (d : List Byte) (h : s.dg.wf = true) : (s.setDigest d).dg.wf = true :=
  Memory.writeBytes_wf _ _ _ h

/-- A digest write of at most 64 bytes stays inside `DG`. -/
theorem State.setDigest_below (s : State) (d : List Byte) (hd : d.length ≤ 64) (h : s.dg.below 64 = true) :
    (s.setDigest d).dg.below 64 = true :=
  Memory.writeBytes_below _ _ _ _ h (by rw [List.length_append, zeros_length, Config.dgSize]; omega)

/-- The current digest right after a digest write is what was written (`42_digest_b.md` R169). -/
theorem State.setDigest_digest (s : State) (d : List Byte) (hd : d.length ≤ 64) (h : s.dg.wf = true) :
    (s.setDigest d).digest = d := by
  have hl : (BitVec.ofNat 7 d.length).toNat = d.length := by
    rw [BitVec.toNat_ofNat]; exact Nat.mod_eq_of_lt (by omega)
  have he : (s.setDigest d).digest = (s.setDigest d).dg.readBytes 0 d.length := by
    rw [State.digest, State.setDigest_dlen, hl]
  rw [he]
  refine List.ext_getElem (Memory.readBytes_length _ _ _) fun i h1 h2 => ?_
  rw [Memory.readBytes_getElem, Nat.zero_add, State.setDigest_read s d hd h, if_pos h2,
    List.getD_eq_getElem _ _ h2]

/-- The state after DA.HASH, field by field (`41_digest_a.md` R128). -/
theorem State.performDaHash_eq (p : DigestAParams) (s : State) :
    s.performDaHash p = { s with
      ha := digestAState p s.message
      dg := s.dg.writeBytes 0 (digestA p s.message ++ zeros 48)
      dlen := 16 } := by
  simp [State.performDaHash, State.setDigest, State.setHa, Config.dgSize]

/-- The state after DB.HASH or DB.HASHD, field by field (`42_digest_b.md` R168, R169). -/
theorem State.performDbHash_eq (p : DigestBParams) (m : List Byte) (l : Nat) (s : State) (hl : l ≤ 64) :
    s.performDbHash p m l = { s with
      hb := digestBState p m l
      hbl := BitVec.ofNat 7 l
      dg := s.dg.writeBytes 0 (digestB p m l ++ zeros (64 - l))
      dlen := BitVec.ofNat 7 l } := by
  simp [State.performDbHash, State.setDigest, State.setHb, State.setHbl, Config.dgSize, digestB_length p m l hl]

/-- What a reducer may change: the hash units and the digest buffer, nothing else (R235). -/
theorem State.reduce_frame (cfg : Config) (v : Variant) (s : State) :
    ∃ ha hb hbl dg dlen, (s.reduce cfg v).2 = { s with ha := ha, hb := hb, hbl := hbl, dg := dg, dlen := dlen } := by
  cases v
  · exact ⟨_, _, _, _, _, rfl⟩
  · exact ⟨_, _, _, _, _, State.performDaHash_eq _ _⟩
  · exact ⟨_, _, _, _, _, State.performDbHash_eq _ _ _ _ (by decide)⟩
  · have e : (s.reduce cfg .hashAB).2 = State.performDbHash cfg.digestB (s.performDaHash cfg.digestA).digest
        Config.bSigLen (s.performDaHash cfg.digestA) := rfl
    rw [State.performDbHash_eq _ _ _ _ (by decide), State.performDaHash_eq] at e
    exact ⟨_, _, _, _, _, e⟩

/-- Variant 0 changes nothing (R231). -/
@[simp] theorem State.reduce_noHash_state (cfg : Config) (s : State) : (s.reduce cfg .noHash).2 = s := rfl

end Sys2Proof.Machine
end

