-- ==== Sys2Proof/Laws/Ecdsa.lean ====
section
/-! SUPPORT. What one attempt of the signing loop gives (`45_ecdsa.md` R252, R254), from the multiples of the base
point. -/

namespace Sys2Proof.Machine

/-- On the multiples of the base point the binary method is repeated addition (R204). -/
theorem binaryMultiple_base : ∀ k : Fin 37, binaryMultiple baseG k.val = repeatedSum baseG k.val := by decide +kernel

/-- A multiple of the base point by 1 to 36 is finite and reduced (R254 (i)). -/
theorem repeatedSum_base_finite :
    ∀ k : Fin 37, 1 ≤ k.val → ∃ x y : Fin 29, repeatedSum baseG k.val = .finite x.val y.val := by decide +kernel

/-- A value in `[1, 36]` has an inverse modulo 37 (R254 (iv)). -/
theorem modinv_n_spec (k : Nat) (h1 : 1 ≤ k) (h2 : k ≤ 36) : ∃ i, modinv k 37 = some i ∧ i < 37 ∧ k * i % 37 = 1 := by
  have : Int.gcd k 37 = 1 := by
    interval_cases k <;> rfl
  obtain ⟨x, hx, hl, hd⟩ := (modinv_spec k 37 (by norm_num)).1 this
  refine ⟨x, hx, hl, ?_⟩
  omega

/-- What one attempt gives, for a draw in range (R252): with `x` the abscissa of its multiple of the base point and `i`
its inverse modulo 37, a retry when `x` or `i·(e + d·x)` is 0 modulo 37, and else the pair. -/
theorem signAttempt_eq (d e k : Nat) (h1 : 1 ≤ k) (h2 : k ≤ 36) (x y : Nat)
    (hk : repeatedSum baseG k = .finite x y) :
    ∃ i, i < 37 ∧ k * i % 37 = 1 ∧ x < 29 ∧ signAttempt Config.curveDs1 d e k =
      if x = 0 then .retry else if (i * (e + d * x)) % 37 = 0 then .retry else .accept x (i * (e + d * x) % 37) := by
  obtain ⟨x', y', hxy⟩ := repeatedSum_base_finite ⟨k, by omega⟩ h1
  simp only [hk, Point.finite.injEq] at hxy
  obtain ⟨i, hi, hl, hki⟩ := modinv_n_spec k h1 h2
  refine ⟨i, hl, hki, by omega, ?_⟩
  have hm : pointMultiply Config.curveDs1 k (basePoint Config.curveDs1) = some (.finite x y) := by
    rw [pointMultiply_eq_binaryMultiple k _ (by omega)]
    have := binaryMultiple_base ⟨k, by omega⟩
    simp only [hk] at this
    rw [← this]; rfl
  have hmx : mod (x : Int) 37 = x := mod_unique _ _ _ (by omega) (by simp)
  have hms : mod ((i : Int) * ((e : Int) + d * x)) 37 = i * (e + d * x) % 37 := by
    have := mod_natCast (i * (e + d * x)) 37
    push_cast at this
    exact this
  unfold signAttempt
  have hn : Config.curveDs1.n = 37 := rfl
  simp only [hm, hn, hmx, hi, hms]

end Sys2Proof.Machine
end

