-- ==== Sys2Proof/Laws/Exec.lean ====
section
/-! SUPPORT. What a command and a step can do, said once: every command ends by reporting a `CommandEnd`
(`60_exceptions.md` R303), and a step is one of five moves (`46_system.md` R285, R286). -/

namespace Sys2Proof.Machine

/-- How each command ends, before the report. -/
def commandEnd (i : Instr) (s : State) : CommandEnd :=
  match i with
  | .nop => .completes s
  | .clre => .completes s.clearSticky
  | .modred rd rv rm => modredEnd rd rv rm s
  | .modmul rd rx ry rm => modmulEnd rd rx ry rm s
  | .modinv rd rv rm => modinvEnd rd rv rm s
  | .daInit => daInitEnd Config.core s
  | .daCmp roff => daCmpEnd Config.core roff s
  | .daOut => daOutEnd s
  | .daHash => daHashEnd Config.core s
  | .dbInit len => dbInitEnd Config.core len s
  | .dbCmp roff rt last => dbCmpEnd Config.core roff rt last s
  | .dbOut => dbOutEnd s
  | .dbHash len => dbHashEnd Config.core len s
  | .dbHashd len => dbHashdEnd Config.core len s
  | .pinf pd => .completes (s.setPoint pd .inf)
  | .pldg pd => .completes (s.setPoint pd (basePoint Config.core.curve))
  | .pset pd rx ry => .completes (s.setPoint pd (.finite (s.uintS rx) (s.uintS ry)))
  | .pgetx rd pa => pgetxEnd rd pa s
  | .pgety rd pa => pgetyEnd rd pa s
  | .pisinf rd pa => .completes (s.setScalar rd (boolScalar (s.point pa).isInf))
  | .padd pd pa pb => pointEnd pd s (pointAdd Config.core.curve (s.point pa) (s.point pb))
  | .pdbl pd pa => pointEnd pd s (pointAdd Config.core.curve (s.point pa) (s.point pa))
  | .pmul pd rk pa => pointEnd pd s (pointMultiply Config.core.curve (s.uintS rk) (s.point pa))
  | .hred rd v => hredEnd Config.core rd v s
  | .keygen rd pq => keygenEnd Config.core rd pq s
  | .sign rr rs rk v => signEnd Config.core rr rs rk v s
  | .verify rd rr rs pq v => verifyEnd Config.core rd rr rs pq v s

/-- Every command answers a next state: the report of its end. -/
theorem exec_eq_report (i : Instr) (s : State) : exec i s = .next (commandEnd i s).report := by
  cases i <;> rfl

theorem exec_next_iff (i : Instr) (s t : State) : exec i s = .next t ↔ t = (commandEnd i s).report := by
  rw [exec_eq_report]
  constructor
  · rintro ⟨⟩; rfl
  · rintro rfl; rfl

@[simp] theorem CommandEnd.report_completes (s : State) : (CommandEnd.completes s).report = s.complete := rfl

@[simp] theorem CommandEnd.report_raises (c : Cause) (s : State) : (CommandEnd.raises c s).report = s.raise c := rfl

/-- The code of a cause is 1 to 8 (R302). -/
theorem Cause.code_range (c : Cause) : 1 ≤ c.code.toNat ∧ c.code.toNat ≤ 8 := by cases c <;> decide

/-- The sticky bit a cause sets (R303). -/
theorem stickyWith_eq (e : BitVec 9) (c : Cause) : stickyWith e c = e ||| BitVec.ofNat 9 (2 ^ c.code.toNat) := by
  cases c <;> rfl

theorem stickyWith_getLsbD (e : BitVec 9) (c : Cause) (b : Nat) :
    (stickyWith e c).getLsbD b = (e.getLsbD b || decide (b = c.code.toNat)) := by
  by_cases hb : b < 9
  · interval_cases b <;> cases c <;> simp [stickyWith, Cause.code]
  · have : b ≠ c.code.toNat := by have := c.code_range.2; omega
    simp [this, BitVec.getLsbD_of_ge _ _ (show 9 ≤ b by omega)]

/-! ### The random port (R290) -/

/-- A draw answers the first given draw, or the opaque source, and moves the port on by one. -/
theorem Rng.draw_snd (g : Rng) : g.draw.2 = { queued := g.queued.drop 1, index := g.index + 1 } := by
  rcases g with ⟨_ | ⟨d, ds⟩, k⟩ <;> rfl

theorem Rng.draw_fst_cons (d : W64) (ds : List W64) (k : Nat) : (Rng.mk (d :: ds) k).draw.1 = d := rfl

/-- How the signing loop can end (`45_ecdsa.md` R260): it made between 1 and `fuel` attempts more, one draw each,
and an accepted pair comes from an attempt with a draw in range. -/
theorem signLoop_spec (c : Curve) (d e fuel att : Nat) (g : Rng) (hf : 1 ≤ fuel) :
    ∃ n, 1 ≤ n ∧ n ≤ fuel ∧
      ((∃ r sg k, signLoop c d e fuel att g = .accepted (att + n)
            { queued := g.queued.drop n, index := g.index + n } r sg ∧
          inRange c k = true ∧ signAttempt c d e k = .accept r sg) ∨
       (∃ z, signLoop c d e fuel att g = .failed (att + n)
            { queued := g.queued.drop n, index := g.index + n } z ∧
          (z = .exhausted ∧ n = fuel ∨ z = .domain ∨ z = .rng))) := by
  induction fuel generalizing att g with
  | zero => omega
  | succ fuel ih =>
    rw [signLoop]
    split_ifs with hr
    · cases ha : signAttempt c d e g.draw.1.toNat with
      | retry =>
        rcases Nat.eq_zero_or_pos fuel with rfl | hp
        · exact ⟨1, le_rfl, le_rfl, .inr ⟨_, by simp only [signLoop]; rw [Rng.draw_snd], .inl ⟨rfl, rfl⟩⟩⟩
        · obtain ⟨n, h1, h2, h⟩ := ih (att + 1) g.draw.2 hp
          refine ⟨n + 1, by omega, by omega, ?_⟩
          rw [Rng.draw_snd, List.drop_drop] at h
          have e1 : att + (n + 1) = att + 1 + n := by omega
          have e2 : n + 1 = 1 + n := by omega
          have e3 : g.index + (n + 1) = g.index + 1 + n := by omega
          rw [e1, e3, e2, Rng.draw_snd]
          rcases h with ⟨r, sg, k, h, hk⟩ | ⟨z, h, hz⟩
          · exact .inl ⟨r, sg, k, h, hk⟩
          · exact .inr ⟨z, h, hz.imp_left fun hz => ⟨hz.1, by omega⟩⟩
      | accept r sg =>
        exact ⟨1, le_rfl, by omega, .inl ⟨r, sg, _, by rw [Rng.draw_snd], hr, ha⟩⟩
      | domainError => exact ⟨1, le_rfl, by omega, .inr ⟨_, by rw [Rng.draw_snd], .inr (.inl rfl)⟩⟩
    · exact ⟨1, le_rfl, by omega, .inr ⟨_, by rw [Rng.draw_snd], .inr (.inr rfl)⟩⟩

/-- How SIGN can end (R260): by its bounds check, or after the reducer and between 1 and 100 attempts, one draw each,
accepted or with one of three causes. -/
theorem signEnd_cases (cfg : Config) (rr rs rk : SReg) (v : Variant) (s : State) :
    (s.messageOk cfg = false ∧ signEnd cfg rr rs rk v s = .raises .bounds s) ∨
    (s.messageOk cfg = true ∧ ∃ n u, 1 ≤ n ∧ n ≤ 100 ∧
      u = (((s.reduce cfg v).2).setRng { queued := s.rng.queued.drop n, index := s.rng.index + n }).setAtt n ∧
      ((∃ r sg k, signEnd cfg rr rs rk v s = .completes ((u.setScalar rr (toSW r)).setScalar rs (toSW sg)) ∧
          inRange cfg.curve k = true ∧
          signAttempt cfg.curve (s.uintS rk) (s.reduce cfg v).1 k = .accept r sg) ∨
       (∃ c, signEnd cfg rr rs rk v s = .raises c u ∧ (c = .exhausted ∨ c = .domain ∨ c = .rng)))) := by
  unfold signEnd
  split_ifs with h
  · refine .inr ⟨h, ?_⟩
    obtain ⟨n, h1, h2, h⟩ :=
      signLoop_spec cfg.curve (s.uintS rk) (s.reduce cfg v).1 Config.retry 0 s.rng (by decide)
    refine ⟨n, _, h1, h2, rfl, ?_⟩
    rcases h with ⟨r, sg, k, h, hk⟩ | ⟨z, h, hz⟩
    · exact .inl ⟨r, sg, k, by simp only [h, Nat.zero_add], hk⟩
    · exact .inr ⟨z, by simp only [h, Nat.zero_add], by tauto⟩
  · exact .inl ⟨by simpa using h, rfl⟩

/-! ### The step -/

/-- A step that answers a next state is idle, a host operation that issues no command, an undecodable command word,
or a command. -/
theorem step_cases (s t : State) (h : step s = .next t) :
    (s.port.pending = [] ∧ t = s) ∨
    ∃ op rest, s.port.pending = op :: rest ∧
      ((∃ i s', hostMove Config.core (s.withPending rest) op = .issue i s' ∧ t = (commandEnd i s').report) ∨
       hostMove Config.core (s.withPending rest) op = .done t) := by
  cases hp : s.port.pending with
  | nil =>
    have e : step s = .next s := by simp only [step, nextMove, hp]
    rw [e] at h
    exact .inl ⟨rfl, by injection h with h; exact h.symm⟩
  | cons op rest =>
    refine .inr ⟨op, rest, rfl, ?_⟩
    simp only [step, nextMove, hp] at h
    cases hm : hostMove Config.core (s.withPending rest) op with
    | idle => cases op <;> simp only [hostMove] at hm <;> (try split_ifs at hm) <;> (try split at hm) <;> contradiction
    | done s' =>
      rw [hm] at h
      injection h with h
      exact .inr (h ▸ rfl)
    | issue i s' =>
      rw [hm] at h
      exact .inl ⟨i, s', rfl, (exec_next_iff i s' t).mp h⟩

end Sys2Proof.Machine
end

