-- ==== Sys2Proof/Laws/HostPort.lean ====
section
/-! SUPPORT. What a host write of a register place does (`10_state.md` R36, `20_memory.md` R51): it reaches that
place alone, and no buffer, draw or port. -/

namespace Sys2Proof.Machine

/-- A write of one place leaves the value of every other place. -/
theorem State.readPlace_writePlace_of_ne (s : State) (v : W64) {p q : RegPlace} (h : p ≠ q) :
    (s.writePlace v p).readPlace q = s.readPlace q := by
  cases p <;> cases q <;>
    simp_all [State.writePlace, State.readPlace, State.setPointReg, Vector.getElem_set, Fin.ext_iff]
  all_goals try (split_ifs <;> rfl)
  all_goals (split_ifs <;> simp_all [boolScalar])

/-- What a place reads as after a write of it: the low bits of the data where it is writable, and `HBL` only by a
value of at most 64. -/
theorem State.readPlace_writePlace_self (s : State) (v : W64) (p : RegPlace) :
    (s.writePlace v p).readPlace p =
      match p with
      | .mlen => v
      | .hbl => if v.toNat ≤ 64 then v else s.readPlace .hbl
      | .scalar _ => v
      | .pointInf _ => boolScalar (v.getLsbD 0)
      | .pointX _ => v
      | .pointY _ => v
      | .ha _ => (v.setWidth 32).setWidth 64
      | .hb _ => v
      | p => s.readPlace p := by
  cases p with
  | hbl =>
    by_cases h : v.toNat ≤ 64
    · have e : s.writePlace v .hbl = { s with hbl := v.setWidth 7 } := if_pos h
      rw [e]
      apply BitVec.eq_of_toNat_eq
      simp only [State.readPlace, if_pos h, BitVec.toNat_setWidth]
      omega
    · have e : s.writePlace v .hbl = s := if_neg h
      simp only [e, if_neg h]
  | _ => simp [State.writePlace, State.readPlace, State.setPointReg]

/-- A register write touches neither the buffers nor the draws nor the port. -/
theorem State.writePlace_frame (s : State) (v : W64) (p : RegPlace) :
    (s.writePlace v p).mb = s.mb ∧ (s.writePlace v p).dg = s.dg ∧ (s.writePlace v p).rng = s.rng ∧
      (s.writePlace v p).port = s.port := by
  cases p with
  | hbl => simp only [State.writePlace]; split_ifs <;> exact ⟨rfl, rfl, rfl, rfl⟩
  | _ => exact ⟨rfl, rfl, rfl, rfl⟩

end Sys2Proof.Machine
end

