-- ==== Sys2Proof/Laws/PerInstr.lean ====
section
/-! SUPPORT. Per-instruction laws about commands as syntax: every encoding lies in its row of the opcode map, that
is, meets the mask and match of `30_encoding.md` R73. -/

namespace Sys2Proof

/-- Masking a word masks its fields. -/
theorem wordOf_and (op op' : BitVec 8) (f0 f1 f2 f3 g0 g1 g2 g3 : BitVec 4) (imm imm' : BitVec 8) :
    wordOf op f0 f1 f2 f3 imm &&& wordOf op' g0 g1 g2 g3 imm' =
      wordOf (op &&& op') (f0 &&& g0) (f1 &&& g1) (f2 &&& g2) (f3 &&& g3) (imm &&& imm') := by
  have h {n m : Nat} (a b : BitVec n) (c d : BitVec m) : (a ++ c) &&& (b ++ d) = (a &&& b) ++ (c &&& d) := by
    ext i hi
    simp only [BitVec.getElem_and, BitVec.getElem_append]
    split_ifs <;> rfl
  unfold wordOf
  rw [BitVec.cast_eq, BitVec.cast_eq, BitVec.cast_eq, h, h, h, h, h]

theorem pField_and_eight (p : PReg) : pField p &&& 8 = 0 := by revert p; decide

theorem variantCode_and (v : Variant) : variantCode v &&& 0xFC = 0 := by cases v <;> decide

theorem lastImm_and (b : Bool) : lastImm b &&& 0xFE = 0 := by revert b; decide

/-- A word whose masked fields are the match's fields meets the mask and match. -/
theorem wordOf_and_eq {op : BitVec 8} {f0 f1 f2 f3 : BitVec 4} {imm : BitVec 8} {mask mtch : BitVec 32}
    (g0 g1 g2 g3 : BitVec 4) (imm' : BitVec 8)
    (hm : mask = wordOf 0xFF g0 g1 g2 g3 imm') (hr : mtch = wordOf op 0 0 0 0 0) (h0 : f0 &&& g0 = 0)
    (h1 : f1 &&& g1 = 0) (h2 : f2 &&& g2 = 0) (h3 : f3 &&& g3 = 0) (hi : imm &&& imm' = 0) :
    wordOf op f0 f1 f2 f3 imm &&& mask = mtch := by
  rw [hm, hr, wordOf_and, h0, h1, h2, h3, hi]
  exact congrArg (wordOf · 0 0 0 0 0) (BitVec.and_allOnes)

end Sys2Proof

namespace Sys2Proof.Laws.EncodeRow

/-- The encoding of a command lies in the command's row. -/
def Statement (i : Instr) : Prop := encode i &&& rowMask i = rowMatch i

theorem nop : Statement .nop :=
  wordOf_and_eq 0xF 0xF 0xF 0xF 0xFF rfl rfl
    BitVec.zero_and BitVec.zero_and BitVec.zero_and BitVec.zero_and BitVec.zero_and

theorem clre : Statement .clre :=
  wordOf_and_eq 0xF 0xF 0xF 0xF 0xFF rfl rfl
    BitVec.zero_and BitVec.zero_and BitVec.zero_and BitVec.zero_and BitVec.zero_and

theorem modred (rd : SReg) (rv : SReg) (rm : SReg) : Statement (.modred rd rv rm) :=
  wordOf_and_eq 0 0 0 0xF 0xFF rfl rfl
    BitVec.and_zero BitVec.and_zero BitVec.and_zero BitVec.zero_and BitVec.zero_and

theorem modmul (rd : SReg) (rx : SReg) (ry : SReg) (rm : SReg) : Statement (.modmul rd rx ry rm) :=
  wordOf_and_eq 0 0 0 0 0xFF rfl rfl
    BitVec.and_zero BitVec.and_zero BitVec.and_zero BitVec.and_zero BitVec.zero_and

theorem modinv (rd : SReg) (rv : SReg) (rm : SReg) : Statement (.modinv rd rv rm) :=
  wordOf_and_eq 0 0 0 0xF 0xFF rfl rfl
    BitVec.and_zero BitVec.and_zero BitVec.and_zero BitVec.zero_and BitVec.zero_and

theorem daInit : Statement .daInit :=
  wordOf_and_eq 0xF 0xF 0xF 0xF 0xFF rfl rfl
    BitVec.zero_and BitVec.zero_and BitVec.zero_and BitVec.zero_and BitVec.zero_and

theorem daCmp (roff : SReg) : Statement (.daCmp roff) :=
  wordOf_and_eq 0xF 0 0xF 0xF 0xFF rfl rfl
    BitVec.zero_and BitVec.and_zero BitVec.zero_and BitVec.zero_and BitVec.zero_and

theorem daOut : Statement .daOut :=
  wordOf_and_eq 0xF 0xF 0xF 0xF 0xFF rfl rfl
    BitVec.zero_and BitVec.zero_and BitVec.zero_and BitVec.zero_and BitVec.zero_and

theorem daHash : Statement .daHash :=
  wordOf_and_eq 0xF 0xF 0xF 0xF 0xFF rfl rfl
    BitVec.zero_and BitVec.zero_and BitVec.zero_and BitVec.zero_and BitVec.zero_and

theorem dbInit (len : BitVec 8) : Statement (.dbInit len) :=
  wordOf_and_eq 0xF 0xF 0xF 0xF 0 rfl rfl
    BitVec.zero_and BitVec.zero_and BitVec.zero_and BitVec.zero_and BitVec.and_zero

theorem dbCmp (roff : SReg) (rt : SReg) (last : Bool) : Statement (.dbCmp roff rt last) :=
  wordOf_and_eq 0xF 0 0 0xF 0xFE rfl rfl
    BitVec.zero_and BitVec.and_zero BitVec.and_zero BitVec.zero_and (lastImm_and _)

theorem dbOut : Statement .dbOut :=
  wordOf_and_eq 0xF 0xF 0xF 0xF 0xFF rfl rfl
    BitVec.zero_and BitVec.zero_and BitVec.zero_and BitVec.zero_and BitVec.zero_and

theorem dbHash (len : BitVec 8) : Statement (.dbHash len) :=
  wordOf_and_eq 0xF 0xF 0xF 0xF 0 rfl rfl
    BitVec.zero_and BitVec.zero_and BitVec.zero_and BitVec.zero_and BitVec.and_zero

theorem dbHashd (len : BitVec 8) : Statement (.dbHashd len) :=
  wordOf_and_eq 0xF 0xF 0xF 0xF 0 rfl rfl
    BitVec.zero_and BitVec.zero_and BitVec.zero_and BitVec.zero_and BitVec.and_zero

theorem pinf (pd : PReg) : Statement (.pinf pd) :=
  wordOf_and_eq 0x8 0xF 0xF 0xF 0xFF rfl rfl
    (pField_and_eight _) BitVec.zero_and BitVec.zero_and BitVec.zero_and BitVec.zero_and

theorem pldg (pd : PReg) : Statement (.pldg pd) :=
  wordOf_and_eq 0x8 0xF 0xF 0xF 0xFF rfl rfl
    (pField_and_eight _) BitVec.zero_and BitVec.zero_and BitVec.zero_and BitVec.zero_and

theorem pset (pd : PReg) (rx : SReg) (ry : SReg) : Statement (.pset pd rx ry) :=
  wordOf_and_eq 0x8 0 0 0xF 0xFF rfl rfl
    (pField_and_eight _) BitVec.and_zero BitVec.and_zero BitVec.zero_and BitVec.zero_and

theorem pgetx (rd : SReg) (pa : PReg) : Statement (.pgetx rd pa) :=
  wordOf_and_eq 0 0x8 0xF 0xF 0xFF rfl rfl
    BitVec.and_zero (pField_and_eight _) BitVec.zero_and BitVec.zero_and BitVec.zero_and

theorem pgety (rd : SReg) (pa : PReg) : Statement (.pgety rd pa) :=
  wordOf_and_eq 0 0x8 0xF 0xF 0xFF rfl rfl
    BitVec.and_zero (pField_and_eight _) BitVec.zero_and BitVec.zero_and BitVec.zero_and

theorem pisinf (rd : SReg) (pa : PReg) : Statement (.pisinf rd pa) :=
  wordOf_and_eq 0 0x8 0xF 0xF 0xFF rfl rfl
    BitVec.and_zero (pField_and_eight _) BitVec.zero_and BitVec.zero_and BitVec.zero_and

theorem padd (pd : PReg) (pa : PReg) (pb : PReg) : Statement (.padd pd pa pb) :=
  wordOf_and_eq 0x8 0x8 0x8 0xF 0xFF rfl rfl
    (pField_and_eight _) (pField_and_eight _) (pField_and_eight _) BitVec.zero_and BitVec.zero_and

theorem pdbl (pd : PReg) (pa : PReg) : Statement (.pdbl pd pa) :=
  wordOf_and_eq 0x8 0x8 0xF 0xF 0xFF rfl rfl
    (pField_and_eight _) (pField_and_eight _) BitVec.zero_and BitVec.zero_and BitVec.zero_and

theorem pmul (pd : PReg) (rk : SReg) (pa : PReg) : Statement (.pmul pd rk pa) :=
  wordOf_and_eq 0x8 0 0x8 0xF 0xFF rfl rfl
    (pField_and_eight _) BitVec.and_zero (pField_and_eight _) BitVec.zero_and BitVec.zero_and

theorem hred (rd : SReg) (v : Variant) : Statement (.hred rd v) :=
  wordOf_and_eq 0 0xF 0xF 0xF 0xFC rfl rfl
    BitVec.and_zero BitVec.zero_and BitVec.zero_and BitVec.zero_and (variantCode_and _)

theorem keygen (rd : SReg) (pq : PReg) : Statement (.keygen rd pq) :=
  wordOf_and_eq 0 0x8 0xF 0xF 0xFF rfl rfl
    BitVec.and_zero (pField_and_eight _) BitVec.zero_and BitVec.zero_and BitVec.zero_and

theorem sign (rr : SReg) (rs : SReg) (rk : SReg) (v : Variant) : Statement (.sign rr rs rk v) :=
  wordOf_and_eq 0 0 0 0xF 0xFC rfl rfl
    BitVec.and_zero BitVec.and_zero BitVec.and_zero BitVec.zero_and (variantCode_and _)

theorem verify (rd : SReg) (rr : SReg) (rs : SReg) (pq : PReg) (v : Variant) : Statement (.verify rd rr rs pq v) :=
  wordOf_and_eq 0 0 0 0x8 0xFC rfl rfl
    BitVec.and_zero BitVec.and_zero BitVec.and_zero (pField_and_eight _) (variantCode_and _)

end Sys2Proof.Laws.EncodeRow
end

