-- ==== Sys2Proof/Tests/Slice0.lean ====
section
/-! SUPPORT. The model's own tests. Expected results are the spec's (`95_test_vectors.md`, and `30_encoding.md` R82)
unless a comment says otherwise; the witnesses at the end show, for each statement that has hypotheses, concrete
operands that meet them. -/

namespace Sys2Proof.Tests

open Sys2Proof.Machine

-- One theorem at a time: many kernel evaluations waiting for each other would each hold a thread.
set_option Elab.async false

/-! ### Helpers -/

/-- The state a command leaves. -/
def after (i : Instr) (s : State) : State :=
  match exec i s with
  | .next t => t
  | .fault _ => s
  | .refused _ => s

/-- The reset state with scalar registers set. -/
def withS (l : List (SReg × Nat)) (s : State) : State := l.foldl (fun s p => withScalar s p.1 p.2) s

/-- The state with a finite point in a register. -/
def withP (p : PReg) (x y : Nat) (s : State) : State :=
  withPoint s p { inf := false, x := BitVec.ofNat 64 x, y := BitVec.ofNat 64 y }

/-- The state with draws given. -/
def withDraws (l : List Nat) (s : State) : State := { s with rng := { queued := l.map (BitVec.ofNat 64), index := 0 } }

/-- The state with a message in `MB` and its length in `MLEN`. -/
def withMessage (m : List Byte) (s : State) : State :=
  { s with mb := s.mb.writeBytes 0 m, mlen := BitVec.ofNat 64 m.length }

/-- The state with one host operation pending. -/
def withOp (op : HostOp) (s : State) : State := s.withPending [op]

/-- `A_TOY` of `95_test_vectors.md` section 2.2. -/
def toyA : DigestAParams where
  iv := #v[0x01234567, 0x89ABCDEF, 0xFEDCBA98, 0x76543210]
  sched w := w ++ (Vector.ofFn fun i : Fin 16 => w[i] + BitVec.ofNat 32 (i.val + 16) : Vector W32 16)
  round t x v := #v[v[1], v[2], v[3], v[0].rotateLeft 1 + x + BitVec.ofNat 32 t.val]

/-- The configuration of the spec's vectors: `A_TOY`, `B_STD`, `MBSIZE = 4096`. -/
def toy : Config := { mbsize := 4096, curve := Config.curveDs1, digestA := toyA, digestB := Config.bStd }

/-! ### Well-formedness -/

theorem test_sign_same_register_is_ill_formed : (Instr.sign 4 4 3 .noHash).wellFormed = false := by decide

theorem test_sign_two_registers_is_well_formed : (Instr.sign 4 5 4 .noHash).wellFormed = true := by decide

/-! ### Decoding: the words of `95_test_vectors.md` section 2.7 -/

theorem test_decode_nop : decode 0x00000000 = .command .nop := by decide
theorem test_decode_clre : decode 0x01000000 = .command .clre := by decide
theorem test_decode_modred : decode 0x10012000 = .command (.modred 0 1 2) := by decide
theorem test_decode_modmul : decode 0x11123400 = .command (.modmul 1 2 3 4) := by decide
theorem test_decode_modinv : decode 0x12201000 = .command (.modinv 2 0 1) := by decide
theorem test_decode_daInit : decode 0x20000000 = .command .daInit := by decide
theorem test_decode_daCmp : decode 0x21010000 = .command (.daCmp 1) := by decide
theorem test_decode_daOut : decode 0x22000000 = .command .daOut := by decide
theorem test_decode_daHash : decode 0x23000000 = .command .daHash := by decide
theorem test_decode_dbInit : decode 0x300000FF = .command (.dbInit 255) := by decide
theorem test_decode_dbCmp_middle : decode 0x31012000 = .command (.dbCmp 1 2 false) := by decide
theorem test_decode_dbCmp_last : decode 0x31034001 = .command (.dbCmp 3 4 true) := by decide
theorem test_decode_dbOut : decode 0x32000000 = .command .dbOut := by decide
theorem test_decode_dbHash : decode 0x33000020 = .command (.dbHash 32) := by decide
theorem test_decode_dbHashd : decode 0x34000040 = .command (.dbHashd 64) := by decide
theorem test_decode_pinf : decode 0x40700000 = .command (.pinf 7) := by decide
theorem test_decode_pldg : decode 0x41000000 = .command (.pldg 0) := by decide
theorem test_decode_pset : decode 0x42178000 = .command (.pset 1 7 8) := by decide
theorem test_decode_pgetx : decode 0x43020000 = .command (.pgetx 0 2) := by decide
theorem test_decode_pgety : decode 0x44530000 = .command (.pgety 5 3) := by decide
theorem test_decode_pisinf : decode 0x45350000 = .command (.pisinf 3 5) := by decide
theorem test_decode_padd : decode 0x46312000 = .command (.padd 3 1 2) := by decide
theorem test_decode_pdbl : decode 0x47100000 = .command (.pdbl 1 0) := by decide
theorem test_decode_pmul : decode 0x48420000 = .command (.pmul 4 2 0) := by decide
theorem test_decode_hred : decode 0x50F00002 = .command (.hred 15 .hashB) := by decide
theorem test_decode_keygen : decode 0x60310000 = .command (.keygen 3 1) := by decide
theorem test_decode_sign : decode 0x61453000 = .command (.sign 4 5 3 .noHash) := by decide
theorem test_decode_verify : decode 0x62945703 = .command (.verify 9 4 5 7 .hashAB) := by decide

theorem test_illegal_opcodes :
    ([0x02000000, 0x0F000000, 0x13000000, 0x24000000, 0x35000000, 0x49000000, 0x63000000, 0xFF000000,
      0xFFFFFFFF] : List (BitVec 32)).all (fun w => decode w == .illegal .unassignedOpcode) = true := by decide

theorem test_illegal_unused_fields :
    ([0x10012300, 0x20100000, 0x21100000, 0x50010000, 0x61453100, 0x30800020] : List (BitVec 32)).all
      (fun w => decode w == .illegal .unusedField) = true := by decide

theorem test_illegal_immediates :
    ([0x00000001, 0x10012001, 0x31012002, 0x50000004, 0x61453004, 0x629451FF] : List (BitVec 32)).all
      (fun w => decode w == .illegal .immBits) = true := by decide

theorem test_illegal_points :
    ([0x40800000, 0x42978000, 0x430A0000, 0x46318000, 0x48428000, 0x60380000, 0x62945800] : List (BitVec 32)).all
      (fun w => decode w == .illegal .pointField) = true := by decide

theorem test_illegal_sign_same_register : decode 0x61443000 = .illegal .signSameRegister := by decide

/-! ### Commands -/

theorem test_nop_clears_cause_keeps_sticky :
    (fun t => (t.cause, t.status, t.esticky)) (after .nop (failed State.reset 2)) = (0, 0, 4) := by decide

theorem test_clre_clears_sticky :
    (fun t => (t.cause, t.status, t.esticky)) (after .clre (failed State.reset 2)) = (0, 0, 0) := by decide

theorem test_modred_negative :
    (after (.modred 0 1 2) (withS [(1, 0xFFFFFFFFFFFFFFE2), (2, 29)] State.reset)).scalar 0 = 28 := by decide +kernel

theorem test_modred_unsigned_modulus :
    (after (.modred 0 1 2) (withS [(1, 2 ^ 64 - 1), (2, 2 ^ 64 - 1)] State.reset)).scalar 0 = 0xFFFFFFFFFFFFFFFE := by
  decide +kernel

theorem test_modmul_exact_product :
    (after (.modmul 1 2 3 4) (withS [(2, 2 ^ 63 - 1), (3, 2 ^ 63 - 1), (4, 2 ^ 64 - 1)] State.reset)).scalar 1 =
      0x4000000000000000 := by decide +kernel

theorem test_modmul_all_one_register :
    (after (.modmul 1 1 1 1) (withS [(1, 7)] State.reset)).scalar 1 = 0 := by decide +kernel

theorem test_modinv_large_modulus :
    (after (.modinv 0 1 2) (withS [(1, 17), (2, 3120)] State.reset)).scalar 0 = 2753 := by decide +kernel

theorem test_modinv_domain_error :
    (fun t : State => (t.cause, t.status, t.esticky, t.scalar 0))
      (after (.modinv 0 1 2) (withS [(0, 5), (1, 58), (2, 29)] State.reset)) = (2, 1, 4, 5) := by decide +kernel

theorem test_da_init : (daInitEnd toy State.reset).report.ha = toyA.iv := by decide

/-- The unaligned block of `95_test_vectors.md` section 2.2. -/
theorem test_da_cmp_unaligned :
    (daCmpEnd toy 1 { withS [(1, 1)] State.reset with
      mb := [(1, 0x61), (2, 0x62), (3, 0x63), (4, 0x80), (64, 0x18)], ha := toyA.iv }).report.ha =
        #v[0xE0AD8D93, 0x3579C37E, 0xDB975AAA, 0xCA864C40] := by decide +kernel

theorem test_da_cmp_bounds :
    ((daCmpEnd toy 1 (withS [(1, 4032)] State.reset)).report.cause,
      (daCmpEnd toy 1 (withS [(1, 4033)] State.reset)).report.cause,
      (daCmpEnd toy 1 (withS [(1, 2 ^ 64 - 1)] State.reset)).report.cause) = (0, 5, 5) := by decide +kernel

theorem test_da_out_big_endian :
    (fun t : State => (t.dg.readBytes 0 8, t.dlen))
      (after .daOut { State.reset with ha := #v[0xE0AD8D93, 0x3579C37E, 0, 0], dg := [(40, 7)] }) =
        ([0xE0, 0xAD, 0x8D, 0x93, 0x35, 0x79, 0xC3, 0x7E], 16) := by decide +kernel

theorem test_da_hash_abc :
    (fun t : State => (t.dg.readBytes 0 18, t.dlen, t.ha[3]))
      (daHashEnd toy (withMessage [0x61, 0x62, 0x63] State.reset)).report =
        ([0xE0, 0xAD, 0x8D, 0x93, 0x35, 0x79, 0xC3, 0x7E, 0xDB, 0x97, 0x5A, 0xAA, 0xCA, 0x86, 0x4C, 0x40, 0, 0], 16,
          0xCA864C40) := by decide +kernel

theorem test_da_hash_bounds :
    (daHashEnd toy { State.reset with mlen := 4097 }).report = failed { State.reset with mlen := 4097 } 5 := by
  decide +kernel

theorem test_db_init :
    (fun t : State => (t.hb[0], t.hb[1], t.hbl)) (dbInitEnd toy 64 State.reset).report =
      (0x6A09E667F2BDC948, 0xBB67AE8584CAA73B, 64) := by decide +kernel

theorem test_db_init_length :
    ((dbInitEnd toy 0 State.reset).report.cause, (dbInitEnd toy 65 State.reset).report.cause) = (4, 4) := by decide

theorem test_db_cmp_zero_state :
    (dbCmpEnd toy 1 2 false (withS [(1, 3968)] State.reset)).report.hb =
      #v[0x4D3F506019115AC7, 0x2FA2733D57DC0AB8, 0xD1E1C1129F845613, 0x65061DC9C8E902AC, 0x8A5C682F464AE8CE,
        0x3D9EB972A409D768, 0x61D9C25D696AE005, 0xEE2E6936BDA0EBC9] := by decide +kernel

theorem test_db_cmp_bounds : (dbCmpEnd toy 1 2 false (withS [(1, 3969)] State.reset)).report.cause = 5 := by
  decide +kernel

theorem test_db_out_little_endian :
    (fun t : State => (t.dg.readBytes 0 4, t.dlen))
      (after .dbOut { State.reset with hb := State.reset.hb.set 0 0x0807060504030201, hbl := 3, dg := [(3, 9)] }) =
        ([1, 2, 3, 0], 3) := by decide +kernel

theorem test_db_hash_abc :
    (fun t : State => (t.dg.readBytes 0 4, t.dg.readBytes 28 6, t.dlen, t.hbl))
      (dbHashEnd toy 32 (withMessage [0x61, 0x62, 0x63] State.reset)).report =
        ([0xBD, 0xDD, 0x81, 0x3C], [0x68, 0xD5, 0x23, 0x19, 0, 0], 32, 32) := by decide +kernel

theorem test_db_hash_arg_before_bounds :
    ((dbHashEnd toy 65 { State.reset with mlen := 4097 }).report.cause,
      (dbHashEnd toy 32 { State.reset with mlen := 4097 }).report.cause) = (4, 5) := by decide +kernel

theorem test_db_hashd_empty :
    (fun t : State => (t.dg.readBytes 0 4, t.dg.readBytes 28 4, t.dlen, t.hbl)) (dbHashdEnd toy 32 State.reset).report =
      ([0x0E, 0x57, 0x51, 0xC0], [0xF1, 0x2F, 0xE3, 0xA8], 32, 32) := by decide +kernel

theorem test_pinf : (after (.pinf 3) (withP 3 6 12 State.reset)).points[3] = PointReg.infinity := by decide

theorem test_pldg : (after (.pldg 0) State.reset).points[0] = { inf := false, x := 1, y := 5 } := by decide

theorem test_pset_stores_unreduced :
    (after (.pset 1 1 2) (withS [(1, 30), (2, 34)] State.reset)).points[1] = { inf := false, x := 30, y := 34 } := by
  decide +kernel

theorem test_pgetx : (after (.pgetx 0 1) (withP 1 30 34 State.reset)).scalar 0 = 30 := by decide +kernel

theorem test_pgetx_of_infinity :
    (fun t : State => (t.cause, t.scalar 0)) (after (.pgetx 0 2) (withS [(0, 6)] State.reset)) = (7, 6) := by
  decide +kernel

theorem test_pgety : (after (.pgety 0 1) (withP 1 30 34 State.reset)).scalar 0 = 34 := by decide +kernel

theorem test_pisinf :
    ((after (.pisinf 0 5) State.reset).scalar 0, (after (.pisinf 0 1) (withP 1 0 0 State.reset)).scalar 0) = (1, 0) := by
  decide +kernel

theorem test_padd_chord :
    (after (.padd 2 0 1) (withP 0 1 5 (withP 1 4 19 State.reset))).point 2 = .finite 20 3 := by decide +kernel

theorem test_padd_passes_unreduced :
    (after (.padd 2 0 1) (withP 1 30 34 State.reset)).point 2 = .finite 30 34 := by decide +kernel

theorem test_pdbl_tangent : (after (.pdbl 1 0) (withP 0 1 5 State.reset)).point 1 = .finite 4 19 := by decide +kernel

theorem test_pdbl_vertical : (after (.pdbl 1 0) (withP 0 5 0 State.reset)).point 1 = .inf := by decide +kernel

theorem test_pmul_largest_scalar :
    (after (.pmul 2 3 0) (withS [(3, 2 ^ 64 - 1)] (withP 0 1 5 State.reset))).point 2 = .finite 10 25 := by
  decide +kernel

theorem test_pmul_off_curve :
    (after (.pmul 2 3 0) (withS [(3, 3)] (withP 0 5 0 State.reset))).point 2 = .finite 5 0 := by decide +kernel

/-- `(5, 0)` is its own negative, so 3 times it is itself; a multiple by 1 is the point as given, unreduced too. -/
theorem test_binary_method_off_curve :
    binaryMultiple (.finite 5 0) 3 = .finite 5 0 ∧ binaryMultiple (.finite 30 34) 1 = .finite 30 34 := by
  decide +kernel

/-- `abcdefghZZZ`: the bytes after the eighth are ignored. -/
theorem test_hred_none :
    (hredEnd toy 0 .noHash (withMessage [0x61, 0x62, 0x63, 0x64, 0x65, 0x66, 0x67, 0x68, 0x5A, 0x5A, 0x5A]
      State.reset)).report.scalar 0 = 25 := by decide +kernel

theorem test_hred_ab :
    (fun t : State => (t.scalar 0, t.dlen, t.hbl, t.ha[0]))
      (hredEnd toy 0 .hashAB (withMessage [0x61, 0x62, 0x63] State.reset)).report = (8, 32, 32, 0xE0AD8D93) := by
  decide +kernel

theorem test_keygen :
    (fun t : State => (t.scalar 3, t.point 1, t.rng.queued)) (after (.keygen 3 1) (withDraws [7, 9] State.reset)) =
      (7, .finite 24 22, [9]) := by decide +kernel

theorem test_keygen_draw_out_of_range :
    (fun t : State => (t.cause, t.scalar 3, t.rng.queued)) (after (.keygen 3 1) (withDraws [37, 9] State.reset)) =
      (8, 0, [9]) := by decide +kernel

/-- The first 8 bytes of the spec's message `S8`: variant 0 reads no more of it (`e = 36`). -/
def s8Head : List Byte := [0x7B, 0x22, 0x68, 0x6F, 0x6C, 0x64, 0x65, 0x72]

theorem test_sign_retries :
    (fun t : State => (t.cause, t.att, t.scalar 4, t.scalar 5, t.rng.queued))
      (signEnd toy 4 5 6 .noHash (withS [(6, 7)] (withDraws [13, 24, 3] (withMessage s8Head State.reset)))).report =
        (0, 3, 20, 34, []) := by decide +kernel

theorem test_sign_bad_draw :
    (fun t : State => (t.cause, t.att, t.scalar 4, t.rng.queued))
      (signEnd toy 4 5 6 .noHash (withS [(6, 7)] (withDraws [16, 37, 3] (withMessage s8Head State.reset)))).report =
        (8, 2, 0, [3]) := by decide +kernel

/-- The draws below 38 that make an attempt retry for `e = 36`, `d = 7` (`95_test_vectors.md` section 2.6). -/
theorem test_signRetries :
    ((List.range 38).filter fun k => signRetries 36 7 (BitVec.ofNat 64 k)) = [13, 16, 21, 24] := by decide +kernel

theorem test_verify :
    (fun f => (f 34, f 3, f 33, f 37)) (fun sg : Nat =>
      (verifyEnd toy 9 4 5 1 .noHash
        (withS [(4, 20), (5, sg), (9, 99)] (withP 1 24 22 (withMessage s8Head State.reset)))).report.scalar 9) =
        (1, 1, 0, 0) := by decide +kernel

/-- `r = 0` is answered before hashing: `DLEN` stays 0. -/
theorem test_verify_rejects_before_hashing :
    (fun t : State => (t.scalar 9, t.cause, t.dlen))
      (verifyEnd toy 9 4 5 1 .hashA (withS [(4, 0), (5, 34), (9, 99)] State.reset)).report = (0, 0, 0) := by
  decide +kernel

/-! ### The host port -/

theorem test_read_scalar : (withS [(15, 77)] State.reset).hostReadReg 0x01F = 77 := by decide +kernel

theorem test_write_hbl_too_large : (State.reset.writePlace 65 .hbl).hbl = 0 := by decide

theorem test_write_point_flag :
    (State.reset.writePlace 0xFE (regPlace 0x02C)).points[3] = { inf := false, x := 0, y := 0 } := by decide +kernel

/-- The high half of the data of a `CMD` write is ignored (`46_system.md` R286). -/
theorem test_step_issues_low_word :
    step (withOp (.writeReg 0 0xFFFFFFFF00000000) State.reset) = .next State.reset := rfl

theorem test_step_runs_fetch_word :
    step (State.reset.withFetchWord 32 0x41000000) = exec (.pldg 0) State.reset := rfl

/-- `30_encoding.md` R80, R82. -/
theorem test_assemble_sign : asmLine "SIGN s4, s5, s3, none" = some [issueOp 0x61453000] := by decide +kernel

theorem test_assemble_pmov : asmLine "PMOV p1, p2" = some [issueOp 0x40100000, issueOp 0x46112000] := by
  decide +kernel

/-! ### Witnesses: concrete operands that meet the hypotheses of each statement that has any, clause by clause -/

/-- The last offsets at which a block still fits, and the first at which it does not: `MBSIZE - n`. -/
def fromEnd (n : Nat) : State := withS [(1, Config.core.mbsize - n)] State.reset

theorem fromEnd_scalar (n : Nat) : (fromEnd n).scalars[(1 : SReg)].toNat = Config.core.mbsize - n := by
  have h := Config.core_legal.upper
  show (BitVec.ofNat 64 (Config.core.mbsize - n)).toNat = _
  rw [BitVec.toNat_ofNat, Nat.mod_eq_of_lt (by omega)]

/-- A message that fills `MB`, and one that is one byte too long. -/
def lengthBeyond (n : Nat) : State := { State.reset with mlen := BitVec.ofNat 64 (Config.core.mbsize + n) }

theorem lengthBeyond_mlen (n : Nat) (hn : n ≤ 1) : (lengthBeyond n).mlen.toNat = Config.core.mbsize + n := by
  have h := Config.core_legal.upper
  show (BitVec.ofNat 64 (Config.core.mbsize + n)).toNat = _
  rw [BitVec.toNat_ofNat, Nat.mod_eq_of_lt (by omega)]

theorem witness_DecodeInvertsEncode : (Instr.verify 15 15 15 7 .hashAB).wellFormed = true := by decide

theorem witness_EncodeInvertsDecode : decode 0x62FFF703 = .command (.verify 15 15 15 7 .hashAB) := by decide

theorem witness_DecodeFollowsMaskAndMatch :
    decode 0x61EF3003 = .command (.sign 14 15 3 .hashAB) ∧
    (0x61EF3003#32 &&& rowMask (.sign 14 15 3 .hashAB) = rowMatch (.sign 14 15 3 .hashAB) ∧
      f0Field 0x61EF3003 ≠ f1Field 0x61EF3003) ∧
    (0x61FF3003#32 &&& rowMask (.sign 15 15 3 .hashAB) = rowMatch (.sign 15 15 3 .hashAB) ∧
      (Instr.sign 15 15 3 .hashAB).mnemonic = "SIGN" ∧ f0Field 0x61FF3003 = f1Field 0x61FF3003) := by decide

theorem witness_DecodeFollowsMaskAndMatch_no_row (j : Instr) : 0xFF000000#32 &&& rowMask j ≠ rowMatch j := by
  cases j <;> (simp only [rowMask, rowMatch]; decide)

theorem witness_StepIssuesDecodedCommand :
    (withOp (.writeReg 0 0xFFFFFFFF41700000) State.reset).port.pending = [.writeReg 0 0xFFFFFFFF41700000] ∧
      decode ((0xFFFFFFFF41700000#64).setWidth 32) = .command (.pldg 7) ∧ (Instr.pldg 7).wellFormed = true := by decide

theorem witness_IllegalWordOnlyReports :
    (withOp (.writeReg 0 0x61443000) State.reset).port.pending = [.writeReg 0 0x61443000] ∧
      decode ((0x61443000#64).setWidth 32) = .illegal .signSameRegister := by decide

theorem witness_IdleStepKeepsState : (withS [(1, 5)] State.reset).port.pending = [] := by decide

theorem witness_HostReadReturnsRegisterTable (idx : BitVec 12) :
    (withOp (.readReg idx) State.reset).port.pending = [.readReg idx] := rfl

/-- The first and last index of each range of the register table. -/
theorem witness_register_indices :
    (0x010#12).toNat = 0x010 + (0 : Fin 16).val ∧ (0x01F#12).toNat = 0x010 + (15 : Fin 16).val ∧
    (0x020#12).toNat = 0x020 + 4 * (0 : Fin 8).val ∧ (0x03C#12).toNat = 0x020 + 4 * (7 : Fin 8).val ∧
    (0x021#12).toNat = 0x021 + 4 * (0 : Fin 8).val ∧ (0x03D#12).toNat = 0x021 + 4 * (7 : Fin 8).val ∧
    (0x022#12).toNat = 0x022 + 4 * (0 : Fin 8).val ∧ (0x03E#12).toNat = 0x022 + 4 * (7 : Fin 8).val ∧
    (0x023#12).toNat = 0x023 + 4 * (0 : Fin 8).val ∧ (0x03F#12).toNat = 0x023 + 4 * (7 : Fin 8).val ∧
    (0x040#12).toNat = 0x040 + (0 : Fin 4).val ∧ (0x043#12).toNat = 0x040 + (3 : Fin 4).val ∧
    (0x048#12).toNat = 0x048 + (0 : Fin 8).val ∧ (0x04F#12).toNat = 0x048 + (7 : Fin 8).val ∧
    0x008 ≤ (0x008#12).toNat ∧ (0x00F#12).toNat < 0x010 ∧ 0x044 ≤ (0x044#12).toNat ∧ (0x047#12).toNat < 0x048 ∧
    0x050 ≤ (0x050#12).toNat ∧ 0x050 ≤ (0xFFF#12).toNat := by decide

theorem witness_HostWriteChangesOneRegister (v : W64) :
    (0x007#12) ≠ 0 ∧ (withOp (.writeReg 0x007 v) State.reset).port.pending = [.writeReg 0x007 v] ∧
      (64#64).toNat ≤ 64 ∧ ¬ (65#64).toNat ≤ 64 ∧ (0x020#12).toNat % 4 = 0 ∧ (0x03D#12).toNat % 4 = 1 ∧
      (0x03E#12).toNat % 4 = 2 ∧ (0x03F#12).toNat % 4 = 3 := ⟨by decide, rfl, by decide⟩

theorem witness_HostBufferAccessMovesOneByte (i : Nat) (b : Byte) :
    (withOp (.writeMB i b) State.reset).mb.wf = true ∧
    (withOp (.writeMB i b) State.reset).port.pending = [.writeMB i b] ∧
    (withOp (.readMB i) State.reset).port.pending = [.readMB i] ∧
    (withOp (.readDG i) State.reset).port.pending = [.readDG i] := ⟨rfl, rfl, rfl, rfl⟩

theorem witness_HostResetRestoresResetState :
    (withOp .reset (withS [(1, 5)] State.reset)).port.pending = [.reset] := by decide

/-- A state far from reset: data in both buffers, registers at their largest legal values, an error reported, a
command pending. -/
def busy : State := { withOp (.writeReg 0 0x33000020) State.reset with
  mb := [(0, 1), (127, 2)], dg := [(0, 5), (63, 6)], dlen := 64, hbl := 64, att := 100, cause := 8, status := 1
  esticky := 0x1FE }

theorem witness_StepKeepsInvariant : busy.Inv ∧ ∃ t, step busy = .next t := by
  refine ⟨⟨rfl, ?_, rfl, rfl, by decide, ?_, by decide, by decide, by decide, by decide, by decide, by decide⟩, _, rfl⟩
  · have := Config.core_mbsize_ge
    show Memory.below [(0, 1), (127, 2)] Config.core.mbsize = true
    simp only [Memory.below, List.all_cons, List.all_nil, Bool.and_true, Bool.and_eq_true, decide_eq_true_eq]
    omega
  · intro i hi
    have hi : 64 ≤ i := hi
    show Memory.read [(0, 5), (63, 6)] i = 0
    rw [Memory.read, if_neg (by omega), Memory.read, if_neg (by omega), Memory.read]
    rfl

theorem witness_FailedCommandChangesOnlyReport :
    (exec (.modinv 0 1 2) State.reset = .next (failed State.reset 6) ∧ (failed State.reset 6).cause ≠ 0) ∧
    (∃ t, exec (.keygen 3 1) (withDraws [37] State.reset) = .next t ∧ t.cause ≠ 0) :=
  ⟨⟨rfl, by decide⟩, _, rfl, by decide⟩

/-- SIGN from an empty message: `e = 1`; with the draws the caller gives. -/
def signing (draws : List Nat) : State := withS [(6, 7)] (withDraws draws (withP 1 24 22 State.reset))

theorem signing_messageOk (draws : List Nat) : (signing draws).messageOk Config.core = true := by
  show decide (0 ≤ Config.core.mbsize) = true
  exact decide_eq_true (Nat.zero_le _)

/-- SIGN of the empty message under variant 0, with the bounds check and the reducer out of the way. -/
theorem signing_exec (draws : List Nat) : exec (.sign 4 5 6 .noHash) (signing draws) = .next (CommandEnd.report
    (match signLoop Config.curveDs1 7 1 100 0 (signing draws).rng with
      | .failed att g c => .raises c (((signing draws).setRng g).setAtt att)
      | .accepted att g r sg =>
        .completes (((((signing draws).setRng g).setAtt att).setScalar 4 (toSW r)).setScalar 5 (toSW sg)))) := by
  show Host.Outcome.next (signEnd Config.core 4 5 6 .noHash (signing draws)).report = _
  rw [signEnd, if_pos (signing_messageOk draws)]
  rfl

/-- A bad draw (cause 8), and a message one byte too long (cause 5). -/
theorem witness_FailedCommandChangesOnlyReport_sign :
    (∃ t, exec (.sign 4 5 6 .noHash) (signing [16, 37]) = .next t ∧ t.cause = 8) ∧
    (∃ t, exec (.sign 4 5 6 .hashAB) (lengthBeyond 1) = .next t ∧ t.cause = 5) := by
  refine ⟨⟨_, signing_exec _, by decide +kernel⟩, _, rfl, ?_⟩
  rw [signEnd, if_neg]
  · rfl
  · unfold State.messageOk
    rw [lengthBeyond_mlen 1 le_rfl]
    simp

theorem witness_CommandsWriteOnlyTheirDestinations : exec .nop busy = .next (completed busy) := rfl

theorem witness_DrawsPerCommand :
    (∃ t, exec (.keygen 3 1) (withDraws [36] State.reset) = .next t) ∧
    (∃ t, exec (.sign 4 5 6 .noHash) (signing [3]) = .next t) ∧ (signing [3]).mlen.toNat ≤ Config.core.mbsize ∧
    Config.core.mbsize < (lengthBeyond 1).mlen.toNat ∧ (∃ t, exec (.sign 4 5 6 .noHash) (lengthBeyond 1) = .next t) ∧
    (Instr.keygen 3 1).mnemonic = "KEYGEN" ∧ (Instr.sign 4 5 6 .noHash).mnemonic = "SIGN" ∧
    Instr.nop.mnemonic ≠ "KEYGEN" ∧ Instr.nop.mnemonic ≠ "SIGN" :=
  ⟨⟨_, rfl⟩, ⟨_, rfl⟩, Nat.zero_le _, by rw [lengthBeyond_mlen 1 le_rfl]; omega, ⟨_, rfl⟩, by decide⟩

/-- Both ways, at the lowest and the highest sticky bit. -/
theorem witness_ClreAloneClearsSticky :
    (∃ t, step (withOp .reset busy) = .next t ∧ t.esticky.getLsbD 1 = false ∧ t.esticky.getLsbD 8 = false) ∧
    (∃ t, step (withOp (.writeReg 0 0x01000000) busy) = .next t ∧ t.esticky.getLsbD 1 = false ∧
      t.esticky.getLsbD 8 = false) ∧
    busy.esticky.getLsbD 1 = true ∧ busy.esticky.getLsbD 8 = true :=
  ⟨⟨_, rfl, by decide⟩, ⟨_, rfl, by decide⟩, by decide⟩

/-- Each clause on `v` at a boundary, for `m = 29`; and `m = 1`. -/
theorem witness_ModAtEverySign :
    1 ≤ 29 ∧ (0 < (1 : Int) ∧ (1 : Int) < 29) ∧ (0 < (28 : Int) ∧ (28 : Int) < 29) ∧ (29 : Int) < 30 ∧
      (-29 < (-1 : Int) ∧ (-1 : Int) < 0) ∧ (-29 < (-28 : Int) ∧ (-28 : Int) < 0) ∧ (-30 : Int) < -29 := by decide

theorem witness_ModredWritesTheResidue :
    (withS [(2, 29)] State.reset).scalars[(2 : SReg)].toNat ≠ 0 := by decide +kernel

theorem witness_ModmulWritesTheResidueOfTheExactProduct :
    (withS [(4, 2 ^ 64 - 1)] State.reset).scalars[(4 : SReg)].toNat ≠ 0 := by decide +kernel

theorem witness_ModinvWritesTheInverse :
    (fun s : State => s.scalars[(2 : SReg)].toNat ≠ 0 ∧ Int.gcd s.scalars[(1 : SReg)].toInt s.scalars[(2 : SReg)].toNat = 1)
      (withS [(1, 2 ^ 64 - 3), (2, 29)] State.reset) := by decide +kernel

theorem witness_ModularArithmeticErrors :
    State.reset.scalars[(2 : SReg)] = 0 ∧
    (fun s : State => s.scalars[(2 : SReg)] ≠ 0 ∧ Int.gcd s.scalars[(1 : SReg)].toInt s.scalars[(2 : SReg)].toNat ≠ 1)
      (withS [(1, 58), (2, 29)] State.reset) := by decide +kernel

theorem witness_DaCmpCompressesOneBlock :
    (fromEnd 64).scalars[(1 : SReg)].toNat + 64 ≤ Config.core.mbsize := by
  have := Config.core_mbsize_ge
  rw [fromEnd_scalar]
  omega

theorem witness_DaOutWritesBigEndianDigest : busy.dg.wf = true := by decide

theorem witness_PaddingOfDigestA :
    ([] : List Byte).length < 2 ^ 29 ∧ (List.replicate 55 (0x61 : Byte)).length < 2 ^ 29 ∧
      (List.replicate 56 (0x61 : Byte)).length < 2 ^ 29 := by simp

theorem witness_DaHashChainsTheBlocks :
    (lengthBeyond 0).mlen.toNat ≤ Config.core.mbsize ∧ (lengthBeyond 0).dg.wf = true :=
  ⟨by rw [lengthBeyond_mlen 0 (by omega)]; omega, rfl⟩

/-- The padded message `abc` (`95_test_vectors.md` section 2.2) in `MB`, its length in `MLEN`. -/
def paddedAbc : State := { State.reset with mb := [(0, 0x61), (1, 0x62), (2, 0x63), (3, 0x80), (63, 0x18)], mlen := 3 }

theorem witness_DigestABlockByBlockIsDigestA :
    paddedAbc.mlen.toNat ≤ 55 ∧ paddedAbc.scalars[(1 : SReg)].toNat + 64 ≤ Config.core.mbsize ∧
      paddedAbc.mb.readBytes paddedAbc.scalars[(1 : SReg)].toNat 64 = padA (paddedAbc.mb.readBytes 0 paddedAbc.mlen.toNat) :=
  ⟨by decide, by have := Config.core_mbsize_ge; show 0 + 64 ≤ _; omega, by decide +kernel⟩

theorem witness_DbInitLoadsTheInitialState :
    (1 ≤ (1#8).toNat ∧ (1#8).toNat ≤ 64) ∧ (1 ≤ (64#8).toNat ∧ (64#8).toNat ≤ 64) := by decide

theorem witness_MixingFunctionG :
    (0 : Fin 16) ≠ 4 ∧ (0 : Fin 16) ≠ 8 ∧ (0 : Fin 16) ≠ 12 ∧ (4 : Fin 16) ≠ 8 ∧ (4 : Fin 16) ≠ 12 ∧
      (8 : Fin 16) ≠ 12 := by decide

theorem witness_DbCmpCompressesOneBlock :
    (fromEnd 128).scalars[(1 : SReg)].toNat + 128 ≤ Config.core.mbsize := by
  have := Config.core_mbsize_ge
  rw [fromEnd_scalar]
  omega

theorem witness_DbOutWritesLittleEndianDigest :
    busy.dg.wf = true ∧ 1 ≤ busy.hbl.toNat ∧ busy.hbl.toNat ≤ 64 ∧
      (fun s : State => s.dg.wf = true ∧ 1 ≤ s.hbl.toNat ∧ s.hbl.toNat ≤ 64) { busy with hbl := 1 } := by decide

/-- The empty message, messages of 1 and 127 bytes (no multiple of 128) and of 128 (a multiple), and one that fills
`MB`. -/
theorem witness_DbHashChainsTheBlocks :
    1 ≤ (64#8).toNat ∧ (64#8).toNat ≤ 64 ∧ State.reset.mlen.toNat ≤ Config.core.mbsize ∧ State.reset.dg.wf = true ∧
      (lengthBeyond 0).mlen.toNat ≤ Config.core.mbsize ∧ (lengthBeyond 0).dg.wf = true ∧
      (∀ n : Nat, n = 1 ∨ n = 127 ∨ n = 128 → n ≤ Config.core.mbsize ∧ n ≠ 0 ∧ (n % 128 = 0 ↔ n = 128) ∧
        ({ State.reset with mlen := BitVec.ofNat 64 n } : State).mlen.toNat = n) := by
  have := Config.core_mbsize_ge
  refine ⟨by decide, by decide, Nat.zero_le _, rfl, by rw [lengthBeyond_mlen 0 (by omega)]; omega, rfl, ?_⟩
  rintro n (rfl | rfl | rfl) <;> exact ⟨by omega, by omega, by omega, rfl⟩

theorem witness_DbHashdHashesTheDigestBuffer :
    1 ≤ (32#8).toNat ∧ (32#8).toNat ≤ 64 ∧ (busy.dlen.toNat ≤ 64 ∧ busy.dg.wf = true) ∧
      State.reset.dlen.toNat ≤ 64 ∧ State.reset.dg.wf = true := by decide

theorem witness_DigestBBlockByBlockIsDigestB :
    (fun s : State => s.mlen.toNat ≤ 127 ∧ s.scalars[(2 : SReg)] = s.mlen ∧
      s.mb.readBytes s.scalars[(1 : SReg)].toNat 128 = s.mb.readBytes 0 s.mlen.toNat ++ zeros (128 - s.mlen.toNat))
      (withS [(2, 3)] (withMessage [0x61, 0x62, 0x63] State.reset)) ∧
    (withS [(2, 3)] (withMessage [0x61, 0x62, 0x63] State.reset)).scalars[(1 : SReg)].toNat + 128 ≤
      Config.core.mbsize ∧ 1 ≤ (32#8).toNat ∧ (32#8).toNat ≤ 64 :=
  ⟨by decide +kernel, by have := Config.core_mbsize_ge; show 0 + 128 ≤ _; omega, by decide⟩

theorem witness_BoundsErrors :
    Config.core.mbsize < (fromEnd 63).scalars[(1 : SReg)].toNat + 64 ∧
    Config.core.mbsize < (fromEnd 127).scalars[(1 : SReg)].toNat + 128 ∧
    Config.core.mbsize < (lengthBeyond 1).mlen.toNat ∧ 1 ≤ (64#8).toNat ∧ (64#8).toNat ≤ 64 := by
  have := Config.core_mbsize_ge
  rw [fromEnd_scalar, fromEnd_scalar, lengthBeyond_mlen 1 le_rfl]
  exact ⟨by omega, by omega, by omega, by decide, by decide⟩

theorem witness_DigestLengthErrors :
    (0#8).toNat = 0 ∧ 64 < (65#8).toNat ∧ 64 < (255#8).toNat ∧ State.reset.hbl = 0 := by decide

theorem witness_PointReads :
    (withP 1 30 34 State.reset).points[(1 : PReg)].inf = false ∧ State.reset.points[(1 : PReg)].inf = true := by decide

theorem witness_PaddWithInfinity :
    (fun s : State => s.points[(0 : PReg)].inf = true ∧ s.points[(1 : PReg)].inf = false)
      (withP 1 30 34 State.reset) := by decide

theorem witness_PaddCancels :
    (fun s : State => s.points[(0 : PReg)].inf = false ∧ s.points[(1 : PReg)].inf = false ∧
      s.points[(0 : PReg)].x.toNat % 29 = s.points[(1 : PReg)].x.toNat % 29 ∧
      s.points[(0 : PReg)].y.toNat % 29 ≠ s.points[(1 : PReg)].y.toNat % 29)
      (withP 0 1 5 (withP 1 30 24 State.reset)) ∧
    (fun s : State => s.points[(0 : PReg)].inf = false ∧ s.points[(0 : PReg)].y.toNat % 29 = 0)
      (withP 0 5 29 State.reset) := by decide

theorem witness_PaddChordAndTangent :
    (fun s : State => s.points[(0 : PReg)].inf = false ∧ s.points[(1 : PReg)].inf = false ∧
      s.points[(0 : PReg)].x.toNat % 29 ≠ s.points[(1 : PReg)].x.toNat % 29)
      (withP 0 1 5 (withP 1 4 19 State.reset)) ∧
    (fun s : State => s.points[(0 : PReg)].inf = false ∧ s.points[(1 : PReg)].inf = false ∧
      s.points[(0 : PReg)].x.toNat % 29 = s.points[(1 : PReg)].x.toNat % 29 ∧
      s.points[(0 : PReg)].y.toNat % 29 = s.points[(1 : PReg)].y.toNat % 29 ∧ s.points[(0 : PReg)].y.toNat % 29 ≠ 0)
      (withP 0 1 5 (withP 1 30 34 State.reset)) := by decide

theorem witness_PdblDoubles :
    State.reset.points[(0 : PReg)].inf = true ∧ (withP 0 5 29 State.reset).points[(0 : PReg)].y.toNat % 29 = 0 ∧
      (withP 0 1 5 State.reset).points[(0 : PReg)].inf = false ∧
      (withP 0 1 5 State.reset).points[(0 : PReg)].y.toNat % 29 ≠ 0 := by decide

/-- On the curve; the first clause has no hypothesis: see `test_binary_method_off_curve`. -/
theorem witness_PmulIsRepeatedAddition :
    onCurve (pointOf (withP 0 27 27 State.reset).points[(0 : PReg)]) = true ∧
      onCurve (pointOf State.reset.points[(0 : PReg)]) = true ∧
      onCurve (pointOf (withP 0 30 34 State.reset).points[(0 : PReg)]) = false := by decide +kernel

theorem witness_GroupCommandsAlwaysComplete :
    (fun s : State => s.scalars[(0 : SReg)] = 0 ∧ s.scalars[(1 : SReg)] = 1 ∧ s.scalars[(2 : SReg)] = 2 ∧
      s.points[(0 : PReg)].inf = true ∧ s.points[(1 : PReg)].inf = false)
      (withS [(1, 1), (2, 2)] (withP 1 30 34 State.reset)) := by decide +kernel

theorem witness_GroupCommandsStayOnTheCurve :
    (∀ p : PReg, onCurve (pointOf (withP 1 27 27 State.reset).points[p]) = true) ∧
      (∃ t, exec (.padd 0 1 1) (withP 1 27 27 State.reset) = .next t) := ⟨by decide +kernel, _, rfl⟩

theorem witness_PmovCopiesThePoint : (6 : PReg) ≠ 7 := by decide

theorem witness_HredNoneReducesTheFirstBytes :
    State.reset.mlen.toNat ≤ Config.core.mbsize ∧ (lengthBeyond 0).mlen.toNat ≤ Config.core.mbsize :=
  ⟨Nat.zero_le _, by rw [lengthBeyond_mlen 0 (by omega)]; omega⟩

theorem witness_HredPerformsTheDigestCommands : (lengthBeyond 0).mlen.toNat ≤ Config.core.mbsize := by
  rw [lengthBeyond_mlen 0 (by omega)]; omega

theorem witness_KeygenMakesAKeyPair :
    (withDraws [36, 9] State.reset).rng.queued = [36, 9] ∧ 1 ≤ (1#64).toNat ∧ (36#64).toNat ≤ 36 ∧
      (0#64).toNat = 0 ∧ 37 ≤ (37#64).toNat := by decide

/-- SIGN of the head of `S8` with the key 7: `e = 36`, with the draws the caller gives. -/
def signingS8 (draws : List Nat) : State := withS [(6, 7)] (withDraws draws (withMessage s8Head State.reset))

theorem signingS8_mlen (draws : List Nat) : (signingS8 draws).mlen.toNat ≤ Config.core.mbsize := by
  have h : (signingS8 draws).mlen = 8#64 := by
    show (withMessage s8Head State.reset).mlen = 8#64
    decide +kernel
  have := Config.core_mbsize_ge
  rw [h, show (8#64).toNat = 8 from rfl]
  omega

/-- The private key and the reduced message of `signingS8` do not depend on the draws. -/
theorem signingS8_reduced (draws : List Nat) :
    ((signingS8 draws).reduce Config.core .noHash).1 = 36 ∧ (signingS8 draws).scalars[(6 : SReg)].toNat = 7 := by
  refine ⟨?_, rfl⟩
  show redNone Config.core.curve.n ((signingS8 draws).mb.readBytes 0 (min (signingS8 draws).mlen.toNat 8)) = 36
  rw [show (signingS8 draws).mb = (withMessage s8Head State.reset).mb from rfl,
    show (signingS8 draws).mlen = (withMessage s8Head State.reset).mlen from rfl]
  decide +kernel

/-- A retry by `r = 0` and two by `s = 0`, then `k = 3`: `e = 36`, `d = 7`, `r = 20`, `s = 34`. -/
theorem witness_SignAcceptsAfterRetries :
    (4 : SReg) ≠ 5 ∧ (signingS8 [16, 13, 24, 3, 9]).mlen.toNat ≤ Config.core.mbsize ∧
    ([16, 13, 24] : List W64).length < 100 ∧
    (∀ b ∈ ([16, 13, 24] : List W64), signRetries ((signingS8 [16, 13, 24, 3, 9]).reduce Config.core .noHash).1
      (signingS8 [16, 13, 24, 3, 9]).scalars[(6 : SReg)].toNat b = true) ∧
    (signingS8 [16, 13, 24, 3, 9]).rng.queued = [16, 13, 24] ++ 3 :: [9] ∧ repeatedSum baseG 3 = .finite 20 3 ∧
    3 * 34 % 37 = (((signingS8 [16, 13, 24, 3, 9]).reduce Config.core .noHash).1 +
      (signingS8 [16, 13, 24, 3, 9]).scalars[(6 : SReg)].toNat * 20) % 37 ∧
    1 ≤ (3#64).toNat ∧ (3#64).toNat ≤ 36 := by
  refine ⟨by decide, signingS8_mlen _, by decide, ?_, rfl, by decide +kernel, ?_, by decide⟩
  · rw [(signingS8_reduced _).1, (signingS8_reduced _).2]
    exact List.all_eq_true.1 (by decide +kernel)
  · rw [(signingS8_reduced _).1, (signingS8_reduced _).2]

/-- A hundred retries, by `s = 0` and by `r = 0`; ninety-nine by `s = 0`, then the bad draw 37; none, then 0. -/
theorem witness_SignFailsByExhaustionOrBadDraw :
    (∀ draws, (signingS8 draws).mlen.toNat ≤ Config.core.mbsize ∧
      ∀ bad ∈ [List.replicate 50 (13 : W64) ++ List.replicate 50 (16 : W64), List.replicate 99 (24 : W64), []],
        ∀ b ∈ bad, signRetries ((signingS8 draws).reduce Config.core .noHash).1
          (signingS8 draws).scalars[(6 : SReg)].toNat b = true) ∧
    (List.replicate 50 (13 : W64) ++ List.replicate 50 (16 : W64)).length = 100 ∧
    (signingS8 (List.replicate 50 13 ++ List.replicate 50 16)).rng.queued =
      (List.replicate 50 13 ++ List.replicate 50 16) ++ [] ∧
    (List.replicate 99 (24 : W64)).length < 100 ∧
    (signingS8 (List.replicate 99 24 ++ [37])).rng.queued = List.replicate 99 24 ++ 37 :: [] ∧
    (signingS8 [0]).rng.queued = [] ++ 0 :: [] := by
  refine ⟨fun draws => ⟨signingS8_mlen _, ?_⟩, by simp, by decide +kernel, by simp, by decide +kernel, rfl⟩
  rw [(signingS8_reduced _).1, (signingS8_reduced _).2]
  simp only [← List.all_eq_true]
  decide +kernel

theorem witness_SignedPairSatisfiesTheEquation :
    (4 : SReg) ≠ 5 ∧ ∃ t, exec (.sign 4 5 6 .noHash) (signing [3]) = .next t ∧ t.cause = 0 :=
  ⟨by decide, _, signing_exec _, by decide +kernel⟩

theorem witness_VerifyRejectsOutOfRange :
    State.reset.mlen.toNat ≤ Config.core.mbsize ∧ State.reset.scalars[(4 : SReg)].toNat = 0 ∧
      37 ≤ (withS [(4, 20), (5, 37)] State.reset).scalars[(5 : SReg)].toNat ∧
      37 ≤ (withS [(4, 0x8000000000000014), (5, 34)] State.reset).scalars[(4 : SReg)].toNat :=
  ⟨Nat.zero_le _, by decide +kernel, by decide +kernel, by decide +kernel⟩

/-- A key on the curve, and the same key unreduced, which the first clause takes as given. -/
theorem witness_VerifyDecidesTheEquation :
    (fun f : State → Prop => f (withS [(4, 36), (5, 1)] (withP 1 24 22 State.reset)) ∧
      f (withS [(4, 36), (5, 1)] (withP 1 53 51 State.reset)))
      (fun s : State => s.mlen.toNat = 0 ∧ 1 ≤ s.scalars[(4 : SReg)].toNat ∧ s.scalars[(4 : SReg)].toNat ≤ 36 ∧
        1 ≤ s.scalars[(5 : SReg)].toNat ∧ s.scalars[(5 : SReg)].toNat ≤ 36 ∧
        s.scalars[(5 : SReg)].toNat * 1 % 37 = 1) ∧
    onCurve (pointOf (withP 1 24 22 State.reset).points[(1 : PReg)]) = true := by decide +kernel

theorem witness_SignThenVerifyIsValid :
    ((signing [3]).dg.wf = true ∧ (4 : SReg) ≠ 5) ∧
    (1 ≤ (signing [3]).scalars[(6 : SReg)].toNat ∧ (signing [3]).scalars[(6 : SReg)].toNat ≤ 36) ∧
    pointOf (signing [3]).points[(1 : PReg)] = repeatedSum baseG (signing [3]).scalars[(6 : SReg)].toNat ∧
    ∃ t, exec (.sign 4 5 6 .noHash) (signing [3]) = .next t ∧ t.cause = 0 :=
  ⟨⟨rfl, by decide⟩, by decide +kernel, by decide +kernel, witness_SignedPairSatisfiesTheEquation.2⟩

end Sys2Proof.Tests
end

section
/-! PROOF. What a command can write, said once (`10_state.md` R41): its data state is reached from the state it
starts in by single writes of its own destinations. The frame of every command and the step of the invariant follow
from it. -/

namespace Sys2Proof.Machine

/-- The data state a command leaves, before the report. -/
def CommandEnd.state : CommandEnd → State
  | .completes s => s
  | .raises _ s => s

/-- One write that command `i` may make: one of its destinations (R41), by an operation of `Ops.lean`, with the bounds
that R25, R28, R29 and R34 put on lengths and on the attempt count. -/
inductive DataWrite (i : Instr) (s : State) : State → Prop
  | scalar {r : SReg} (h : r ∈ scalarDests i) (v : W64) : DataWrite i s (s.setScalar r v)
  | point {p : PReg} (h : p ∈ pointDests i) (P : Point) : DataWrite i s (s.setPoint p P)
  | ha (h : writesHa i = true) (w : Vector W32 4) : DataWrite i s (s.setHa w)
  | hb (h : writesHb i = true) (w : Vector W64 8) : DataWrite i s (s.setHb w)
  | hbl (h : writesHbl i = true) {l : Nat} (hl : l ≤ 64) : DataWrite i s (s.setHbl l)
  | digest (h : writesDigest i = true) {d : List Byte} (hd : d.length ≤ 64) : DataWrite i s (s.setDigest d)
  | att (h : i.mnemonic = "SIGN") {n : Nat} (hn : n ≤ 100) : DataWrite i s (s.setAtt n)
  | rng (h : i.mnemonic = "KEYGEN" ∨ i.mnemonic = "SIGN") (g : Rng) : DataWrite i s (s.setRng g)
  | sticky (h : i = .clre) : DataWrite i s s.clearSticky

/-- A sequence of writes that command `i` may make. -/
abbrev Writes (i : Instr) : State → State → Prop := Relation.ReflTransGen (DataWrite i)

/-! ### The writes of the shared operations -/

/-- A digest B output has at most 64 bytes, whatever length is asked for. -/
theorem bOutput_length_le (h : Vector W64 8) (l : Nat) : (bOutput h l).length ≤ 64 := by
  simp [bOutput, flatMap_length_const le64 8 le64_length]

theorem lengthOk_le {l : Nat} (h : lengthOk l = true) : l ≤ 64 := by
  obtain ⟨-, hle⟩ := (Bool.and_eq_true _ _).mp h
  exact of_decide_eq_true hle

theorem writesHb_of_writesHbl {i : Instr} (h : writesHbl i = true) : writesHb i = true := by simp [writesHb, h]

theorem performDaHash_writes {i : Instr} (ha : writesHa i = true) (hd : writesDigest i = true) (p : DigestAParams)
    (s : State) : Writes i s (s.performDaHash p) :=
  (Relation.ReflTransGen.single (.ha ha _)).tail (.digest hd (by simp))

theorem performDbHash_writes {i : Instr} (hb : writesHbl i = true) (hd : writesDigest i = true) (p : DigestBParams)
    (m : List Byte) {l : Nat} (hl : l ≤ 64) (s : State) : Writes i s (s.performDbHash p m l) :=
  ((Relation.ReflTransGen.single (.hb (writesHb_of_writesHbl hb) _)).tail (.hbl hb hl)).tail
    (.digest hd (bOutput_length_le _ _))

/-- The reducer of a command's variant writes what the variant's digests write (`44_hash_reducers.md` R235). -/
theorem reduce_writes {i : Instr} {v : Variant} (hv : variantUsed i = some v) (cfg : Config) (s : State) :
    Writes i s (s.reduce cfg v).2 := by
  have ha : Variant.usesA v = true → writesHa i = true := fun h => by simp [writesHa, hv, h]
  have hb : Variant.usesB v = true → writesHbl i = true := fun h => by simp [writesHbl, hv, h]
  have hd : v ≠ .noHash → writesDigest i = true := fun h => by simp [writesDigest, hv, h]
  cases v with
  | noHash => exact .refl
  | hashA => exact performDaHash_writes (ha rfl) (hd (by decide)) _ _
  | hashB => exact performDbHash_writes (hb rfl) (hd (by decide)) _ _ (by decide) _
  | hashAB =>
    exact (performDaHash_writes (ha rfl) (hd (by decide)) _ _).trans
      (performDbHash_writes (hb rfl) (hd (by decide)) _ _ (by decide) _)

theorem pointEnd_writes {i : Instr} {pd : PReg} (h : pd ∈ pointDests i) (s : State) (o : Option Point) :
    Writes i s (pointEnd pd s o).state := by
  cases o with
  | none => exact .refl
  | some p => exact .single (.point h p)

theorem keygenEnd_writes (cfg : Config) (rd : SReg) (pq : PReg) (s : State) :
    Writes (.keygen rd pq) s (keygenEnd cfg rd pq s).state := by
  have drawn : Writes (.keygen rd pq) s (s.setRng s.rng.draw.2) := .single (.rng (.inl rfl) _)
  simp only [keygenEnd]
  split_ifs
  · cases pointMultiply cfg.curve s.rng.draw.1.toNat (basePoint cfg.curve) with
    | none => exact drawn
    | some q => exact (drawn.tail (.scalar List.mem_cons_self _)).tail (.point List.mem_cons_self q)
  · exact drawn

/-- SIGN reduces the message, then makes its draws and counts them, then writes the pair (`45_ecdsa.md` R260). -/
theorem signEnd_writes (cfg : Config) (rr rs rk : SReg) (v : Variant) (s : State) :
    Writes (.sign rr rs rk v) s (signEnd cfg rr rs rk v s).state := by
  rcases signEnd_cases cfg rr rs rk v s with ⟨-, h⟩ | ⟨-, n, u, -, hn, rfl, h⟩
  · rw [h]
    exact .refl
  · have reduced : Writes (.sign rr rs rk v) s (s.reduce cfg v).2 := reduce_writes rfl cfg s
    have looped := (reduced.tail
      (.rng (.inr rfl) { queued := s.rng.queued.drop n, index := s.rng.index + n })).tail (.att rfl hn)
    rcases h with ⟨r, sg, k, h, -⟩ | ⟨c, h, -⟩
    · rw [h]
      exact (looped.tail (.scalar List.mem_cons_self _)).tail (.scalar (List.mem_cons_of_mem _ List.mem_cons_self) _)
    · rw [h]
      exact looped

/-! ### Every command -/

/-- Every command leaves a data state that writes of its own destinations lead to (R41). -/
theorem commandEnd_writes (i : Instr) (s : State) : Writes i s (commandEnd i s).state := by
  cases i with
  | nop => exact .refl
  | clre => exact .single (.sticky rfl)
  | modred rd rv rm =>
    simp only [commandEnd, modredEnd]
    split_ifs
    · exact .refl
    · exact .single (.scalar List.mem_cons_self _)
  | modmul rd rx ry rm =>
    simp only [commandEnd, modmulEnd]
    split_ifs
    · exact .refl
    · exact .single (.scalar List.mem_cons_self _)
  | modinv rd rv rm =>
    simp only [commandEnd, modinvEnd]
    split_ifs
    · exact .refl
    · cases modinv (s.sintS rv) (s.uintS rm) with
      | none => exact .refl
      | some x => exact .single (.scalar List.mem_cons_self _)
  | daInit => exact .single (.ha rfl _)
  | daCmp roff =>
    simp only [commandEnd, daCmpEnd]
    split_ifs
    · exact .single (.ha rfl _)
    · exact .refl
  | daOut => exact .single (.digest rfl (by simp))
  | daHash =>
    simp only [commandEnd, daHashEnd]
    split_ifs
    · exact performDaHash_writes rfl rfl _ _
    · exact .refl
  | dbInit len =>
    simp only [commandEnd, dbInitEnd]
    split_ifs with h
    · exact (Relation.ReflTransGen.single (.hb rfl _)).tail (.hbl rfl (lengthOk_le h))
    · exact .refl
  | dbCmp roff rt last =>
    simp only [commandEnd, dbCmpEnd]
    split_ifs
    · exact .single (.hb rfl _)
    · exact .refl
  | dbOut =>
    simp only [commandEnd, dbOutEnd]
    split_ifs
    · exact .refl
    · exact .single (.digest rfl (bOutput_length_le _ _))
  | dbHash len =>
    simp only [commandEnd, dbHashEnd]
    split_ifs with h
    · exact performDbHash_writes rfl rfl _ _ (lengthOk_le h) _
    · exact .refl
    · exact .refl
  | dbHashd len =>
    simp only [commandEnd, dbHashdEnd]
    split_ifs with h
    · exact performDbHash_writes rfl rfl _ _ (lengthOk_le h) _
    · exact .refl
  | pinf pd => exact .single (.point List.mem_cons_self _)
  | pldg pd => exact .single (.point List.mem_cons_self _)
  | pset pd rx ry => exact .single (.point List.mem_cons_self _)
  | pgetx rd pa =>
    simp only [commandEnd, pgetxEnd]
    cases s.point pa with
    | inf => exact .refl
    | finite x y => exact .single (.scalar List.mem_cons_self _)
  | pgety rd pa =>
    simp only [commandEnd, pgetyEnd]
    cases s.point pa with
    | inf => exact .refl
    | finite x y => exact .single (.scalar List.mem_cons_self _)
  | pisinf rd pa => exact .single (.scalar List.mem_cons_self _)
  | padd pd pa pb => exact pointEnd_writes List.mem_cons_self s _
  | pdbl pd pa => exact pointEnd_writes List.mem_cons_self s _
  | pmul pd rk pa => exact pointEnd_writes List.mem_cons_self s _
  | hred rd v =>
    simp only [commandEnd, hredEnd]
    split_ifs
    · exact (reduce_writes rfl _ s).tail (.scalar List.mem_cons_self _)
    · exact .refl
  | keygen rd pq => exact keygenEnd_writes _ rd pq s
  | sign rr rs rk v => exact signEnd_writes _ rr rs rk v s
  | verify rd rr rs pq v =>
    simp only [commandEnd, verifyEnd]
    split_ifs
    · exact (reduce_writes rfl _ s).tail (.scalar List.mem_cons_self _)
    · exact .single (.scalar List.mem_cons_self _)
    · exact .refl

end Sys2Proof.Machine
end

section
/-! PROOF. The frame of every command (O17; `10_state.md` R41): each single write keeps it, so a command's writes keep
it, and the report touches none of its fields. -/

namespace Sys2Proof.Machine

/-- What command `i` leaves as it was in `s` (R26, R27, R34, R41, R290). -/
structure WithinDests (i : Instr) (s t : State) : Prop where
  mb : t.mb = s.mb
  mlen : t.mlen = s.mlen
  port : t.port = s.port
  scalars : ∀ r : SReg, r ∉ scalarDests i → t.scalars[r] = s.scalars[r]
  points : ∀ p : PReg, p ∉ pointDests i → t.points[p] = s.points[p]
  ha : writesHa i = false → t.ha = s.ha
  hb : writesHb i = false → t.hb = s.hb
  hbl : writesHbl i = false → t.hbl = s.hbl
  digest : writesDigest i = false → t.dg = s.dg ∧ t.dlen = s.dlen
  att : i.mnemonic ≠ "SIGN" → t.att = s.att
  rng : i.mnemonic ≠ "KEYGEN" → i.mnemonic ≠ "SIGN" → t.rng = s.rng

theorem WithinDests.refl (i : Instr) (s : State) : WithinDests i s s where
  mb := rfl
  mlen := rfl
  port := rfl
  scalars _ _ := rfl
  points _ _ := rfl
  ha _ := rfl
  hb _ := rfl
  hbl _ := rfl
  digest _ := ⟨rfl, rfl⟩
  att _ := rfl
  rng _ _ := rfl

/-- A write of one destination changes no field but that destination's. -/
theorem DataWrite.withinDests {i : Instr} {s t u : State} (hw : DataWrite i t u) (h : WithinDests i s t) :
    WithinDests i s u := by
  cases hw with
  | scalar hr v =>
    exact { h with
      scalars := fun r' hr' => by
        rw [State.setScalar_getElem, if_neg (ne_of_mem_of_not_mem hr hr'), h.scalars r' hr'] }
  | point hp P =>
    exact { h with
      points := fun p' hp' => by
        rw [State.setPoint_getElem, if_neg (ne_of_mem_of_not_mem hp hp'), h.points p' hp'] }
  | ha hd w => exact { h with ha := fun hn => absurd hd (by simp [hn]) }
  | hb hd w => exact { h with hb := fun hn => absurd hd (by simp [hn]) }
  | hbl hd hl => exact { h with hbl := fun hn => absurd hd (by simp [hn]) }
  | digest hd hl => exact { h with digest := fun hn => absurd hd (by simp [hn]) }
  | att hd hn => exact { h with att := fun hs => absurd hd hs }
  | rng hd g => exact { h with rng := fun hk hs => absurd hd (by simp [hk, hs]) }
  | sticky hc => exact { h with }

theorem Writes.withinDests {i : Instr} {s t : State} (hw : Writes i s t) : WithinDests i s t := by
  induction hw with
  | refl => exact .refl i s
  | tail _ hlast ih => exact hlast.withinDests ih

/-- The report is outside the frame: it writes `STATUS`, `CAUSE` and `ESTICKY` alone (`60_exceptions.md` R303). -/
theorem WithinDests.report {i : Instr} {s : State} (e : CommandEnd) (h : WithinDests i s e.state) :
    WithinDests i s e.report := by
  cases e with
  | completes u => exact { h with }
  | raises c u => exact { h with }

theorem exec_withinDests {i : Instr} {s t : State} (h : exec i s = .next t) : WithinDests i s t := by
  rw [(exec_next_iff i s t).mp h]
  exact .report _ (commandEnd_writes i s).withinDests

/-- Settles O17, from the frame of a command's writes. -/
theorem commandsWriteOnlyTheirDestinations : Obligations.CommandsWriteOnlyTheirDestinations := by
  intro i s t h
  obtain ⟨mb, mlen, port, scalars, points, ha, hb, hbl, digest, att, rng⟩ := exec_withinDests h
  exact ⟨mb, mlen, port, scalars, points, ha, hb, hbl, digest, att, rng⟩

end Sys2Proof.Machine
end

section
/-! PROOF. The reset state and the invariant (O12 to O14). The invariant splits in two: the data part, which every write
of a command keeps, and the report part, which the report of `60_exceptions.md` R303 establishes from any state of the
data part. -/

namespace Sys2Proof.Machine

/-! ### The reset state -/

/-- Settles O12: the reset state holds the values of `10_state.md` R40. -/
theorem resetReadsAsTheTable : Obligations.ResetReadsAsTheTable := by
  refine ⟨fun i => ?scalar, fun i => ?point, fun i => ?ha, fun i => ?hb, rfl, fun _ => rfl, rfl, fun _ => rfl,
    rfl, rfl, rfl, rfl, rfl⟩
  case scalar => simp [State.reset]
  case point => simp [State.reset, PointReg.infinity]
  case ha => simp [State.reset]
  case hb => simp [State.reset]

/-- Settles O13: both buffers are empty lists and every register of the invariant is 0. -/
theorem resetMeetsInvariant : Obligations.ResetMeetsInvariant where
  mb_wf := rfl
  mb_below := rfl
  dg_wf := rfl
  dg_below := rfl
  dlen_le := by decide
  dg_tail _ _ := rfl
  hbl_le := by decide
  att_le := by decide
  cause_le := by decide
  status_iff := by decide
  sticky_zero := rfl
  sticky_cause h := absurd rfl h

/-! ### The data part -/

/-- The part of the invariant that does not speak of `CAUSE` and `STATUS`. -/
structure State.DataInv (s : State) : Prop where
  mb_wf : s.mb.wf = true
  mb_below : s.mb.below Config.core.mbsize = true
  dg_wf : s.dg.wf = true
  dg_below : s.dg.below 64 = true
  dlen_le : s.dlen.toNat ≤ 64
  dg_tail : ∀ i, s.dlen.toNat ≤ i → s.dg.read i = 0
  hbl_le : s.hbl.toNat ≤ 64
  att_le : s.att.toNat ≤ 100
  sticky_zero : s.esticky.getLsbD 0 = false

theorem State.Inv.dataInv {s : State} (h : s.Inv) : s.DataInv := { h with }

/-- A length or count of at most 100 fits a register of 7 bits. -/
theorem toNat_ofNat_seven {n : Nat} (h : n ≤ 100) : (BitVec.ofNat 7 n).toNat = n := by
  rw [BitVec.toNat_ofNat]
  exact Nat.mod_eq_of_lt (by omega)

/-- A digest write leaves `DG` canonical, 64 bytes long and zero from `DLEN` on (R28, R29). -/
theorem State.DataInv.setDigest {s : State} (h : s.DataInv) {d : List Byte} (hd : d.length ≤ 64) :
    (s.setDigest d).DataInv := by
  have hlen : (s.setDigest d).dlen.toNat = d.length := toNat_ofNat_seven (by omega)
  refine { h with
    dg_wf := State.setDigest_wf s d h.dg_wf
    dg_below := State.setDigest_below s d hd h.dg_below
    dlen_le := hlen.trans_le hd
    dg_tail := fun j hj => ?_ }
  rw [hlen] at hj
  rw [State.setDigest_read s d hd h.dg_wf, if_neg (by omega)]
  split_ifs with hin
  · rfl
  · exact Memory.read_of_below _ 64 j h.dg_below (by omega)

/-- No write of a command leaves the data part of the invariant. -/
theorem DataWrite.dataInv {i : Instr} {s t : State} (hw : DataWrite i s t) (h : s.DataInv) : t.DataInv := by
  cases hw with
  | scalar hr v => exact { h with }
  | point hp P => exact { h with }
  | ha hd w => exact { h with }
  | hb hd w => exact { h with }
  | hbl hd hl => exact { h with hbl_le := (toNat_ofNat_seven (by omega)).trans_le hl }
  | digest hd hl => exact h.setDigest hl
  | att hd hn => exact { h with att_le := (toNat_ofNat_seven hn).trans_le hn }
  | rng hd g => exact { h with }
  | sticky hc => exact { h with sticky_zero := by simp }

theorem Writes.dataInv {i : Instr} {s t : State} (hw : Writes i s t) (h : s.DataInv) : t.DataInv := by
  induction hw with
  | refl => exact h
  | tail _ hlast ih => exact hlast.dataInv ih

/-! ### The report part -/

theorem State.DataInv.complete {s : State} (h : s.DataInv) : s.complete.Inv :=
  { h with
    cause_le := Nat.zero_le _
    status_iff := by simp
    sticky_cause := fun hc => absurd rfl hc }

theorem Cause.code_ne_zero (c : Cause) : c.code ≠ 0 := by cases c <;> decide

theorem State.DataInv.raise {s : State} (h : s.DataInv) (c : Cause) : (s.raise c).Inv :=
  { h with
    cause_le := c.code_range.2
    status_iff := iff_of_true rfl c.code_ne_zero
    sticky_zero := by
      have := c.code_range
      rw [State.raise_esticky, stickyWith_getLsbD, h.sticky_zero, Bool.false_or, decide_eq_false_iff_not]
      omega
    sticky_cause := fun _ => by simp [stickyWith_getLsbD] }

theorem State.DataInv.report {e : CommandEnd} (h : e.state.DataInv) : e.report.Inv := by
  cases e with
  | completes s => exact h.complete
  | raises c s => exact h.raise c

/-- Every command keeps the invariant. -/
theorem State.Inv.report_commandEnd {s : State} (h : s.Inv) (i : Instr) : (commandEnd i s).report.Inv :=
  State.DataInv.report ((commandEnd_writes i s).dataInv h.dataInv)

/-! ### The moves of the host -/

theorem State.Inv.withPending {s : State} (h : s.Inv) (l : List HostOp) : (s.withPending l).Inv := { h with }

theorem State.Inv.reply {s : State} (h : s.Inv) (r : HostReply) : (s.reply r).Inv := { h with }

theorem State.Inv.hostReset (s : State) : s.hostReset.Inv := { resetMeetsInvariant with }

/-- A host write of `HBL` above 64 is ignored, and no other register of the invariant is writable (R36). -/
theorem State.Inv.writePlace {s : State} (h : s.Inv) (v : W64) (p : RegPlace) : (s.writePlace v p).Inv := by
  cases p with
  | hbl =>
    rw [State.writePlace]
    split_ifs with hv
    · exact { h with hbl_le := (BitVec.toNat_setWidth 7 v).trans_le ((Nat.mod_le _ _).trans hv) }
    · exact h
  | _ => exact { h with }

/-- A host write beyond `MBSIZE` is ignored (`20_memory.md` R53). -/
theorem State.Inv.hostWriteMB {s : State} (h : s.Inv) (i : Nat) (b : Byte) : (s.hostWriteMB Config.core i b).Inv := by
  rw [State.hostWriteMB]
  split_ifs with hi
  · exact { h with mb_wf := Memory.write_wf _ _ _ h.mb_wf, mb_below := Memory.write_below _ _ _ _ h.mb_below hi }
  · exact h

/-- The state a move ends in, or starts its command from, satisfies `P`. -/
def Move.Leaves (P : State → Prop) : Move → Prop
  | .idle => True
  | .done t => P t
  | .issue _ t => P t

/-- Every host operation keeps the invariant, up to where its command starts. -/
theorem State.Inv.leaves_hostMove {s : State} (h : s.Inv) (op : HostOp) :
    (hostMove Config.core s op).Leaves State.Inv := by
  cases op with
  | readReg idx => exact h.reply _
  | writeReg idx v =>
    rw [hostMove]
    split_ifs
    · cases decode (v.setWidth 32) with
      | command i => exact h.reply _
      | illegal why => exact (h.reply .nothing).dataInv.raise .illegal
    · exact (h.writePlace v _).reply _
  | readMB i => exact h.reply _
  | writeMB i b => exact (h.hostWriteMB i b).reply _
  | readDG i => exact h.reply _
  | reset => exact (State.Inv.hostReset s).reply _

/-- Settles O14: an idle step keeps the state, a host operation keeps the invariant, and so does the command it
issues. -/
theorem stepKeepsInvariant : Obligations.StepKeepsInvariant := by
  intro s t h hstep
  rcases step_cases s t hstep with ⟨-, rfl⟩ | ⟨op, rest, -, hmove⟩
  · exact h
  · have hleaves := (h.withPending rest).leaves_hostMove op
    rcases hmove with ⟨i, u, hissue, rfl⟩ | hdone
    · rw [hissue] at hleaves
      exact State.Inv.report_commandEnd hleaves i
    · rw [hdone] at hleaves
      exact hleaves

end Sys2Proof.Machine
end

section
/-! PROOF. The register table (O8, O9; `10_state.md` R36): which place each index has, and that two indices share only
a reserved place; then what a host read answers and what a host write changes. -/

namespace Sys2Proof.Machine

/-! ### The place of each index -/

theorem regPlace_scalar {idx : BitVec 12} (i : SReg) (h : idx.toNat = 0x010 + i.val) : regPlace idx = .scalar i := by
  have hi : Fin.ofNat 16 (idx.toNat - 0x010) = i := by ext; simp [h]
  rw [regPlace, hi]
  simp (disch := omega) only [if_neg, if_pos]

theorem regPlace_point {idx : BitVec 12} (i : PReg) (k : Nat) (hk : k < 4) (h : idx.toNat = 0x020 + 4 * i.val + k) :
    regPlace idx = pointPlace i k := by
  have hi : Fin.ofNat 8 ((idx.toNat - 0x020) / 4) = i := by ext; simp; omega
  have hm : (idx.toNat - 0x020) % 4 = k := by omega
  rw [regPlace, hi, hm]
  simp (disch := omega) only [if_neg, if_pos]

theorem regPlace_ha {idx : BitVec 12} (i : Fin 4) (h : idx.toNat = 0x040 + i.val) : regPlace idx = .ha i := by
  have hi : Fin.ofNat 4 (idx.toNat - 0x040) = i := by ext; simp [h]
  rw [regPlace, hi]
  simp (disch := omega) only [if_neg, if_pos]

theorem regPlace_hb {idx : BitVec 12} (i : Fin 8) (h : idx.toNat = 0x048 + i.val) : regPlace idx = .hb i := by
  have hi : Fin.ofNat 8 (idx.toNat - 0x048) = i := by ext; simp [h]
  rw [regPlace, hi]
  simp (disch := omega) only [if_neg, if_pos]

/-- The indices outside the table (R36), beside the fourth of each point register's group. -/
theorem regPlace_reserved {idx : BitVec 12}
    (h : (0x008 ≤ idx.toNat ∧ idx.toNat < 0x010) ∨ (0x044 ≤ idx.toNat ∧ idx.toNat < 0x048) ∨ 0x050 ≤ idx.toNat) :
    regPlace idx = .reserved := by
  rw [regPlace]
  simp (disch := omega) only [if_neg]

/-- The REG index of a place, 0 for a reserved one. -/
def RegPlace.index : RegPlace → Nat
  | .cmd => 0x000
  | .status => 0x001
  | .cause => 0x002
  | .esticky => 0x003
  | .att => 0x004
  | .mlen => 0x005
  | .dlen => 0x006
  | .hbl => 0x007
  | .scalar i => 0x010 + i.val
  | .pointInf i => 0x020 + 4 * i.val
  | .pointX i => 0x021 + 4 * i.val
  | .pointY i => 0x022 + 4 * i.val
  | .ha i => 0x040 + i.val
  | .hb i => 0x048 + i.val
  | .reserved => 0

theorem pointPlace_index (i : PReg) (k : Nat) (h : pointPlace i k ≠ .reserved) :
    (pointPlace i k).index = 0x020 + 4 * i.val + k := by
  unfold pointPlace at h ⊢
  split_ifs at h ⊢ with h0 h1 h2
  · simp only [RegPlace.index]; omega
  · simp only [RegPlace.index]; omega
  · simp only [RegPlace.index]; omega
  · exact absurd rfl h

/-- An index in a range of the table is an offset from the range's first index. -/
theorem exists_offset {n lo m : Nat} (hl : lo ≤ n) (hu : n < lo + m) : ∃ i : Fin m, n = lo + i.val :=
  ⟨⟨n - lo, by omega⟩, (Nat.add_sub_cancel' hl).symm⟩

/-- An index of the point registers is in one register's group of four. -/
theorem exists_point_index {n : Nat} (hl : 0x020 ≤ n) (hu : n < 0x040) : ∃ i : PReg, n = 0x020 + 4 * i.val + n % 4 :=
  ⟨⟨(n - 0x020) / 4, by omega⟩, by dsimp only; omega⟩

/-- A place of the table has one index. -/
theorem index_regPlace (idx : BitVec 12) (h : regPlace idx ≠ .reserved) : (regPlace idx).index = idx.toNat := by
  have ranges : idx.toNat < 8 ∨ (0x010 ≤ idx.toNat ∧ idx.toNat < 0x020) ∨ (0x020 ≤ idx.toNat ∧ idx.toNat < 0x040) ∨
      (0x040 ≤ idx.toNat ∧ idx.toNat < 0x044) ∨ (0x048 ≤ idx.toNat ∧ idx.toNat < 0x050) ∨
      ((0x008 ≤ idx.toNat ∧ idx.toNat < 0x010) ∨ (0x044 ≤ idx.toNat ∧ idx.toNat < 0x048) ∨ 0x050 ≤ idx.toNat) := by
    omega
  rcases ranges with hc | ⟨hl, hu⟩ | ⟨hl, hu⟩ | ⟨hl, hu⟩ | ⟨hl, hu⟩ | hr
  · obtain ⟨n, rfl⟩ : ∃ n : Fin 8, idx = BitVec.ofNat 12 n.val := ⟨⟨idx.toNat, hc⟩, by simp⟩
    revert n
    decide
  · obtain ⟨i, hi⟩ : ∃ i : Fin 16, idx.toNat = 0x010 + i.val := exists_offset hl hu
    rw [regPlace_scalar i hi]
    exact hi.symm
  · obtain ⟨i, hi⟩ := exists_point_index hl hu
    rw [regPlace_point i _ (Nat.mod_lt _ (by decide)) hi] at h ⊢
    exact (pointPlace_index _ _ h).trans hi.symm
  · obtain ⟨i, hi⟩ : ∃ i : Fin 4, idx.toNat = 0x040 + i.val := exists_offset hl hu
    rw [regPlace_ha i hi]
    exact hi.symm
  · obtain ⟨i, hi⟩ : ∃ i : Fin 8, idx.toNat = 0x048 + i.val := exists_offset hl hu
    rw [regPlace_hb i hi]
    exact hi.symm
  · exact absurd (regPlace_reserved hr) h

/-- Two indices share a place only where that place is a reserved one. -/
theorem regPlace_injective_of_ne_reserved {a b : BitVec 12} (h : regPlace a = regPlace b)
    (ha : regPlace a ≠ .reserved) : a = b := by
  apply BitVec.eq_of_toNat_eq
  rw [← index_regPlace a ha, ← index_regPlace b (h ▸ ha), h]

/-! ### Host reads -/

/-- A host read answers the register at its index and changes nothing but the reply (`20_memory.md` R51). -/
theorem step_readReg {s : State} {idx : BitVec 12} {rest : List HostOp} (h : s.port.pending = .readReg idx :: rest) :
    step s = .next { s with port := { pending := rest, reply := .word (s.hostReadReg idx) } } := by
  simp only [step, nextMove, h]
  rfl

/-- Settles O8: the clauses are the rows of the register table. -/
theorem hostReadReturnsRegisterTable : Obligations.HostReadReturnsRegisterTable := by
  intro s idx rest hp
  refine ⟨s.hostReadReg idx, step_readReg hp, ?_⟩
  unfold State.hostReadReg
  refine ⟨?cmd, ?status, ?cause, ?esticky, ?att, ?mlen, ?dlen, ?hbl, ?scalar, ?inf, ?x, ?y, ?gap, ?ha,
    ?hb, ?low, ?mid, ?high⟩
  case cmd => rintro rfl; rfl
  case status => rintro rfl; exact BitVec.toNat_setWidth_of_le (by decide)
  case cause => rintro rfl; exact BitVec.toNat_setWidth_of_le (by decide)
  case esticky => rintro rfl; exact BitVec.toNat_setWidth_of_le (by decide)
  case att => rintro rfl; exact BitVec.toNat_setWidth_of_le (by decide)
  case mlen => rintro rfl; rfl
  case dlen => rintro rfl; exact BitVec.toNat_setWidth_of_le (by decide)
  case hbl => rintro rfl; exact BitVec.toNat_setWidth_of_le (by decide)
  case scalar => intro i hi; rw [regPlace_scalar i hi]; rfl
  case inf => intro i hi; rw [regPlace_point i 0 (by decide) hi]; rfl
  case x => intro i hi; rw [regPlace_point i 1 (by decide) (by omega)]; rfl
  case y => intro i hi; rw [regPlace_point i 2 (by decide) (by omega)]; rfl
  case gap => intro i hi; rw [regPlace_point i 3 (by decide) (by omega)]; rfl
  case ha => intro i hi; rw [regPlace_ha i hi]; exact BitVec.toNat_setWidth_of_le (by decide)
  case hb => intro i hi; rw [regPlace_hb i hi]; rfl
  case low => intro hl hu; rw [regPlace_reserved (.inl ⟨hl, hu⟩)]; rfl
  case mid => intro hl hu; rw [regPlace_reserved (.inr (.inl ⟨hl, hu⟩))]; rfl
  case high => intro hl; rw [regPlace_reserved (.inr (.inr hl))]; rfl

/-! ### Host writes -/

/-- `CMD` is at index 0 alone. -/
theorem regPlace_ne_cmd {idx : BitVec 12} (h : idx ≠ 0) : regPlace idx ≠ .cmd := fun hc => by
  have hi := index_regPlace idx (by rw [hc]; decide)
  rw [hc] at hi
  exact h (BitVec.eq_of_toNat_eq hi.symm)

/-- A register read does not see the host's side of the port. -/
theorem hostReadReg_reply (s : State) (r : HostReply) (idx : BitVec 12) :
    (s.reply r).hostReadReg idx = s.hostReadReg idx := by
  unfold State.hostReadReg
  cases regPlace idx <;> rfl

theorem hostReadReg_withPending (s : State) (l : List HostOp) (idx : BitVec 12) :
    (s.withPending l).hostReadReg idx = s.hostReadReg idx := by
  unfold State.hostReadReg
  cases regPlace idx <;> rfl

/-- A write of one index leaves what every other index reads: places differ, or both are reserved. -/
theorem hostReadReg_writePlace_of_ne (s : State) (v : W64) {a b : BitVec 12} (h : b ≠ a) :
    (s.writePlace v (regPlace a)).hostReadReg b = s.hostReadReg b := by
  unfold State.hostReadReg
  by_cases hr : regPlace b = .reserved
  · rw [hr]; rfl
  · exact s.readPlace_writePlace_of_ne v fun e => h (regPlace_injective_of_ne_reserved e.symm hr)

theorem boolScalar_getLsbD_zero (v : W64) : boolScalar (v.getLsbD 0) = v &&& 1 := by
  apply BitVec.eq_of_toNat_eq
  have hbit : v.getLsbD 0 = decide (v.toNat % 2 = 1) := by simp [BitVec.getLsbD, Nat.testBit_zero]
  rw [hbit, BitVec.toNat_and, show (1 : W64).toNat = 1 from rfl, Nat.and_one_is_mod]
  rcases Nat.mod_two_eq_zero_or_one v.toNat with h | h
  · rw [h]; rfl
  · rw [h]; rfl

theorem setWidth_thirtyTwo_setWidth (v : W64) : (v.setWidth 32).setWidth 64 = v &&& 0xFFFFFFFF := by
  apply BitVec.eq_of_toNat_eq
  rw [BitVec.toNat_and, show (0xFFFFFFFF : W64).toNat = 2 ^ 32 - 1 from rfl, Nat.and_two_pow_sub_one_eq_mod,
    BitVec.toNat_setWidth_of_le (by decide), BitVec.toNat_setWidth]

/-- The state after a host write of `v` to the register at `idx`. -/
def State.afterWriteReg (s : State) (idx : BitVec 12) (v : W64) (rest : List HostOp) : State :=
  ((s.withPending rest).writePlace v (regPlace idx)).reply .nothing

/-- A host write other than of `CMD` writes the place at its index and replies nothing (R51). -/
theorem step_writeReg {s : State} {idx : BitVec 12} {v : W64} {rest : List HostOp} (hi : idx ≠ 0)
    (h : s.port.pending = .writeReg idx v :: rest) : step s = .next (s.afterWriteReg idx v rest) := by
  simp only [step, nextMove, h, hostMove, if_neg (regPlace_ne_cmd hi), State.afterWriteReg]

theorem hostReadReg_afterWriteReg_of_ne (s : State) {a b : BitVec 12} (v : W64) (rest : List HostOp) (h : b ≠ a) :
    (s.afterWriteReg a v rest).hostReadReg b = s.hostReadReg b := by
  rw [State.afterWriteReg, hostReadReg_reply, hostReadReg_writePlace_of_ne _ v h, hostReadReg_withPending]

/-- The register at the index written reads as its place does after the write. -/
theorem hostReadReg_afterWriteReg_self (s : State) {idx : BitVec 12} {p : RegPlace} (hp : regPlace idx = p) (v : W64)
    (rest : List HostOp) :
    (s.afterWriteReg idx v rest).hostReadReg idx = ((s.withPending rest).writePlace v p).readPlace p := by
  rw [State.afterWriteReg, hostReadReg_reply, State.hostReadReg, hp]

/-- Settles O9: the clauses are the rows of the register table, each by what a write of its place leaves. -/
theorem hostWriteChangesOneRegister : Obligations.HostWriteChangesOneRegister := by
  intro s idx v rest hi hp
  obtain ⟨hmb, hdg, hrng, hport⟩ := (s.withPending rest).writePlace_frame v (regPlace idx)
  have self {p : RegPlace} (h : regPlace idx = p) := hostReadReg_afterWriteReg_self s h v rest
  refine ⟨s.afterWriteReg idx v rest, step_writeReg hi hp, ?port, hmb, hdg, hrng,
    fun _ => hostReadReg_afterWriteReg_of_ne s v rest, ?whole, ?inf, ?ha, ?hbl, ?readOnly, ?reserved⟩
  case port => rw [State.afterWriteReg, State.reply_port, hport]; rfl
  case whole =>
    rintro (rfl | ⟨hl, hu⟩ | ⟨hl, hu⟩ | ⟨hl, hu, hxy⟩)
    · exact self rfl
    · obtain ⟨i, hi⟩ : ∃ i : Fin 16, idx.toNat = 0x010 + i.val := exists_offset hl hu
      exact (self (regPlace_scalar i hi)).trans (State.readPlace_writePlace_self _ v _)
    · obtain ⟨i, hi⟩ : ∃ i : Fin 8, idx.toNat = 0x048 + i.val := exists_offset hl hu
      exact (self (regPlace_hb i hi)).trans (State.readPlace_writePlace_self _ v _)
    · obtain ⟨i, hi⟩ := exists_point_index hl hu
      rcases hxy with hx | hy
      · rw [hx] at hi
        exact (self (regPlace_point i 1 (by decide) hi)).trans (State.readPlace_writePlace_self _ v (.pointX i))
      · rw [hy] at hi
        exact (self (regPlace_point i 2 (by decide) hi)).trans (State.readPlace_writePlace_self _ v (.pointY i))
  case inf =>
    rintro ⟨hl, hu, hinf⟩
    obtain ⟨i, hi⟩ := exists_point_index hl hu
    rw [hinf] at hi
    exact (self (regPlace_point i 0 (by decide) hi)).trans
      ((State.readPlace_writePlace_self _ v (.pointInf i)).trans (boolScalar_getLsbD_zero v))
  case ha =>
    rintro ⟨hl, hu⟩
    obtain ⟨i, hi⟩ : ∃ i : Fin 4, idx.toNat = 0x040 + i.val := exists_offset hl hu
    exact (self (regPlace_ha i hi)).trans
      ((State.readPlace_writePlace_self _ v (.ha i)).trans (setWidth_thirtyTwo_setWidth v))
  case hbl =>
    rintro rfl
    exact (self rfl).trans (State.readPlace_writePlace_self _ v .hbl)
  case readOnly =>
    rintro (rfl | rfl | rfl | rfl | rfl)
    · exact self rfl
    · exact self rfl
    · exact self rfl
    · exact self rfl
    · exact self rfl
  case reserved =>
    rintro (h | h | h | ⟨hl, hu, hgap⟩)
    · exact self (regPlace_reserved (.inl h))
    · exact self (regPlace_reserved (.inr (.inl h)))
    · exact self (regPlace_reserved (.inr (.inr h)))
    · obtain ⟨i, hi⟩ := exists_point_index hl hu
      rw [hgap] at hi
      exact self (regPlace_point i 3 (by decide) hi)

end Sys2Proof.Machine
end

section
/-! PROOF. The buffers (O10, O39; `20_memory.md` R53, R57): a host access moves one byte, and a command whose block or
message does not fit in `MB` ends in its bounds check, before it changes anything. -/

namespace Sys2Proof.Machine

/-! ### Host accesses to the buffers -/

/-- A step takes the first pending operation; one that issues no command is the whole step. -/
theorem step_of_hostMove_done {s t : State} {op : HostOp} {rest : List HostOp} (h : s.port.pending = op :: rest)
    (hm : hostMove Config.core (s.withPending rest) op = .done t) : step s = .next t := by
  simp only [step, nextMove, h, hm]

/-- A host write of `MB` changes no other field. -/
theorem State.hostWriteMB_eq (cfg : Config) (s : State) (i : Nat) (b : Byte) :
    s.hostWriteMB cfg i b = { s with mb := (s.hostWriteMB cfg i b).mb } := by
  rw [State.hostWriteMB]
  split_ifs
  · rfl
  · rfl

/-- What `MB` reads as after a host write: the new byte at its address when that is inside the buffer. -/
theorem State.read_hostWriteMB (cfg : Config) (s : State) (i j : Nat) (b : Byte) (h : s.mb.wf = true) :
    (s.hostWriteMB cfg i b).mb.read j = if j = i ∧ i < cfg.mbsize then b else s.mb.read j := by
  rw [State.hostWriteMB]
  split_ifs with hi hj hj
  · rw [Memory.read_write _ _ _ _ h, if_pos hj.1]
  · rw [Memory.read_write _ _ _ _ h, if_neg fun e => hj ⟨e, hi⟩]
  · exact absurd hj.2 hi
  · rfl

/-- Settles O10: each buffer access is a whole step, and a write is `Memory.write` inside the buffer alone. -/
theorem hostBufferAccessMovesOneByte : Obligations.HostBufferAccessMovesOneByte := by
  intro s i rest
  refine ⟨fun b hwf hp => ?write, fun hp => ?readMB, fun hp => ?readDG⟩
  case write =>
    refine ⟨((s.withPending rest).hostWriteMB Config.core i b).mb, step_of_hostMove_done hp ?_,
      fun j => (s.withPending rest).read_hostWriteMB Config.core i j b hwf⟩
    rw [hostMove, State.hostWriteMB_eq]
    rfl
  case readMB => exact step_of_hostMove_done hp rfl
  case readDG => exact step_of_hostMove_done hp rfl

/-! ### Ranges that do not fit -/

/-- Raising a cause is the report of its code (`60_exceptions.md` R303). -/
theorem State.raise_eq_failed (s : State) (c : Cause) : s.raise c = failed s c.code.toNat := by
  cases c <;> rfl

/-- A command that raises a cause before any effect leaves its start state with the cause reported. -/
theorem exec_eq_failed {i : Instr} {s : State} {c : Cause} (h : commandEnd i s = .raises c s) :
    exec i s = .next (failed s c.code.toNat) := by
  rw [exec_eq_report, h, CommandEnd.report_raises, State.raise_eq_failed]

/-- `E_BOUNDS` has code 5 (`60_exceptions.md` R302). -/
theorem exec_eq_failed_bounds {i : Instr} {s : State} (h : commandEnd i s = .raises .bounds s) :
    exec i s = .next (failed s 5) :=
  exec_eq_failed h

theorem not_blockOk {cfg : Config} {off k : Nat} (h : cfg.mbsize < off + k) : ¬ blockOk cfg off k = true := by
  simpa [blockOk] using h

theorem State.not_messageOk {cfg : Config} {s : State} (h : cfg.mbsize < s.mlen.toNat) :
    ¬ s.messageOk cfg = true := by
  simpa [State.messageOk] using h

theorem lengthOk_of_range {l : Nat} (h1 : 1 ≤ l) (h64 : l ≤ 64) : lengthOk l = true :=
  (Bool.and_eq_true _ _).mpr ⟨decide_eq_true h1, decide_eq_true h64⟩

/-- Settles O39: the bounds check is the first test of every command that reads `MB`, after the digest length's. -/
theorem boundsErrors : Obligations.BoundsErrors := by
  intro s
  refine ⟨fun roff h => ?daCmp, fun roff rt last h => ?dbCmp, fun h => ?message⟩
  case daCmp => exact exec_eq_failed_bounds (if_neg (not_blockOk h))
  case dbCmp => exact exec_eq_failed_bounds (if_neg (not_blockOk h))
  have hmsg := State.not_messageOk h
  refine ⟨?daHash, fun len h1 h64 => ?dbHash, fun rd v => ?hred, fun rr rs rk v => ?sign, fun rd rr rs pq v => ?verify⟩
  case daHash => exact exec_eq_failed_bounds (if_neg hmsg)
  case dbHash => exact exec_eq_failed_bounds ((if_pos (lengthOk_of_range h1 h64)).trans (if_neg hmsg))
  case hred => exact exec_eq_failed_bounds (if_neg hmsg)
  case sign => exact exec_eq_failed_bounds (if_neg hmsg)
  case verify => exact exec_eq_failed_bounds (if_neg hmsg)

end Sys2Proof.Machine
end

section
/-! PROOF. The encoding (O1 to O4; `30_encoding.md` R70 to R75). A row of the opcode map is an opcode and five fields
of given kinds; each kind names the values that stand for an operand, and the decoder, the encoder and the masks agree
on them. So a row holds the encodings of its commands and nothing else, and the decoder reads each of them back. -/

namespace Sys2Proof

/-! ### A word and its fields (R70) -/

section
variable (op : BitVec 8) (f0 f1 f2 f3 : BitVec 4) (imm : BitVec 8)

/-- The bits of a word are those of its fields side by side. -/
theorem extractLsb'_wordOf (start len : Nat) : (wordOf op f0 f1 f2 f3 imm).extractLsb' start len =
    (op ++ f0 ++ f1 ++ f2 ++ f3 ++ imm).extractLsb' start len := rfl

@[simp] theorem opField_wordOf : opField (wordOf op f0 f1 f2 f3 imm) = op := by
  rw [opField, extractLsb'_wordOf]
  iterate 5 rw [BitVec.extractLsb'_append_eq_of_le (by decide)]
  exact BitVec.extractLsb'_eq_self

@[simp] theorem f0Field_wordOf : f0Field (wordOf op f0 f1 f2 f3 imm) = f0 := by
  rw [f0Field, extractLsb'_wordOf]
  iterate 4 rw [BitVec.extractLsb'_append_eq_of_le (by decide)]
  exact BitVec.extractLsb'_append_eq_right

@[simp] theorem f1Field_wordOf : f1Field (wordOf op f0 f1 f2 f3 imm) = f1 := by
  rw [f1Field, extractLsb'_wordOf]
  iterate 3 rw [BitVec.extractLsb'_append_eq_of_le (by decide)]
  exact BitVec.extractLsb'_append_eq_right

@[simp] theorem f2Field_wordOf : f2Field (wordOf op f0 f1 f2 f3 imm) = f2 := by
  rw [f2Field, extractLsb'_wordOf]
  iterate 2 rw [BitVec.extractLsb'_append_eq_of_le (by decide)]
  exact BitVec.extractLsb'_append_eq_right

@[simp] theorem f3Field_wordOf : f3Field (wordOf op f0 f1 f2 f3 imm) = f3 := by
  rw [f3Field, extractLsb'_wordOf]
  iterate 1 rw [BitVec.extractLsb'_append_eq_of_le (by decide)]
  exact BitVec.extractLsb'_append_eq_right

@[simp] theorem immField_wordOf : immField (wordOf op f0 f1 f2 f3 imm) = imm := by
  rw [immField, extractLsb'_wordOf]
  exact BitVec.extractLsb'_append_eq_right

theorem decode_wordOf : decode (wordOf op f0 f1 f2 f3 imm) = decodeFields op f0 f1 f2 f3 imm := by
  simp [decode]

end

theorem wordOf_fields (w : BitVec 32) :
    wordOf (opField w) (f0Field w) (f1Field w) (f2Field w) (f3Field w) (immField w) = w := by
  unfold wordOf opField f0Field f1Field f2Field f3Field immField
  have join (start m) {n} : w.extractLsb' (start + m) n ++ w.extractLsb' start m = w.extractLsb' start (n + m) :=
    BitVec.extractLsb'_append_extractLsb'_eq_extractLsb' rfl
  rw [BitVec.cast_eq, join 20 4, join 16 4, join 12 4, join 8 4, join 0 8]
  exact BitVec.extractLsb'_eq_self

/-- Every word is made of six fields. -/
theorem exists_wordOf (w : BitVec 32) : ∃ op f0 f1 f2 f3 imm, w = wordOf op f0 f1 f2 f3 imm :=
  ⟨_, _, _, _, _, _, (wordOf_fields w).symm⟩

/-- Two words are equal only field by field. -/
theorem wordOf_injective {op op' : BitVec 8} {f0 f1 f2 f3 g0 g1 g2 g3 : BitVec 4} {imm imm' : BitVec 8}
    (h : wordOf op f0 f1 f2 f3 imm = wordOf op' g0 g1 g2 g3 imm') :
    op = op' ∧ f0 = g0 ∧ f1 = g1 ∧ f2 = g2 ∧ f3 = g3 ∧ imm = imm' := by
  refine ⟨?_, ?_, ?_, ?_, ?_, ?_⟩
  · simpa using congrArg opField h
  · simpa using congrArg f0Field h
  · simpa using congrArg f1Field h
  · simpa using congrArg f2Field h
  · simpa using congrArg f3Field h
  · simpa using congrArg immField h

/-! ### The field kinds (R71) -/

/-- A kind of field: what operand it stands for, the field that holds an operand, the bits that must be 0, and how the
decoder reads it. The laws: a field that holds an operand is read back; one with a bit set that must be 0 is refused;
any other holds an operand. -/
structure FieldKind (n : Nat) where
  Operand : Type
  field : Operand → BitVec n
  zeroBits : BitVec n
  read : BitVec n → (Operand → Decoded) → Decoded
  read_field : ∀ a k, read (field a) k = k a
  read_refuses : ∀ f, f &&& zeroBits ≠ 0 → ∃ why, ∀ k, read f k = .illegal why
  exists_operand : ∀ f, f &&& zeroBits = 0 → ∃ a, f = field a

/-- A field from which a command is read holds an operand. -/
theorem FieldKind.exists_of_read {n : Nat} (κ : FieldKind n) {f : BitVec n} {k : κ.Operand → Decoded} {i : Instr}
    (h : κ.read f k = .command i) : ∃ a, f = κ.field a ∧ k a = .command i := by
  by_cases hf : f &&& κ.zeroBits = 0
  · obtain ⟨a, rfl⟩ := κ.exists_operand f hf
    exact ⟨a, rfl, (κ.read_field a k).symm.trans h⟩
  · obtain ⟨why, hw⟩ := κ.read_refuses f hf
    exact absurd ((hw k).symm.trans h) (by simp)

/-- Kind `S`. -/
def FieldKind.scalar : FieldKind 4 where
  Operand := SReg
  field := sField
  zeroBits := 0
  read := scalarField
  read_field _ _ := rfl
  read_refuses f hf := absurd BitVec.and_zero hf
  exists_operand f _ := ⟨f.toFin, rfl⟩

theorem exists_pField : ∀ f : BitVec 4, f &&& 8 = 0 → ∃ p, f = pField p := by decide

@[simp] theorem pField_toNat (p : PReg) : (pField p).toNat = p.val := by revert p; decide

/-- Kind `P`. -/
def FieldKind.point : FieldKind 4 where
  Operand := PReg
  field := pField
  zeroBits := 8
  read := pointField
  read_field p k := by simp [pointField, pField_toNat]
  read_refuses f hf := ⟨.pointField, fun k => dif_neg (by revert f; decide)⟩
  exists_operand := exists_pField

/-- Kind `-` of a register field. -/
def FieldKind.unused : FieldKind 4 where
  Operand := Unit
  field _ := 0
  zeroBits := BitVec.allOnes 4
  read f k := noField f (k ())
  read_field _ _ := rfl
  read_refuses f hf := ⟨.unusedField, fun _ => if_neg (by rwa [BitVec.and_allOnes] at hf)⟩
  exists_operand f hf := ⟨(), by rwa [BitVec.and_allOnes] at hf⟩

/-- Kind `-` of the immediate. -/
def FieldKind.zeroImm : FieldKind 8 where
  Operand := Unit
  field _ := 0
  zeroBits := BitVec.allOnes 8
  read imm k := noImm imm (k ())
  read_field _ _ := rfl
  read_refuses imm hf := ⟨.immBits, fun _ => if_neg (by rwa [BitVec.and_allOnes] at hf)⟩
  exists_operand imm hf := ⟨(), by rwa [BitVec.and_allOnes] at hf⟩

/-- Immediate kind `L`. -/
def FieldKind.length : FieldKind 8 where
  Operand := BitVec 8
  field len := len
  zeroBits := 0
  read imm k := k imm
  read_field _ _ := rfl
  read_refuses imm hf := absurd BitVec.and_zero hf
  exists_operand imm _ := ⟨imm, rfl⟩

/-- Immediate kind `B`. -/
def FieldKind.flag : FieldKind 8 where
  Operand := Bool
  field := lastImm
  zeroBits := 0xFE
  read := flagImm
  read_field b _ := by cases b <;> rfl
  read_refuses imm hf := ⟨.immBits, fun _ => if_neg (by revert imm; decide)⟩
  exists_operand := by decide

/-- Immediate kind `V`. -/
def FieldKind.variant : FieldKind 8 where
  Operand := Variant
  field := variantCode
  zeroBits := 0xFC
  read := variantImm
  read_field v _ := by cases v <;> rfl
  read_refuses imm hf := ⟨.immBits, fun _ => if_neg (by revert imm; decide)⟩
  exists_operand imm hf := ⟨variantOf (imm.extractLsb' 0 2), by revert imm; decide⟩

/-! ### The rows (R73) -/

/-- A row of the opcode map: an opcode and the kinds of the five fields after it. -/
structure Row where
  op : BitVec 8
  k0 : FieldKind 4
  k1 : FieldKind 4
  k2 : FieldKind 4
  k3 : FieldKind 4
  ki : FieldKind 8

namespace Row

/-- The operands of a row, field by field. -/
abbrev Operands (ρ : Row) : Type := ρ.k0.Operand × ρ.k1.Operand × ρ.k2.Operand × ρ.k3.Operand × ρ.ki.Operand

/-- The word of a row with the given operands. -/
def word (ρ : Row) : ρ.Operands → BitVec 32
  | (a0, a1, a2, a3, ai) =>
    wordOf ρ.op (ρ.k0.field a0) (ρ.k1.field a1) (ρ.k2.field a2) (ρ.k3.field a3) (ρ.ki.field ai)

/-- The mask of a row: the opcode, and the bits of the fields that must be 0. -/
def mask (ρ : Row) : BitVec 32 :=
  wordOf (BitVec.allOnes 8) ρ.k0.zeroBits ρ.k1.zeroBits ρ.k2.zeroBits ρ.k3.zeroBits ρ.ki.zeroBits

/-- Read the fields of a row in order. -/
def read (ρ : Row) (f0 f1 f2 f3 : BitVec 4) (imm : BitVec 8) (k : ρ.Operands → Decoded) : Decoded :=
  ρ.k0.read f0 fun a0 => ρ.k1.read f1 fun a1 => ρ.k2.read f2 fun a2 => ρ.k3.read f3 fun a3 =>
    ρ.ki.read imm fun ai => k (a0, a1, a2, a3, ai)

variable {ρ : Row} {f0 f1 f2 f3 : BitVec 4} {imm : BitVec 8}

/-- Fields from which a command is read are those of a word of the row. -/
theorem exists_of_read {k : ρ.Operands → Decoded} {i : Instr} (h : ρ.read f0 f1 f2 f3 imm k = .command i) :
    ∃ a, wordOf ρ.op f0 f1 f2 f3 imm = ρ.word a := by
  obtain ⟨a0, rfl, h0⟩ := ρ.k0.exists_of_read h
  obtain ⟨a1, rfl, h1⟩ := ρ.k1.exists_of_read h0
  obtain ⟨a2, rfl, h2⟩ := ρ.k2.exists_of_read h1
  obtain ⟨a3, rfl, h3⟩ := ρ.k3.exists_of_read h2
  obtain ⟨ai, rfl, -⟩ := ρ.ki.exists_of_read h3
  exact ⟨(a0, a1, a2, a3, ai), rfl⟩

/-- A word that meets the row's mask and match is a word of the row. -/
theorem exists_of_mask {w : BitVec 32} (h : w &&& ρ.mask = wordOf ρ.op 0 0 0 0 0) : ∃ a, w = ρ.word a := by
  obtain ⟨op, f0, f1, f2, f3, imm, rfl⟩ := exists_wordOf w
  rw [mask, wordOf_and, BitVec.and_allOnes] at h
  obtain ⟨rfl, h0, h1, h2, h3, hi⟩ := wordOf_injective h
  obtain ⟨a0, rfl⟩ := ρ.k0.exists_operand _ h0
  obtain ⟨a1, rfl⟩ := ρ.k1.exists_operand _ h1
  obtain ⟨a2, rfl⟩ := ρ.k2.exists_operand _ h2
  obtain ⟨a3, rfl⟩ := ρ.k3.exists_operand _ h3
  obtain ⟨ai, rfl⟩ := ρ.ki.exists_operand _ hi
  exact ⟨(a0, a1, a2, a3, ai), rfl⟩

end Row

/-! ### The row of each command -/

/-- A command's place in the opcode map: its row, its operands, and the command that the row has for any operands. -/
structure MapEntry where
  row : Row
  operands : row.Operands
  command : row.Operands → Instr

open FieldKind in
/-- The opcode map (R73) row by row: opcode, signature `f0 f1 f2 f3` and immediate kind. -/
def Instr.entry : Instr → MapEntry
  | .nop => ⟨⟨0x00, unused, unused, unused, unused, zeroImm⟩, ((), (), (), (), ()), fun _ => .nop⟩
  | .clre => ⟨⟨0x01, unused, unused, unused, unused, zeroImm⟩, ((), (), (), (), ()), fun _ => .clre⟩
  | .modred rd rv rm => ⟨⟨0x10, scalar, scalar, scalar, unused, zeroImm⟩, (rd, rv, rm, (), ()),
      fun (rd, rv, rm, _, _) => .modred rd rv rm⟩
  | .modmul rd rx ry rm => ⟨⟨0x11, scalar, scalar, scalar, scalar, zeroImm⟩, (rd, rx, ry, rm, ()),
      fun (rd, rx, ry, rm, _) => .modmul rd rx ry rm⟩
  | .modinv rd rv rm => ⟨⟨0x12, scalar, scalar, scalar, unused, zeroImm⟩, (rd, rv, rm, (), ()),
      fun (rd, rv, rm, _, _) => .modinv rd rv rm⟩
  | .daInit => ⟨⟨0x20, unused, unused, unused, unused, zeroImm⟩, ((), (), (), (), ()), fun _ => .daInit⟩
  | .daCmp roff => ⟨⟨0x21, unused, scalar, unused, unused, zeroImm⟩, ((), roff, (), (), ()),
      fun (_, roff, _, _, _) => .daCmp roff⟩
  | .daOut => ⟨⟨0x22, unused, unused, unused, unused, zeroImm⟩, ((), (), (), (), ()), fun _ => .daOut⟩
  | .daHash => ⟨⟨0x23, unused, unused, unused, unused, zeroImm⟩, ((), (), (), (), ()), fun _ => .daHash⟩
  | .dbInit len => ⟨⟨0x30, unused, unused, unused, unused, length⟩, ((), (), (), (), len),
      fun (_, _, _, _, len) => .dbInit len⟩
  | .dbCmp roff rt last => ⟨⟨0x31, unused, scalar, scalar, unused, flag⟩, ((), roff, rt, (), last),
      fun (_, roff, rt, _, last) => .dbCmp roff rt last⟩
  | .dbOut => ⟨⟨0x32, unused, unused, unused, unused, zeroImm⟩, ((), (), (), (), ()), fun _ => .dbOut⟩
  | .dbHash len => ⟨⟨0x33, unused, unused, unused, unused, length⟩, ((), (), (), (), len),
      fun (_, _, _, _, len) => .dbHash len⟩
  | .dbHashd len => ⟨⟨0x34, unused, unused, unused, unused, length⟩, ((), (), (), (), len),
      fun (_, _, _, _, len) => .dbHashd len⟩
  | .pinf pd => ⟨⟨0x40, point, unused, unused, unused, zeroImm⟩, (pd, (), (), (), ()),
      fun (pd, _, _, _, _) => .pinf pd⟩
  | .pldg pd => ⟨⟨0x41, point, unused, unused, unused, zeroImm⟩, (pd, (), (), (), ()),
      fun (pd, _, _, _, _) => .pldg pd⟩
  | .pset pd rx ry => ⟨⟨0x42, point, scalar, scalar, unused, zeroImm⟩, (pd, rx, ry, (), ()),
      fun (pd, rx, ry, _, _) => .pset pd rx ry⟩
  | .pgetx rd pa => ⟨⟨0x43, scalar, point, unused, unused, zeroImm⟩, (rd, pa, (), (), ()),
      fun (rd, pa, _, _, _) => .pgetx rd pa⟩
  | .pgety rd pa => ⟨⟨0x44, scalar, point, unused, unused, zeroImm⟩, (rd, pa, (), (), ()),
      fun (rd, pa, _, _, _) => .pgety rd pa⟩
  | .pisinf rd pa => ⟨⟨0x45, scalar, point, unused, unused, zeroImm⟩, (rd, pa, (), (), ()),
      fun (rd, pa, _, _, _) => .pisinf rd pa⟩
  | .padd pd pa pb => ⟨⟨0x46, point, point, point, unused, zeroImm⟩, (pd, pa, pb, (), ()),
      fun (pd, pa, pb, _, _) => .padd pd pa pb⟩
  | .pdbl pd pa => ⟨⟨0x47, point, point, unused, unused, zeroImm⟩, (pd, pa, (), (), ()),
      fun (pd, pa, _, _, _) => .pdbl pd pa⟩
  | .pmul pd rk pa => ⟨⟨0x48, point, scalar, point, unused, zeroImm⟩, (pd, rk, pa, (), ()),
      fun (pd, rk, pa, _, _) => .pmul pd rk pa⟩
  | .hred rd v => ⟨⟨0x50, scalar, unused, unused, unused, variant⟩, (rd, (), (), (), v),
      fun (rd, _, _, _, v) => .hred rd v⟩
  | .keygen rd pq => ⟨⟨0x60, scalar, point, unused, unused, zeroImm⟩, (rd, pq, (), (), ()),
      fun (rd, pq, _, _, _) => .keygen rd pq⟩
  | .sign rr rs rk v => ⟨⟨0x61, scalar, scalar, scalar, unused, variant⟩, (rr, rs, rk, (), v),
      fun (rr, rs, rk, _, v) => .sign rr rs rk v⟩
  | .verify rd rr rs pq v => ⟨⟨0x62, scalar, scalar, scalar, point, variant⟩, (rd, rr, rs, pq, v),
      fun (rd, rr, rs, pq, v) => .verify rd rr rs pq v⟩

/-- What the decoder answers where the fields name `i`: the command, or the one refusal that no field makes. -/
def Instr.decoded (i : Instr) : Decoded := if i.wellFormed then .command i else .illegal .signSameRegister

theorem Instr.decoded_of_wellFormed {i : Instr} (h : i.wellFormed = true) : i.decoded = .command i := if_pos h

theorem Instr.decoded_eq_command {i j : Instr} (h : i.decoded = .command j) : i.wellFormed = true ∧ i = j := by
  unfold Instr.decoded at h
  split_ifs at h with hw
  exact ⟨hw, Decoded.command.inj h⟩

theorem ite_eq_decoded_sign (rr rs rk : SReg) (v : Variant) :
    (if rr = rs then .illegal .signSameRegister else .command (.sign rr rs rk v)) =
      (Instr.sign rr rs rk v).decoded := by
  unfold Instr.decoded Instr.wellFormed
  by_cases h : rr = rs
  · rw [if_pos h, if_neg (by simpa using h)]
  · rw [if_neg h, if_pos (by simpa using h)]

/-! The table against the model: the encoder, the masks and matches, the mnemonics and the decoder have its rows. -/

theorem command_operands (i : Instr) : i.entry.command i.entry.operands = i := by cases i <;> rfl

theorem encode_command (i : Instr) (a : i.entry.row.Operands) : encode (i.entry.command a) = i.entry.row.word a := by
  cases i <;> rfl

theorem mnemonic_command (i : Instr) (a : i.entry.row.Operands) : (i.entry.command a).mnemonic = i.mnemonic := by
  cases i <;> rfl

/-- Each row's mask and match are closed words once the table is unfolded (`dsimp`), and are then evaluated. -/
theorem rowMask_eq (i : Instr) : rowMask i = i.entry.row.mask := by
  cases i <;> (dsimp only [rowMask, Instr.entry]; decide)

theorem rowMatch_eq (i : Instr) : rowMatch i = wordOf i.entry.row.op 0 0 0 0 0 := by
  cases i <;> (dsimp only [rowMatch, Instr.entry]; decide)

theorem decodeFields_row (i : Instr) (f0 f1 f2 f3 : BitVec 4) (imm : BitVec 8) :
    decodeFields i.entry.row.op f0 f1 f2 f3 imm =
      i.entry.row.read f0 f1 f2 f3 imm fun a => (i.entry.command a).decoded := by
  cases i with
  | sign =>
    simp only [decodeFields, ite_eq_decoded_sign]
    rfl
  | _ => rfl

/-! ### The decoder on encodings -/

/-- The decoder reads back a row's operands. -/
theorem decode_word (j : Instr) (a : j.entry.row.Operands) :
    decode (j.entry.row.word a) = (j.entry.command a).decoded := by
  obtain ⟨a0, a1, a2, a3, ai⟩ := a
  rw [Row.word, decode_wordOf, decodeFields_row, Row.read]
  simp only [FieldKind.read_field]

/-- The decoder on the encoding of any command, well-formed or not. -/
theorem decode_encode (i : Instr) : decode (encode i) = i.decoded := by
  rw [← command_operands i, encode_command, decode_word]

/-- A command from each row. -/
def oneOfEachRow : List Instr :=
  [.nop, .clre, .modred 0 0 0, .modmul 0 0 0 0, .modinv 0 0 0, .daInit, .daCmp 0, .daOut, .daHash, .dbInit 0,
    .dbCmp 0 0 false, .dbOut, .dbHash 0, .dbHashd 0, .pinf 0, .pldg 0, .pset 0 0 0, .pgetx 0 0, .pgety 0 0,
    .pisinf 0 0, .padd 0 0 0, .pdbl 0 0, .pmul 0 0 0, .hred 0 .noHash, .keygen 0 0, .sign 0 0 0 .noHash,
    .verify 0 0 0 0 .noHash]

/-- An opcode of no row is refused (R75). -/
theorem decodeFields_of_op_notMem {op : BitVec 8} (h : op ∉ oneOfEachRow.map (·.entry.row.op))
    (f0 f1 f2 f3 : BitVec 4) (imm : BitVec 8) : decodeFields op f0 f1 f2 f3 imm = .illegal .unassignedOpcode := by
  unfold decodeFields
  split
  case h_28 => rfl
  all_goals exact absurd (by decide) h

/-- Only encodings decode. -/
theorem exists_encode_of_decode {w : BitVec 32} {i : Instr} (h : decode w = .command i) : ∃ j, w = encode j := by
  obtain ⟨op, f0, f1, f2, f3, imm, rfl⟩ := exists_wordOf w
  rw [decode_wordOf] at h
  by_cases hop : op ∈ oneOfEachRow.map (·.entry.row.op)
  · obtain ⟨j, -, rfl⟩ := List.mem_map.mp hop
    rw [decodeFields_row] at h
    obtain ⟨a, ha⟩ := Row.exists_of_read h
    exact ⟨j.entry.command a, ha.trans (encode_command j a).symm⟩
  · rw [decodeFields_of_op_notMem hop] at h
    contradiction

/-! ### The rows and the encodings -/

/-- The encoding of a command lies in the command's row. -/
theorem encode_and_rowMask (i : Instr) : encode i &&& rowMask i = rowMatch i := by
  open Laws.EncodeRow in
  cases i
  exacts [nop, clre, modred _ _ _, modmul _ _ _ _, modinv _ _ _, daInit, daCmp _, daOut, daHash, dbInit _, dbCmp _ _ _,
    dbOut, dbHash _, dbHashd _, pinf _, pldg _, pset _ _ _, pgetx _ _, pgety _ _, pisinf _ _, padd _ _ _, pdbl _ _,
    pmul _ _ _, hred _ _, keygen _ _, sign _ _ _ _, verify _ _ _ _ _]

/-- A word of a row encodes a command of that row. -/
theorem exists_encode_of_and_rowMask {w : BitVec 32} {j : Instr} (h : w &&& rowMask j = rowMatch j) :
    ∃ i, w = encode i ∧ i.mnemonic = j.mnemonic := by
  rw [rowMask_eq, rowMatch_eq] at h
  obtain ⟨a, rfl⟩ := Row.exists_of_mask h
  exact ⟨j.entry.command a, (encode_command j a).symm, mnemonic_command j a⟩

theorem sField_injective {r r' : SReg} (h : sField r = sField r') : r = r' := BitVec.ofFin.inj h

/-- The one restriction on encodings, seen in the word (R74). -/
theorem Instr.wellFormed_iff (i : Instr) :
    i.wellFormed = true ↔ ¬ (i.mnemonic = "SIGN" ∧ f0Field (encode i) = f1Field (encode i)) := by
  cases i with
  | sign rr rs rk v =>
    have fields : f0Field (encode (.sign rr rs rk v)) = f1Field (encode (.sign rr rs rk v)) ↔ rr = rs := by
      rw [encode, f0Field_wordOf, f1Field_wordOf]
      exact ⟨sField_injective, congrArg sField⟩
    simp [Instr.wellFormed, Instr.mnemonic, fields]
  | _ => simp [Instr.wellFormed, Instr.mnemonic]

/-! ### The statements -/

/-- Settles O1: `decode_encode` for a well-formed command. -/
theorem decodeInvertsEncode : Obligations.DecodeInvertsEncode := fun i h =>
  (decode_encode i).trans (Instr.decoded_of_wellFormed h)

/-- Settles O2: a word that decodes encodes some command, which is the one it decodes to. -/
theorem encodeInvertsDecode : Obligations.EncodeInvertsDecode := by
  intro w i h
  obtain ⟨j, rfl⟩ := exists_encode_of_decode h
  obtain ⟨hj, rfl⟩ := Instr.decoded_eq_command ((decode_encode j).symm.trans h)
  exact ⟨hj, rfl⟩

/-- Settles O3: a word of a row encodes a command of it, which is well-formed but for SIGN with `f0 = f1`; and a word
that decodes lies in the row of its command. -/
theorem decodeFollowsMaskAndMatch : Obligations.DecodeFollowsMaskAndMatch := by
  intro w
  have inRow {i : Instr} (h : decode w = .command i) : w &&& rowMask i = rowMatch i := by
    obtain ⟨-, rfl⟩ := encodeInvertsDecode w i h
    exact encode_and_rowMask i
  refine ⟨fun _ => inRow, fun j hj hsign => ?row, fun j hj hm hf => ?sign, fun hno => ?noRow⟩
  case row =>
    obtain ⟨i, rfl, hi⟩ := exists_encode_of_and_rowMask hj
    exact ⟨i, decodeInvertsEncode i (i.wellFormed_iff.mpr (hi ▸ hsign)), hi⟩
  case sign =>
    obtain ⟨i, rfl, hi⟩ := exists_encode_of_and_rowMask hj
    have hw : ¬ i.wellFormed = true := fun hw => i.wellFormed_iff.mp hw ⟨hi.trans hm, hf⟩
    exact ⟨.signSameRegister, (decode_encode i).trans (if_neg hw)⟩
  case noRow =>
    cases h : decode w with
    | command i => exact absurd (inRow h) (hno i)
    | illegal why => exact ⟨why, rfl⟩

/-- Settles O4: the spec's words are closed terms, which the decoder evaluates. -/
theorem specWordsDecode : Obligations.SpecWordsDecode := by
  unfold Obligations.SpecWordsDecode
  decide

end Sys2Proof
end

section
/-! PROOF. Illegal words and illegal digest lengths (O6, O40; `30_encoding.md` R75, R77): both are found before the
command has any effect, so that only the report changes. -/

namespace Sys2Proof.Machine

/-- A `CMD` write of a word that is no command raises `E_ILLEGAL` (R75). -/
theorem hostMove_cmd_of_illegal {cfg : Config} {s : State} {v : W64} {why : Illegal}
    (h : decode (v.setWidth 32) = .illegal why) :
    hostMove cfg s (.writeReg 0 v) = .done ((s.reply .nothing).raise .illegal) := by
  rw [hostMove, if_pos (show regPlace 0 = .cmd from rfl), h]
  rfl

/-- Settles O6: the move raises `E_ILLEGAL`, whose code is 1. -/
theorem illegalWordOnlyReports : Obligations.IllegalWordOnlyReports := by
  intro s v rest why hp hd
  rw [step_of_hostMove_done hp (hostMove_cmd_of_illegal hd), State.raise_eq_failed]
  rfl

/-- `E_ARG` has code 4 (`60_exceptions.md` R302). -/
theorem exec_eq_failed_arg {i : Instr} {s : State} (h : commandEnd i s = .raises .arg s) :
    exec i s = .next (failed s 4) :=
  exec_eq_failed h

theorem not_lengthOk {l : Nat} (h : l = 0 ∨ 64 < l) : ¬ lengthOk l = true := fun hl => by
  have h1 : 1 ≤ l := of_decide_eq_true ((Bool.and_eq_true _ _).mp hl).1
  have h64 : l ≤ 64 := lengthOk_le hl
  omega

/-- Settles O40: the digest length is the first test of every command that has one. -/
theorem digestLengthErrors : Obligations.DigestLengthErrors := by
  intro s
  refine ⟨fun len h => ⟨?dbInit, ?dbHash, ?dbHashd⟩, fun h => ?dbOut⟩
  case dbInit => exact exec_eq_failed_arg (if_neg (not_lengthOk h))
  case dbHash => exact exec_eq_failed_arg (if_neg (not_lengthOk h))
  case dbHashd => exact exec_eq_failed_arg (if_neg (not_lengthOk h))
  case dbOut => exact exec_eq_failed_arg (if_pos h)

end Sys2Proof.Machine
end

section
/-! PROOF. The pseudo-commands on points (O48, O51; `30_encoding.md` R81). PMOV is an addition to infinity. PMULG is the
binary method on the base point, whose multiples are the 37 entries of `95_test_vectors.md` section 2.4: the binary
method's two points are entries of the table, and adding two entries adds their indices modulo 37. -/

namespace Sys2Proof.Machine

/-! ### Lists of commands -/

@[simp] theorem execAll_nil (s : State) : execAll [] s = .next s := rfl

@[simp] theorem execAll_cons (i : Instr) (is : List Instr) (s : State) :
    execAll (i :: is) s = execAll is (commandEnd i s).report := by
  rw [execAll, exec_eq_report]

/-! ### Commands that write a point -/

/-- A command writes a point in the form of R22. -/
theorem PointReg.ofPoint_eq_regOf (p : Point) : PointReg.ofPoint p = regOf p := by cases p <;> rfl

theorem report_pointEnd_some (pd : PReg) (s : State) (p : Point) :
    (pointEnd pd s (some p)).report = completed (withPoint s pd (regOf p)) := by
  rw [← PointReg.ofPoint_eq_regOf]
  rfl

theorem report_pinf (pd : PReg) (s : State) :
    (commandEnd (.pinf pd) s).report = completed (withPoint s pd (regOf .inf)) := rfl

theorem report_pldg (pd : PReg) (s : State) :
    (commandEnd (.pldg pd) s).report = completed (withPoint s pd (regOf baseG)) := rfl

/-- PADD completes with the sum (R201). -/
theorem report_padd (pd pa pb : PReg) (s : State) :
    (commandEnd (.padd pd pa pb) s).report =
      completed (withPoint s pd (regOf (pointSum (s.point pa) (s.point pb)))) := by
  rw [← report_pointEnd_some, ← pointAdd_eq_pointSum]
  rfl

/-- PMUL completes with what the binary method gives (R205). -/
theorem report_pmul (pd : PReg) (rk : SReg) (pa : PReg) (s : State) :
    (commandEnd (.pmul pd rk pa) s).report =
      completed (withPoint s pd (regOf (binaryMultiple (s.point pa) s.scalars[rk].toNat))) := by
  rw [← report_pointEnd_some, ← pointMultiply_eq_binaryMultiple _ _ (BitVec.isLt _)]
  rfl

/-! ### What the next command finds after a point has been written -/

theorem point_completed_withPoint_self (s : State) (i : PReg) (r : PointReg) :
    (completed (withPoint s i r)).point i = r.value := by
  simp [State.point, completed, withPoint]

theorem point_completed_withPoint_of_ne (s : State) {i j : PReg} (h : i ≠ j) (r : PointReg) :
    (completed (withPoint s i r)).point j = s.point j := by
  simp [State.point, completed, withPoint, Fin.val_ne_of_ne h]

theorem scalars_completed_withPoint (s : State) (i : PReg) (r : PointReg) :
    (completed (withPoint s i r)).scalars = s.scalars := rfl

/-- The second of two writes of one point register, with its report, is all that stays. -/
theorem completed_withPoint_twice (s : State) (i : PReg) (r r' : PointReg) :
    completed (withPoint (completed (withPoint s i r)) i r') = completed (withPoint s i r') := by
  simp [completed, withPoint]

/-- A point register written back with its own value: infinity loses its coordinates. -/
theorem regOf_value (r : PointReg) :
    regOf r.value = if r.inf then { inf := true, x := 0, y := 0 } else { inf := false, x := r.x, y := r.y } := by
  unfold PointReg.value
  split_ifs
  · rfl
  · simp [regOf]

/-! ### PMOV -/

/-- Infinity is neutral on the left (R200 case 1). -/
theorem pointSum_inf_left (p : Point) : pointSum .inf p = p := rfl

/-- Settles O51: the sum of infinity and the source is the source. -/
theorem pmovCopiesThePoint : Obligations.PmovCopiesThePoint := by
  intro s pd pa hne
  have hinf : (regOf .inf).value = .inf := rfl
  rw [pmov, if_neg hne, execAll_cons, execAll_cons, execAll_nil, report_pinf, report_padd, completed_withPoint_twice,
    point_completed_withPoint_self, point_completed_withPoint_of_ne s hne, hinf, pointSum_inf_left, State.point,
    regOf_value]

/-! ### PMULG -/

/-- The multiples of the base point by 0 to 36 (`95_test_vectors.md` section 2.4). -/
def baseMultiples : Vector Point 37 :=
  #v[.inf, .finite 1 5, .finite 4 19, .finite 20 3, .finite 15 27, .finite 6 12, .finite 17 19, .finite 24 22,
    .finite 8 10, .finite 14 23, .finite 13 23, .finite 10 25, .finite 19 13, .finite 16 27, .finite 5 22,
    .finite 3 1, .finite 0 22, .finite 27 2, .finite 2 23, .finite 2 6, .finite 27 27, .finite 0 7, .finite 3 28,
    .finite 5 7, .finite 16 2, .finite 19 16, .finite 10 4, .finite 13 6, .finite 14 6, .finite 8 19,
    .finite 24 7, .finite 17 10, .finite 6 17, .finite 15 2, .finite 20 26, .finite 4 10, .finite 1 24]

/-- The tabled multiple of the base point by any number. -/
def baseMultiple (k : Nat) : Point := baseMultiples[Fin.ofNat 37 k]

/-- The addition table of the 37 points: a finite check, sum by sum. -/
theorem pointSum_baseMultiples :
    ∀ a b : Fin 37, pointSum baseMultiples[a] baseMultiples[b] = baseMultiples[a + b] := by
  decide +kernel

/-- Adding two multiples of the base point adds the scalars. -/
theorem pointSum_baseMultiple (a b : Nat) : pointSum (baseMultiple a) (baseMultiple b) = baseMultiple (a + b) := by
  rw [baseMultiple, baseMultiple, pointSum_baseMultiples, baseMultiple]
  congr 1
  ext
  simp [Fin.val_add]

/-- After `j` bits the binary method holds the multiple by those bits and the multiple by `2 ^ j` (R204). -/
theorem binaryMethod_base (k j : Nat) :
    binaryMethod k baseG j = (baseMultiple (k % 2 ^ j), baseMultiple (2 ^ j)) := by
  induction j with
  | zero => rw [binaryMethod_zero, pow_zero, Nat.mod_one]; rfl
  | succ j ih =>
    rw [binaryMethod_succ, ih, pointSum_baseMultiple, pointSum_baseMultiple, Nat.mod_pow_succ,
      ← Nat.toNat_testBit, pow_succ, mul_two]
    cases k.testBit j <;> simp

/-- The binary method on the base point gives the tabled multiple of every 64-bit scalar (R204). -/
theorem binaryMultiple_baseG {k : Nat} (hk : k < 2 ^ 64) : binaryMultiple baseG k = baseMultiple k := by
  rw [binaryMultiple, binaryMethod_base, Nat.mod_eq_of_lt hk]

/-- Settles O48: PMULG is the binary method on the base point that PLDG has just loaded. -/
theorem pmulgGivesTheTableOfMultiples : Obligations.PmulgGivesTheTableOfMultiples := by
  intro s pd rk table
  have hbase : (regOf baseG).value = baseG := rfl
  rw [pmulg, execAll_cons, execAll_cons, execAll_nil, report_pldg, report_pmul, completed_withPoint_twice,
    point_completed_withPoint_self, scalars_completed_withPoint, hbase, binaryMultiple_baseG (BitVec.isLt _)]
  rfl

end Sys2Proof.Machine
end

section
/-! PROOF. Modular arithmetic (O21 to O25; `40_modarith.md` R100 to R107). The functions: `mod` is the multiple-shift of
its operand that lands in `[0, m)`. The commands: each tests its modulus, then writes the function's value; what the
value is comes from `mod_lt`, `mod_dvd` and `modinv_spec`. -/

namespace Sys2Proof.Machine

/-! ### The function `mod` (R100, R107) -/

/-- A multiple of `m` that shifts `v` into `[0, m)` gives the residue. -/
theorem mod_eq_add_mul {v k : Int} {m : Nat} (h0 : 0 ≤ v + m * k) (hlt : v + m * k < m) :
    (mod v m : Int) = v + m * k := by
  obtain ⟨r, hr⟩ := Int.eq_ofNat_of_zero_le h0
  have hd : (m : Int) ∣ v - r := ⟨-k, by linear_combination hr⟩
  rw [hr, mod_unique v m r (by omega) hd]

/-- A multiple of the modulus has residue 0. -/
theorem mod_eq_zero_of_dvd {v : Int} {m : Nat} (h : 1 ≤ m) (hd : (m : Int) ∣ v) : mod v m = 0 :=
  mod_unique v m 0 h (by simpa using hd)

/-- The shift by the floor of the quotient lands in `[0, m)`. -/
theorem mod_eq_sub_floor (v : Int) {m : Nat} (h : 1 ≤ m) : (mod v m : Int) = v - m * (v / m) := by
  have hm : (0 : Int) < m := by omega
  have hle : m * (v / m) ≤ v := Int.mul_ediv_self_le hm.ne'
  have hlt : v < m * (v / m) + m := Int.lt_mul_ediv_self_add hm
  rw [mod_eq_add_mul (k := -(v / m)) (by linarith) (by linarith), mul_neg, ← sub_eq_add_neg]

/-- The shift by the ceiling of the opposite quotient, `⌈-v / m⌉ = ⌊(-v + (m - 1)) / m⌋`, lands in `[0, m)`. -/
theorem mod_eq_add_ceil (v : Int) {m : Nat} (h : 1 ≤ m) : (mod v m : Int) = v + m * ((-v + (m - 1)) / m) := by
  have hm : (0 : Int) < m := by omega
  have hle : m * ((-v + (m - 1)) / m) ≤ -v + (m - 1) := Int.mul_ediv_self_le hm.ne'
  have hlt : -v + (m - 1) < m * ((-v + (m - 1)) / m) + m := Int.lt_mul_ediv_self_add hm
  exact mod_eq_add_mul (by linarith) (by linarith)

/-- Settles O21: in each row of R107 the value is a shift of `v` by a multiple of `m` that lies in `[0, m)`. -/
theorem modAtEverySign : Obligations.ModAtEverySign := by
  intro v m h
  refine ⟨mod_lt v m h, ?zero, ?below, ?modulus, ?above, ?negative, ?negModulus, ?belowNeg, ?one⟩
  case zero => rintro rfl; exact mod_eq_zero_of_dvd h (dvd_zero _)
  case below => intro h0 hlt; simpa using mod_eq_add_mul (v := v) (m := m) (k := 0) (by omega) (by omega)
  case modulus => rintro rfl; exact mod_eq_zero_of_dvd h dvd_rfl
  case above => exact fun _ => mod_eq_sub_floor v h
  case negative => intro hlt h0; simpa using mod_eq_add_mul (v := v) (m := m) (k := 1) (by omega) (by omega)
  case negModulus => rintro rfl; exact mod_eq_zero_of_dvd h (dvd_neg.mpr dvd_rfl)
  case belowNeg => exact fun _ => mod_eq_add_ceil v h
  case one => rintro rfl; exact mod_eq_zero_of_dvd h (one_dvd _)

/-! ### Commands that write a scalar -/

/-- A command that only writes the scalar `s[rd]` completes with it. -/
theorem exec_eq_completed_withScalar {i : Instr} {s : State} {rd : SReg} {r : Nat}
    (h : commandEnd i s = .completes (s.setScalar rd (toSW r))) :
    exec i s = .next (completed (withScalar s rd r)) := by
  rw [exec_eq_report, h]
  rfl

/-! ### A non-zero modulus -/

/-- MODRED writes the residue (R101). -/
theorem exec_modred {s : State} {rm : SReg} (hm : s.uintS rm ≠ 0) (rd rv : SReg) :
    exec (.modred rd rv rm) s = .next (completed (withScalar s rd (mod (s.sintS rv) (s.uintS rm)))) :=
  exec_eq_completed_withScalar (if_neg hm)

/-- MODMUL writes the residue of the product (R103). -/
theorem exec_modmul {s : State} {rm : SReg} (hm : s.uintS rm ≠ 0) (rd rx ry : SReg) :
    exec (.modmul rd rx ry rm) s =
      .next (completed (withScalar s rd (mod (s.sintS rx * s.sintS ry) (s.uintS rm)))) :=
  exec_eq_completed_withScalar (if_neg hm)

/-- MODINV writes the inverse where `modinv` finds one (R105). -/
theorem exec_modinv_of_some {s : State} {rv rm : SReg} {x : Nat} (hm : s.uintS rm ≠ 0)
    (hx : modinv (s.sintS rv) (s.uintS rm) = some x) (rd : SReg) :
    exec (.modinv rd rv rm) s = .next (completed (withScalar s rd x)) :=
  exec_eq_completed_withScalar (by rw [commandEnd, modinvEnd, if_neg hm, hx])

/-- Settles O22: the residue is `mod` of the signed operand. -/
theorem modredWritesTheResidue : Obligations.ModredWritesTheResidue := by
  intro s rd rv rm hm
  have h1 : 1 ≤ s.uintS rm := Nat.one_le_iff_ne_zero.mpr hm
  exact ⟨mod (s.sintS rv) (s.uintS rm), mod_lt _ _ h1, mod_dvd _ _ h1, exec_modred hm rd rv⟩

/-- Settles O23: the residue is `mod` of the product of the signed operands, which is taken in the integers. -/
theorem modmulWritesTheResidueOfTheExactProduct : Obligations.ModmulWritesTheResidueOfTheExactProduct := by
  intro s rd rx ry rm hm
  have h1 : 1 ≤ s.uintS rm := Nat.one_le_iff_ne_zero.mpr hm
  exact ⟨mod (s.sintS rx * s.sintS ry) (s.uintS rm), mod_lt _ _ h1, mod_dvd _ _ h1, exec_modmul hm rd rx ry⟩

/-- Settles O24: the extended Euclidean algorithm ends at the gcd, 1, with the inverse (`modinv_spec`). -/
theorem modinvWritesTheInverse : Obligations.ModinvWritesTheInverse := by
  intro s rd rv rm hm hgcd
  have h1 : 1 ≤ s.uintS rm := Nat.one_le_iff_ne_zero.mpr hm
  obtain ⟨x, hx, hlt, hd⟩ := (modinv_spec (s.sintS rv) (s.uintS rm) h1).1 hgcd
  exact ⟨x, hlt, hd, exec_modinv_of_some hm hx rd⟩

/-! ### The errors -/

theorem State.uintS_eq_zero_iff (s : State) (r : SReg) : s.uintS r = 0 ↔ s.scalars[r] = 0 :=
  BitVec.toNat_inj (y := 0#64)

/-- `E_MODZERO` has code 6 (`60_exceptions.md` R302). -/
theorem exec_eq_failed_modzero {i : Instr} {s : State} (h : commandEnd i s = .raises .modzero s) :
    exec i s = .next (failed s 6) :=
  exec_eq_failed h

/-- `E_DOMAIN` has code 2 (`60_exceptions.md` R302). -/
theorem exec_eq_failed_domain {i : Instr} {s : State} (h : commandEnd i s = .raises .domain s) :
    exec i s = .next (failed s 2) :=
  exec_eq_failed h

/-- MODINV raises `E_DOMAIN` where `modinv` finds no inverse (R105). -/
theorem exec_modinv_of_none {s : State} {rv rm : SReg} (hm : s.uintS rm ≠ 0)
    (hx : modinv (s.sintS rv) (s.uintS rm) = none) (rd : SReg) :
    exec (.modinv rd rv rm) s = .next (failed s 2) :=
  exec_eq_failed_domain (by rw [commandEnd, modinvEnd, if_neg hm, hx])

/-- Settles O25: the modulus is the first test of all three commands, and then MODINV asks `modinv` for an inverse,
which a gcd other than 1 shuts out (`modinv_spec`). -/
theorem modularArithmeticErrors : Obligations.ModularArithmeticErrors := by
  intro s rd rx ry rm
  rw [ne_eq, ← s.uintS_eq_zero_iff rm]
  refine ⟨fun hz => ⟨?modred, ?modmul, ?modinv⟩, fun hm hgcd => ?domain⟩
  case modred => exact exec_eq_failed_modzero (if_pos hz)
  case modmul => exact exec_eq_failed_modzero (if_pos hz)
  case modinv => exact exec_eq_failed_modzero (if_pos hz)
  case domain =>
    have h1 : 1 ≤ s.uintS rm := Nat.one_le_iff_ne_zero.mpr hm
    exact exec_modinv_of_none hm ((modinv_spec (s.sintS rx) (s.uintS rm) h1).2 hgcd) rd

end Sys2Proof.Machine
end

section
/-! PROOF. Byte sequences (`00_scope.md` R13, R14; `20_memory.md` R52): the bytes of serialized words, and slices of
what was read from a buffer. -/

namespace Sys2Proof.Machine

/-- In a sequence of parts of `k` bytes each, byte `k·i + j` is byte `j` of part `i`. -/
theorem getElem?_flatMap_of_length {α β : Type} {f : α → List β} {k : Nat} (hf : ∀ a, (f a).length = k)
    (l : List α) (i : Nat) {j : Nat} (hj : j < k) : (l.flatMap f)[k * i + j]? = l[i]?.bind fun a => (f a)[j]? := by
  induction l generalizing i with
  | nil => simp
  | cons a l ih =>
    rw [List.flatMap_cons]
    cases i with
    | zero => rw [List.getElem?_append_left (by rw [hf]; omega)]; simp
    | succ i =>
      have hle : k ≤ k * (i + 1) + j := by rw [Nat.mul_succ]; omega
      have hsub : k * (i + 1) + j - k = k * i + j := by rw [Nat.mul_succ]; omega
      rw [List.getElem?_append_right (by rw [hf]; exact hle), hf, hsub, ih, List.getElem?_cons_succ]

/-- Byte `k` of `be32(w)`, counted from the most significant one. -/
theorem be32_getElem? (w : W32) (k : Fin 4) : (be32 w)[k.val]? = some (w.extractLsb' (8 * (3 - k)) 8) := by
  fin_cases k <;> rfl

/-- Byte `k` of `be64(v)`, counted from the most significant one. -/
theorem be64_getElem? (v : W64) (k : Fin 8) : (be64 v)[k.val]? = some (v.extractLsb' (8 * (7 - k)) 8) := by
  fin_cases k <;> rfl

/-- A byte of a number that fits in 64 bits. -/
theorem extractLsb'_ofNat_byte {n : Nat} (hn : n < 2 ^ 64) (i : Nat) :
    (BitVec.ofNat 64 n).extractLsb' i 8 = BitVec.ofNat 8 (n / 2 ^ i) := by
  apply BitVec.eq_of_toNat_eq
  rw [BitVec.extractLsb'_toNat, BitVec.toNat_ofNat, BitVec.toNat_ofNat, Nat.mod_eq_of_lt hn, Nat.shiftRight_eq_div_pow]

/-- A slice of a run of bytes read from a buffer is a shorter run (R52). -/
theorem slice_readBytes (m : Memory) (a : Nat) {n i k : Nat} (h : i + k ≤ n) :
    slice (m.readBytes a n) i k = m.readBytes (a + i) k := by
  refine List.ext_getElem (by simp [slice]; omega) fun j h1 h2 => ?_
  simp only [slice, List.getElem_take, List.getElem_drop, Memory.readBytes_getElem, Nat.add_assoc]

/-- `BE32` of four bytes read from a buffer, as a sum of powers of 256. -/
theorem wordBE32_readBytes (m : Memory) (a : Nat) :
    wordBE32 (m.readBytes a 4) = BitVec.ofNat 32 ((m.read a).toNat * 2 ^ 24 + (m.read (a + 1)).toNat * 2 ^ 16 +
      (m.read (a + 2)).toNat * 2 ^ 8 + (m.read (a + 3)).toNat) := by
  have hread : m.readBytes a 4 = [m.read a, m.read (a + 1), m.read (a + 2), m.read (a + 3)] := rfl
  rw [wordBE32, hread]
  refine congrArg (BitVec.ofNat 32) ?_
  simp only [beNat, List.foldl_cons, List.foldl_nil]
  ring

end Sys2Proof.Machine
end

section
/-! PROOF. The padding of digest A (O29; `41_digest_a.md` R121): the four parts of the padded message, each read at its
own offset. -/

namespace Sys2Proof.Machine

theorem padLenA_le (n : Nat) : padLenA n ≤ 63 := by
  unfold padLenA
  split_ifs <;> omega

/-- The zero bytes fill up to a whole number of blocks. -/
theorem dvd_add_padLenA (n : Nat) : 64 ∣ n + 1 + padLenA n + 8 := by
  unfold padLenA
  split_ifs <;> omega

@[simp] theorem padA_length (m : List Byte) : (padA m).length = m.length + 1 + padLenA m.length + 8 := by
  simp only [padA, List.length_append, List.length_singleton, zeros_length, be64_length]

/-- A padded message has at least one block. -/
theorem le_padA_length (m : List Byte) : 64 ≤ (padA m).length := by
  have hd := dvd_add_padLenA m.length
  rw [padA_length]
  omega

/-- The message stands first. -/
theorem padA_getElem?_message (m : List Byte) {i : Nat} (h : i < m.length) : (padA m)[i]? = m[i]? := by
  simp only [padA, List.append_assoc]
  exact List.getElem?_append_left h

/-- After the message, an offset into the padded message is an offset into what is appended. -/
theorem padA_getElem?_length_add (m : List Byte) (i : Nat) :
    (padA m)[m.length + i]? =
      (0x80 :: (zeros (padLenA m.length) ++ be64 (BitVec.ofNat 64 (8 * m.length))))[i]? := by
  simp only [padA, List.append_assoc]
  rw [List.getElem?_append_right (Nat.le_add_right _ _), Nat.add_sub_cancel_left]
  rfl

/-- The marker byte follows the message. -/
theorem padA_getElem?_marker (m : List Byte) : (padA m)[m.length]? = some 0x80 :=
  padA_getElem?_length_add m 0

theorem padA_getElem?_zero (m : List Byte) {i : Nat} (h : i < padLenA m.length) :
    (padA m)[m.length + 1 + i]? = some 0 := by
  rw [Nat.add_assoc, Nat.add_comm 1, padA_getElem?_length_add, List.getElem?_cons_succ,
    List.getElem?_append_left (by simpa using h), zeros, List.getElem?_replicate_of_lt h]

/-- The bit length stands last, as `be64`. -/
theorem padA_getElem?_bitLength (m : List Byte) (i : Nat) :
    (padA m)[m.length + 1 + padLenA m.length + i]? = (be64 (BitVec.ofNat 64 (8 * m.length)))[i]? := by
  rw [Nat.add_assoc, Nat.add_assoc, Nat.add_comm 1, padA_getElem?_length_add, List.getElem?_cons_succ,
    List.getElem?_append_right (by simp), zeros_length, Nat.add_sub_cancel_left]

/-- Settles O29: the parts of the padded message in order; the bit length of a message of less than 2^29 bytes fits in
the 64 bits it is written in. -/
theorem paddingOfDigestA : Obligations.PaddingOfDigestA := by
  intro m hm pad
  refine ⟨padLenA_le _, padA_length m, ?whole, le_padA_length m, fun i => padA_getElem?_message m,
    padA_getElem?_marker m, fun i => padA_getElem?_zero m, fun i hi => ?bitLength⟩
  case whole => rw [padA_length]; exact dvd_add_padLenA _
  case bitLength =>
    rw [← extractLsb'_ofNat_byte (show 8 * m.length < 2 ^ 64 by omega)]
    exact (padA_getElem?_bitLength m i).trans (be64_getElem? _ ⟨i, hi⟩)

end Sys2Proof.Machine
end

section
/-! PROOF. The commands of the digest A unit (O26 to O28, O30, O31; `41_digest_a.md` R122 to R128): what one compression
and a chain of them give, what a digest written to `DG` reads as, and from these the four commands. -/

namespace Sys2Proof.Machine

/-- A command that completes leaves its data state with completion reported. -/
theorem exec_eq_completed {i : Instr} {s t : State} (h : commandEnd i s = .completes t) :
    exec i s = .next (completed t) := by
  rw [exec_eq_report, h]
  rfl

/-- A list of commands goes on from the state its first command leaves. -/
theorem execAll_cons_of_exec {i : Instr} {s t : State} (h : exec i s = .next t) (is : List Instr) :
    execAll (i :: is) s = execAll is t := by
  rw [execAll, h]

theorem blockOk_of_le {cfg : Config} {off k : Nat} (h : off + k ≤ cfg.mbsize) : blockOk cfg off k = true :=
  decide_eq_true h

theorem State.messageOk_of_le {cfg : Config} {s : State} (h : s.mlen.toNat ≤ cfg.mbsize) : s.messageOk cfg = true :=
  decide_eq_true h

/-- The message is the first `MLEN` bytes of `MB` (`10_state.md` R27). -/
theorem State.message_eq_map_read (s : State) :
    s.message = (List.range s.mlen.toNat).map fun i => s.mb.read i := by
  simp [State.message, Memory.readBytes]

/-! ### Compression (R122 to R124) -/

/-- The words of a block that stands in a buffer (R122). -/
theorem aBlockWords_readBytes (m : Memory) (a : Nat) :
    aBlockWords (m.readBytes a 64) = Vector.ofFn fun j : Fin 16 => BitVec.ofNat 32
      ((m.read (a + 4 * j)).toNat * 2 ^ 24 + (m.read (a + (4 * j + 1))).toNat * 2 ^ 16 +
        (m.read (a + (4 * j + 2))).toNat * 2 ^ 8 + (m.read (a + (4 * j + 3))).toNat) := by
  unfold aBlockWords
  congr 1
  funext j
  rw [slice_readBytes m a (by omega), wordBE32_readBytes]
  rfl

/-- A compression adds the working variables to the state position by position (R123). -/
theorem aCompress_eq_ofFn (p : DigestAParams) (h : Vector W32 4) (b : List Byte) :
    aCompress p h b = Vector.ofFn fun i : Fin 4 => h[i] + (aRounds p (p.sched (aBlockWords b)) h)[i] := by
  ext i hi
  simp [aCompress]

/-- The state after the first `n` blocks of a sequence (R124). -/
def aChain (p : DigestAParams) (bs : List Byte) (n : Nat) : Vector W32 4 :=
  (List.range n).foldl (fun h i => aCompress p h (slice bs (Config.aBlock * i) Config.aBlock)) p.iv

theorem aChain_zero (p : DigestAParams) (bs : List Byte) : aChain p bs 0 = p.iv := rfl

theorem aChain_succ (p : DigestAParams) (bs : List Byte) (n : Nat) :
    aChain p bs (n + 1) = aCompress p (aChain p bs n) (slice bs (64 * n) 64) := by
  rw [aChain, List.range_succ, List.foldl_append]
  rfl

/-- Digest A ends after the last block of the padded message (R124). -/
theorem digestAState_eq_aChain (p : DigestAParams) (m : List Byte) :
    digestAState p m = aChain p (padA m) ((padA m).length / 64) := rfl

/-- A message whose padded form is one block is digested by one compression (R124). -/
theorem digestAState_of_length_padA {p : DigestAParams} {m : List Byte} (h : (padA m).length = 64) :
    digestAState p m = aCompress p p.iv (padA m) := by
  have hslice : slice (padA m) (64 * 0) 64 = padA m := by simp [slice, ← h]
  rw [digestAState_eq_aChain, h, aChain_succ, aChain_zero, hslice]

/-! ### The digest in `DG` (R127) -/

/-- Byte `k` of word `i` of the serialized state. -/
theorem aOutput_getElem? (h : Vector W32 4) (i k : Fin 4) :
    (aOutput h)[4 * i.val + k.val]? = some (h[i].extractLsb' (8 * (3 - k)) 8) := by
  rw [aOutput, getElem?_flatMap_of_length be32_length _ _ k.isLt]
  simp [be32_getElem?]

/-- What `DG` reads as once a digest A has been written to it (`10_state.md` R28). -/
theorem State.read_setDigest_aOutput (s : State) (h : Vector W32 4) (hwf : s.dg.wf = true) :
    (∀ i k : Fin 4, (s.setDigest (aOutput h)).dg.read (4 * i + k) = h[i].extractLsb' (8 * (3 - k)) 8) ∧
    (∀ j, 16 ≤ j → j < 64 → (s.setDigest (aOutput h)).dg.read j = 0) ∧
    (∀ j, 64 ≤ j → (s.setDigest (aOutput h)).dg.read j = s.dg.read j) := by
  have hread := State.setDigest_read s (aOutput h) (by simp) hwf
  rw [aOutput_length] at hread
  refine ⟨fun i k => ?digest, fun j h16 h64 => ?zeros, fun j h64 => ?beyond⟩
  case digest => rw [hread, if_pos (by omega), List.getD_eq_getElem?_getD, aOutput_getElem?, Option.getD_some]
  case zeros => rw [hread, if_neg (by omega), if_pos h64]
  case beyond => rw [hread, if_neg (by omega), if_neg (by omega)]

/-- A digest A in `DG` is 16 bytes long (`10_state.md` R29). -/
theorem State.setDigest_aOutput_eq (s : State) (h : Vector W32 4) :
    s.setDigest (aOutput h) = { s with dg := (s.setDigest (aOutput h)).dg, dlen := 16 } := by
  simp [State.setDigest]

/-! ### The commands -/

/-- DA.INIT (R125). -/
theorem exec_daInit (s : State) : exec .daInit s = .next (completed (s.setHa Config.core.digestA.iv)) :=
  exec_eq_completed rfl

/-- DA.CMP with its block inside `MB` (R126). -/
theorem exec_daCmp {s : State} {roff : SReg} (h : s.scalars[roff].toNat + 64 ≤ Config.core.mbsize) :
    exec (.daCmp roff) s = .next (completed (s.setHa
      (aCompress Config.core.digestA s.ha (s.mb.readBytes s.scalars[roff].toNat 64)))) :=
  exec_eq_completed (if_pos (blockOk_of_le h))

/-- DA.OUT (R127). -/
theorem exec_daOut (s : State) : exec .daOut s = .next (completed (s.setDigest (aOutput s.ha))) :=
  exec_eq_completed rfl

/-- DA.HASH with the message inside `MB` is a digest put into `ha` and then written as DA.OUT writes it (R128). -/
theorem exec_daHash {s : State} (h : s.mlen.toNat ≤ Config.core.mbsize) :
    exec .daHash s = .next (completed
      ((s.setHa (digestAState Config.core.digestA s.message)).setDigest
        (aOutput (digestAState Config.core.digestA s.message)))) :=
  exec_eq_completed (if_pos (State.messageOk_of_le h))

/-- Settles O26: DA.INIT is one write of `ha`. -/
theorem daInitLoadsTheInitialState : Obligations.DaInitLoadsTheInitialState := exec_daInit

/-- Settles O27: the compression of `aCompress_eq_ofFn` on the words of `aBlockWords_readBytes`. -/
theorem daCmpCompressesOneBlock : Obligations.DaCmpCompressesOneBlock := by
  intro s roff hfit byte words sched work
  have hwork : aRounds Config.core.digestA
      (Config.core.digestA.sched (aBlockWords (s.mb.readBytes s.scalars[roff].toNat 64))) s.ha = work := by
    rw [aBlockWords_readBytes]
    rfl
  rw [exec_daCmp hfit, aCompress_eq_ofFn, hwork]
  rfl

/-- Settles O28: DA.OUT is one digest write of `ha`, read back byte by byte. -/
theorem daOutWritesBigEndianDigest : Obligations.DaOutWritesBigEndianDigest := by
  intro s hwf
  refine ⟨(s.setDigest (aOutput s.ha)).dg, ?_, s.read_setDigest_aOutput s.ha hwf⟩
  rw [exec_daOut, State.setDigest_aOutput_eq]

/-- Settles O30: the states between the blocks are those of `aChain`. -/
theorem daHashChainsTheBlocks : Obligations.DaHashChainsTheBlocks := by
  intro s hfit hwf p
  have hp : padA s.message = p := by rw [State.message_eq_map_read]
  have hlast : digestAState Config.core.digestA s.message = aChain Config.core.digestA p (p.length / 64) := by
    rw [digestAState_eq_aChain, hp]
  refine ⟨aChain Config.core.digestA p, _, aChain_zero _ _, fun b _ => aChain_succ _ _ b, ?_,
    (s.setHa (aChain Config.core.digestA p (p.length / 64))).read_setDigest_aOutput _ hwf⟩
  rw [exec_daHash hfit, hlast, State.setDigest_aOutput_eq]
  rfl

/-- The padded form of a message of at most 55 bytes is one block (R121). -/
theorem padA_length_of_le {m : List Byte} (h : m.length ≤ 55) : (padA m).length = 64 := by
  have hd := dvd_add_padLenA m.length
  have hle := padLenA_le m.length
  rw [padA_length]
  omega

/-- Settles O31: DA.INIT and DA.CMP leave in `ha` the one compression that is digest A of the message, and DA.OUT
writes it as DA.HASH does. -/
theorem digestABlockByBlockIsDigestA : Obligations.DigestABlockByBlockIsDigestA := by
  intro s roff hlen hfit hblock
  have hone : (padA s.message).length = 64 := padA_length_of_le (by simpa [State.message] using hlen)
  have hstate : digestAState Config.core.digestA s.message =
      aCompress Config.core.digestA Config.core.digestA.iv (s.mb.readBytes s.scalars[roff].toNat 64) := by
    rw [digestAState_of_length_padA hone, hblock, State.message]
  refine ⟨_, ?_, exec_daHash (by omega)⟩
  rw [hstate, execAll_cons_of_exec (exec_daInit s),
    execAll_cons_of_exec (exec_daCmp (s := completed (s.setHa Config.core.digestA.iv)) hfit),
    execAll_cons_of_exec (exec_daOut _), execAll_nil]
  rfl

end Sys2Proof.Machine
end

section
/-! PROOF. The inside of a digest B compression (O33; `42_digest_b.md` R156 to R162): one step of G and the whole of G
as values of every word, the message words, the working vector and the initial state word by word. -/

namespace Sys2Proof.Machine

/-! ### The mixing function G (R160) -/

/-- One step of G leaves the sum in word `a` (R160). -/
theorem bAddXorRot_sum (v : Vector W64 16) {a d : Fin 16} (had : a ≠ d) (b : Fin 16) (x : W64) (r : Nat) :
    (bAddXorRot v a b d x r)[a] = v[a] + v[b] + x := by
  simp [bAddXorRot, Vector.getElem_set, Fin.val_inj, had.symm]

/-- One step of G leaves in word `d` the rotation of its xor with that sum (R160). -/
theorem bAddXorRot_rotated (v : Vector W64 16) {a d : Fin 16} (had : a ≠ d) (b : Fin 16) (x : W64) (r : Nat) :
    (bAddXorRot v a b d x r)[d] = (v[d] ^^^ (v[a] + v[b] + x)).rotateRight r := by
  simp [bAddXorRot, Fin.val_inj, had]

/-- One step of G leaves every other word as it was (R160). -/
theorem bAddXorRot_other (v : Vector W64 16) {a d e : Fin 16} (hae : a ≠ e) (hde : d ≠ e) (b : Fin 16) (x : W64)
    (r : Nat) : (bAddXorRot v a b d x r)[e] = v[e] := by
  simp [bAddXorRot, Vector.getElem_set, Fin.val_inj, hae, hde]

/-- Half of G (R160): a step into the words `a` and `d`, then one into the words `c` and `b`. -/
def bHalfMix (v : Vector W64 16) (a b c d : Fin 16) (x : W64) (r r' : Nat) : Vector W64 16 :=
  bAddXorRot (bAddXorRot v a b d x r) c d b 0 r'

theorem bMix_eq_bHalfMix (v : Vector W64 16) (a b c d : Fin 16) (x y : W64) :
    bMix v a b c d x y = bHalfMix (bHalfMix v a b c d x 32 24) a b c d y 16 63 := rfl

/-- Half of G on four different words, word by word. -/
theorem bHalfMix_words (v : Vector W64 16) {a b c d : Fin 16} (hab : a ≠ b) (hac : a ≠ c) (had : a ≠ d) (hbc : b ≠ c)
    (hbd : b ≠ d) (hcd : c ≠ d) (x : W64) (r r' : Nat) :
    let w := bHalfMix v a b c d x r r'
    w[a] = v[a] + v[b] + x ∧ w[d] = (v[d] ^^^ w[a]).rotateRight r ∧ w[c] = v[c] + w[d] ∧
      w[b] = (v[b] ^^^ w[c]).rotateRight r' ∧ ∀ e, e ≠ a → e ≠ b → e ≠ c → e ≠ d → w[e] = v[e] := by
  intro w
  let u := bAddXorRot v a b d x r
  have ha : w[a] = u[a] := bAddXorRot_other u hac.symm hab.symm d 0 r'
  have hd : w[d] = u[d] := bAddXorRot_other u hcd hbd d 0 r'
  have hc : w[c] = u[c] + u[d] := (bAddXorRot_sum u hbc.symm d 0 r').trans (BitVec.add_zero _)
  have hb : w[b] = (u[b] ^^^ w[c]).rotateRight r' := by
    rw [hc, ← BitVec.add_zero (u[c] + u[d])]
    exact bAddXorRot_rotated u hbc.symm d 0 r'
  have hua : u[a] = v[a] + v[b] + x := bAddXorRot_sum v had b x r
  have hud : u[d] = (v[d] ^^^ u[a]).rotateRight r := by rw [hua]; exact bAddXorRot_rotated v had b x r
  have huc : u[c] = v[c] := bAddXorRot_other v hac hcd.symm b x r
  have hub : u[b] = v[b] := bAddXorRot_other v hab hbd.symm b x r
  refine ⟨ha.trans hua, ?_, ?_, ?_, fun e hea heb hec hed => ?_⟩
  · rw [hd, ha, hud]
  · rw [hc, hd, huc]
  · rw [hb, hub]
  · exact (bAddXorRot_other u hec.symm heb.symm d 0 r').trans (bAddXorRot_other v hea.symm hed.symm b x r)

/-- Settles O33: G is two halves, the second on the words that the first left. -/
theorem mixingFunctionG : Obligations.MixingFunctionG := by
  intro v a b c d x y hab hac had hbc hbd hcd a1 d1 c1 b1 a2 d2 c2 b2
  obtain ⟨ha1, hd1, hc1, hb1, hother1⟩ := bHalfMix_words v hab hac had hbc hbd hcd x 32 24
  obtain ⟨ha2, hd2, hc2, hb2, hother2⟩ :=
    bHalfMix_words (bHalfMix v a b c d x 32 24) hab hac had hbc hbd hcd y 16 63
  rw [ha1] at hd1
  rw [hd1] at hc1
  rw [hc1] at hb1
  rw [ha1, hb1] at ha2
  rw [hd1, ha2] at hd2
  rw [hc1, hd2] at hc2
  rw [hb1, hc2] at hb2
  rw [bMix_eq_bHalfMix]
  exact ⟨ha2, hb2, hc2, hd2, fun e ha hb hc hd => (hother2 e ha hb hc hd).trans (hother1 e ha hb hc hd)⟩

/-! ### The message words (R156) -/

/-- The little-endian integer of a run of bytes, as a sum of powers of 256 (`00_scope.md` R13). -/
theorem leNat_readBytes (m : Memory) (a n : Nat) :
    leNat (m.readBytes a n) = ((List.range n).map fun k => (m.read (a + k)).toNat * 2 ^ (8 * k)).sum := by
  induction n generalizing a with
  | zero => rfl
  | succ n ih =>
    have hcons : m.readBytes a (n + 1) = m.read a :: m.readBytes (a + 1) n := by
      simp [Memory.readBytes, List.range_succ_eq_map, Nat.add_assoc, Nat.add_comm 1]
    rw [hcons, leNat, ih, List.range_succ_eq_map, List.map_cons, List.sum_cons, List.map_map, ← List.sum_map_mul_left]
    congr 1
    · simp
    · refine congrArg List.sum (List.map_congr_left fun k _ => ?_)
      simp only [Function.comp_apply, Nat.succ_eq_add_one, Nat.add_assoc, Nat.add_comm 1]
      ring

/-- The words of a block that stands in a buffer (R156). -/
theorem bBlockWords_readBytes (m : Memory) (a : Nat) :
    bBlockWords (m.readBytes a 128) = Vector.ofFn fun j : Fin 16 => BitVec.ofNat 64
      ((List.range 8).map fun k => (m.read (a + (8 * j + k))).toNat * 2 ^ (8 * k)).sum := by
  unfold bBlockWords
  congr 1
  funext j
  rw [slice_readBytes m a (by omega), wordLE64, leNat_readBytes]
  simp only [Nat.add_assoc]

/-! ### The working vector and the initial state (R151, R157 to R159) -/

/-- A word of the concatenation of the state with `B_CV` (R157). -/
theorem getElem_state_append (h cv : Vector W64 8) (i : Nat) (hi : i < 16) :
    (h ++ cv : Vector W64 16)[i] = if h8 : i < 8 then h[i] else cv[i - 8] :=
  Vector.getElem_append hi

/-- The working vector against that concatenation: the counter goes into word 12 (R158), and word 14 is inverted on
the last block (R159). -/
theorem bWorking_getElem (p : DigestBParams) (h : Vector W64 8) (t : Nat) (last : Bool) (i : Nat) (hi : i < 16) :
    (bWorking p h t last)[i] =
      if i = 12 then p.cv[4] ^^^ BitVec.ofNat 64 t
      else if i = 14 ∧ last = true then ~~~ p.cv[6]
      else (h ++ p.cv : Vector W64 16)[i] := by
  have hones (w : W64) : w ^^^ 18446744073709551615#64 = ~~~ w := BitVec.xor_allOnes
  cases last with
  | false => simp [bWorking, Vector.getElem_set, getElem_state_append, eq_comm]
  | true =>
    rcases eq_or_ne i 12 with rfl | h12
    · simp [bWorking, getElem_state_append]
    · simp [bWorking, Vector.getElem_set, getElem_state_append, hones, h12, Ne.symm, eq_comm]

/-- The working vector word by word (R157 to R159). -/
theorem bWorking_eq_ofFn (p : DigestBParams) (h : Vector W64 8) (t : W64) (last : Bool) :
    bWorking p h t.toNat last = Vector.ofFn fun i : Fin 16 =>
      if i < 8 then h[Fin.ofNat 8 i.val]
      else if i = 12 then p.cv[(4 : Fin 8)] ^^^ t
      else if i = 14 ∧ last = true then ~~~ p.cv[(6 : Fin 8)]
      else p.cv[Fin.ofNat 8 (i.val - 8)] := by
  ext1 i hi
  rw [bWorking_getElem, Vector.getElem_ofFn, getElem_state_append, BitVec.ofNat_toNat, BitVec.setWidth_eq]
  simp only [Fin.lt_def, Fin.ext_iff]
  by_cases h8 : i < 8
  · simp [h8, show i ≠ 12 by omega, show i ≠ 14 by omega, Nat.mod_eq_of_lt]
  · simp [h8, Nat.mod_eq_of_lt (show i - 8 < 8 by omega)]

/-- The initial state word by word (R151). -/
theorem bInit_eq_ofFn (p : DigestBParams) (l : Nat) :
    bInit p l = Vector.ofFn fun i : Fin 8 => if i = 0 then p.iv[i] ^^^ p.param l else p.iv[i] := by
  ext1 i hi
  rw [bInit, Vector.getElem_set, Vector.getElem_ofFn]
  by_cases h0 : i = 0
  · subst h0; rfl
  · rw [if_neg (Ne.symm h0), if_neg (by simpa [Fin.ext_iff] using h0)]
    rfl

end Sys2Proof.Machine
end

section
/-! PROOF. The commands of the digest B unit (O32, O34 to O38; `42_digest_b.md` R163 to R169): the chain of the full
blocks and its final compression, what a digest written to `DG` reads as, and from these the five commands. -/

namespace Sys2Proof.Machine

/-! ### Hashing a message (R164) -/

theorem bFullBlocks_zero (p : DigestBParams) (h : Vector W64 8) (m : List Byte) : bFullBlocks p h m 0 = h := rfl

/-- The chain of full blocks goes on with the next block, whose counter is the number of bytes up to its end. -/
theorem bFullBlocks_succ (p : DigestBParams) (h : Vector W64 8) (m : List Byte) (k : Nat) :
    bFullBlocks p h m (k + 1) =
      bCompress p (bFullBlocks p h m k) (slice m (128 * k) 128) (128 * (k + 1)) false := by
  rw [bFullBlocks, List.range_succ, List.foldl_append]
  rfl

/-- The empty message is one block of zeros. -/
theorem digestBState_of_length_eq_zero (p : DigestBParams) {m : List Byte} (l : Nat) (h : m.length = 0) :
    digestBState p m l = bCompress p (bInit p l) (zeros 128) 0 true :=
  if_pos h

/-- Where every block is full and an empty final one follows, all the blocks are chained. -/
theorem digestBState_of_extraEmptyFinal {p : DigestBParams} {m : List Byte} (l : Nat) (h0 : m.length ≠ 0)
    (hfull : m.length % 128 = 0) (hp : p.fullFinal = .extraEmptyFinal) :
    digestBState p m l =
      bCompress p (bFullBlocks p (bInit p l) m (m.length / 128)) (zeros 128) m.length true := by
  have hblocks : (m.length + 127) / 128 = m.length / 128 := by omega
  rw [← hblocks]
  exact (if_neg h0).trans (if_pos ⟨hp, hfull⟩)

/-- Otherwise the last block, full or not, is the final one, and the blocks before it are chained. -/
theorem digestBState_of_last_final {p : DigestBParams} {m : List Byte} (l : Nat) (h0 : m.length ≠ 0)
    (hlast : m.length % 128 ≠ 0 ∨ p.fullFinal = .lastFullIsFinal) :
    digestBState p m l = bCompress p (bFullBlocks p (bInit p l) m ((m.length - 1) / 128))
      (m.drop (128 * ((m.length - 1) / 128)) ++ zeros (128 - (m.length - 128 * ((m.length - 1) / 128))))
      m.length true := by
  have hblocks : (m.length + 127) / 128 - 1 = (m.length - 1) / 128 := by omega
  have hnot : ¬ (p.fullFinal = .extraEmptyFinal ∧ m.length % 128 = 0) := by
    rintro ⟨hextra, hfull⟩
    rcases hlast with hpart | hp
    · exact hpart hfull
    · exact FullFinal.noConfusion (hp.symm.trans hextra)
  rw [← hblocks, ← List.length_drop]
  exact (if_neg h0).trans (if_neg hnot)

/-- A message shorter than a block is hashed by one compression, whatever `B_FULLFINAL` is. -/
theorem digestBState_of_length_lt (p : DigestBParams) {m : List Byte} (l : Nat) (h : m.length < 128) :
    digestBState p m l = bCompress p (bInit p l) (m ++ zeros (128 - m.length)) m.length true := by
  rcases Nat.eq_zero_or_pos m.length with h0 | hpos
  · rw [digestBState_of_length_eq_zero p l h0, List.eq_nil_of_length_eq_zero h0]
    rfl
  · have hblock : (m.length - 1) / 128 = 0 := by omega
    rw [digestBState_of_last_final l (by omega) (Or.inl (by omega)), hblock, bFullBlocks_zero]
    rfl

/-! ### The digest in `DG` (R167) -/

/-- Byte `k` of `le64(w)`, counted from the least significant one. -/
theorem le64_getElem? (w : W64) (k : Fin 8) : (le64 w)[k.val]? = some (w.extractLsb' (8 * k) 8) := by
  fin_cases k <;> rfl

/-- Byte `k` of word `i` of the serialized state, where the output reaches it. -/
theorem bOutput_getElem? (h : Vector W64 8) {l : Nat} (i k : Fin 8) (hl : 8 * i.val + k.val < l) :
    (bOutput h l)[8 * i.val + k.val]? = some (h[i].extractLsb' (8 * k) 8) := by
  rw [bOutput, List.getElem?_take_of_lt hl, getElem?_flatMap_of_length le64_length _ _ k.isLt]
  simp [le64_getElem?]

/-- What `DG` reads as once a digest B of `l` bytes has been written to it (`10_state.md` R28). -/
theorem State.read_setDigest_bOutput (s : State) (h : Vector W64 8) {l : Nat} (hl : l ≤ 64) (hwf : s.dg.wf = true) :
    (∀ i k : Fin 8, 8 * i.val + k.val < l →
      (s.setDigest (bOutput h l)).dg.read (8 * i + k) = h[i].extractLsb' (8 * k) 8) ∧
    (∀ j, l ≤ j → j < 64 → (s.setDigest (bOutput h l)).dg.read j = 0) ∧
    (∀ j, 64 ≤ j → (s.setDigest (bOutput h l)).dg.read j = s.dg.read j) := by
  have hlen := bOutput_length h l hl
  have hread := State.setDigest_read s (bOutput h l) (hlen.trans_le hl) hwf
  rw [hlen] at hread
  refine ⟨fun i k hik => ?digest, fun j hlj h64 => ?zeros, fun j h64 => ?beyond⟩
  case digest => rw [hread, if_pos hik, List.getD_eq_getElem?_getD, bOutput_getElem? h i k hik, Option.getD_some]
  case zeros => rw [hread, if_neg (by omega), if_pos h64]
  case beyond => rw [hread, if_neg (by omega), if_neg (by omega)]

/-- A digest B in `DG` is as long as it was asked for (`10_state.md` R29). -/
theorem State.setDigest_bOutput_eq (s : State) (h : Vector W64 8) {l : Nat} (hl : l ≤ 64) :
    s.setDigest (bOutput h l) = { s with dg := (s.setDigest (bOutput h l)).dg, dlen := BitVec.ofNat 7 l } := by
  simp [State.setDigest, bOutput_length h l hl]

/-- The state after DB.HASH or DB.HASHD on a message: the final hash state is in `hb`, its output in `DG`, and both
lengths are the one asked for (R168, R169). -/
theorem State.performDbHash_spec {p : DigestBParams} {m : List Byte} {l : Nat} {out : Vector W64 8} {s : State}
    (hout : digestBState p m l = out) (hl : l ≤ 64) (hwf : s.dg.wf = true) :
    ∃ dg' : Memory,
      s.performDbHash p m l =
        { s with hb := out, hbl := BitVec.ofNat 7 l, dg := dg', dlen := BitVec.ofNat 7 l } ∧
      (∀ i k : Fin 8, 8 * i.val + k.val < l → dg'.read (8 * i + k) = out[i].extractLsb' (8 * k) 8) ∧
      (∀ j, l ≤ j → j < 64 → dg'.read j = 0) ∧ (∀ j, 64 ≤ j → dg'.read j = s.dg.read j) := by
  refine ⟨_, ?_, ((s.setHb out).setHbl l).read_setDigest_bOutput out hl hwf⟩
  rw [State.performDbHash, digestB, hout, State.setDigest_bOutput_eq _ _ hl]
  rfl

/-! ### The commands -/

/-- DB.INIT with a legal length (R165). -/
theorem exec_dbInit {s : State} {len : BitVec 8} (h1 : 1 ≤ len.toNat) (h64 : len.toNat ≤ 64) :
    exec (.dbInit len) s = .next (completed
      ((s.setHb (bInit Config.core.digestB len.toNat)).setHbl len.toNat)) :=
  exec_eq_completed (if_pos (lengthOk_of_range h1 h64))

/-- DB.CMP with its block inside `MB` (R166). -/
theorem exec_dbCmp {s : State} {roff : SReg} (rt : SReg) (last : Bool)
    (h : s.scalars[roff].toNat + 128 ≤ Config.core.mbsize) :
    exec (.dbCmp roff rt last) s = .next (completed (s.setHb (bCompress Config.core.digestB s.hb
      (s.mb.readBytes s.scalars[roff].toNat 128) s.scalars[rt].toNat last))) :=
  exec_eq_completed (if_pos (blockOk_of_le h))

/-- DB.OUT after a digest length has been set (R167). -/
theorem exec_dbOut {s : State} (h : s.hbl ≠ 0) :
    exec .dbOut s = .next (completed (s.setDigest (bOutput s.hb s.hbl.toNat))) :=
  exec_eq_completed (if_neg h)

/-- DB.HASH with a legal length and the message inside `MB` (R168). -/
theorem exec_dbHash {s : State} {len : BitVec 8} (h1 : 1 ≤ len.toNat) (h64 : len.toNat ≤ 64)
    (h : s.mlen.toNat ≤ Config.core.mbsize) :
    exec (.dbHash len) s = .next (completed (s.performDbHash Config.core.digestB s.message len.toNat)) :=
  exec_eq_completed ((if_pos (lengthOk_of_range h1 h64)).trans (if_pos (State.messageOk_of_le h)))

/-- DB.HASHD with a legal length (R169). -/
theorem exec_dbHashd {s : State} {len : BitVec 8} (h1 : 1 ≤ len.toNat) (h64 : len.toNat ≤ 64) :
    exec (.dbHashd len) s = .next (completed (s.performDbHash Config.core.digestB s.digest len.toNat)) :=
  exec_eq_completed (if_pos (lengthOk_of_range h1 h64))

/-- Settles O32: DB.INIT writes the initial state of `bInit_eq_ofFn` and the length. -/
theorem dbInitLoadsTheInitialState : Obligations.DbInitLoadsTheInitialState := by
  intro s len h1 h64
  rw [exec_dbInit h1 h64, bInit_eq_ofFn]
  rfl

/-- Settles O34: the compression of DB.CMP on the words of `bBlockWords_readBytes`, from the working vector of
`bWorking_eq_ofFn`. -/
theorem dbCmpCompressesOneBlock : Obligations.DbCmpCompressesOneBlock := by
  intro s roff rt last hfit byte words start groups round work
  have hwords : bBlockWords (s.mb.readBytes s.scalars[roff].toNat 128) = words := bBlockWords_readBytes _ _
  have hstart : bWorking Config.core.digestB s.hb s.scalars[rt].toNat last = start := bWorking_eq_ofFn _ _ _ _
  have hround (v : Vector W64 16) (row : SigmaRow) : bRound v words row = round v row := rfl
  have hwork : (List.range 12).foldl (fun v r => bRound v words (bSigmaRow Config.core.digestB r)) start = work := by
    simp only [hround]
    rfl
  rw [exec_dbCmp rt last hfit, bCompress, hwords, hstart]
  simp only [Config.bRounds, hwork]
  rfl

/-- Settles O35: DB.OUT is one digest write of `hb`, read back byte by byte. -/
theorem dbOutWritesLittleEndianDigest : Obligations.DbOutWritesLittleEndianDigest := by
  intro s hwf h1 h64
  have hne : s.hbl ≠ 0 := fun h0 => by simp [h0] at h1
  refine ⟨(s.setDigest (bOutput s.hb s.hbl.toNat)).dg, ?_, s.read_setDigest_bOutput s.hb h64 hwf⟩
  rw [exec_dbOut hne, State.setDigest_bOutput_eq _ _ h64, BitVec.ofNat_toNat, BitVec.setWidth_eq]

/-- Settles O36: the states between the blocks are those of `bFullBlocks`, and the three final compressions are the
three ways `digestBState` ends. -/
theorem dbHashChainsTheBlocks : Obligations.DbHashChainsTheBlocks := by
  intro s len h1 h64 hfit hwf m n p
  have hm : s.message = m := s.message_eq_map_read
  have hn : m.length = n := by simp [m, n]
  obtain ⟨dg', hperform, hdg⟩ := State.performDbHash_spec (s := s) (rfl : digestBState p m len.toNat = _) h64 hwf
  refine ⟨bFullBlocks p (bInit p len.toNat) m, digestBState p m len.toNat, dg', ?init,
    fun b _ => bFullBlocks_succ _ _ _ b, fun h0 => ?empty, fun h0 hfull hp => ?extra, fun h0 hlast => ?last, ?exec, hdg⟩
  case init => rw [bFullBlocks_zero, bInit_eq_ofFn]
  case empty => exact digestBState_of_length_eq_zero p _ (hn.trans h0)
  case extra => rw [← hn] at h0 hfull ⊢; exact digestBState_of_extraEmptyFinal _ h0 hfull hp
  case last => rw [← hn] at h0 hlast ⊢; exact digestBState_of_last_final _ h0 hlast
  case exec => rw [exec_dbHash h1 h64 hfit, hm, hperform]

/-- Settles O37: a digest of at most 64 bytes is a message shorter than a block. -/
theorem dbHashdHashesTheDigestBuffer : Obligations.DbHashdHashesTheDigestBuffer := by
  intro s len h1 h64 hdlen hwf p m out
  have hm : s.digest = m := by simp [State.digest, Memory.readBytes, m]
  have hn : m.length = s.dlen.toNat := by simp [m]
  have hout : digestBState p m len.toNat = out := by
    rw [digestBState_of_length_lt p _ (by omega), hn, bInit_eq_ofFn]
  obtain ⟨dg', hperform, hdg⟩ := State.performDbHash_spec hout h64 hwf
  refine ⟨dg', ?_, hdg⟩
  rw [exec_dbHashd h1 h64, hm, hperform]

/-- Settles O38: DB.INIT and DB.CMP leave in `hb` the one compression that is digest B of the message, and DB.OUT
writes it, with the length DB.INIT has set, as DB.HASH does. -/
theorem digestBBlockByBlockIsDigestB : Obligations.DigestBBlockByBlockIsDigestB := by
  intro s len roff rt h1 h64 hlen hfit hcounter hblock
  let s1 := completed ((s.setHb (bInit Config.core.digestB len.toNat)).setHbl len.toNat)
  let s2 := completed (s1.setHb (bCompress Config.core.digestB s1.hb (s1.mb.readBytes s1.scalars[roff].toNat 128)
    s1.scalars[rt].toNat true))
  have hhbl : s2.hbl.toNat = len.toNat := Nat.mod_eq_of_lt (by omega)
  have hne : s2.hbl ≠ 0 := fun h0 => by simp [h0] at hhbl; omega
  have hn : s.message.length = s.mlen.toNat := Memory.readBytes_length _ _ _
  have hstate : digestBState Config.core.digestB s.message len.toNat = s2.hb := by
    rw [digestBState_of_length_lt _ _ (by omega), hn, State.message, ← hblock, ← hcounter]
    rfl
  have hinit : exec (.dbInit len) s = .next s1 := exec_dbInit h1 h64
  have hcmp : exec (.dbCmp roff rt true) s1 = .next s2 := exec_dbCmp rt true hfit
  have hmbsize := Config.core_mbsize_ge
  refine ⟨_, ?_, exec_dbHash h1 h64 (by omega)⟩
  rw [execAll_cons_of_exec hinit, execAll_cons_of_exec hcmp, execAll_cons_of_exec (exec_dbOut hne), execAll_nil,
    hhbl, State.performDbHash, digestB, hstate]
  rfl

end Sys2Proof.Machine
end

section
/-! PROOF. Point registers (O41, O42; `43_ec_group.md` R192 to R197): what a register's value is by its `INF` field, the
commands that load a point, and those that read one. -/

namespace Sys2Proof.Machine

/-! ### The value of a point register (R22) -/

theorem State.point_eq_pointOf (s : State) (i : PReg) : s.point i = pointOf s.points[i] := rfl

theorem pointOf_of_inf {r : PointReg} (h : r.inf = true) : pointOf r = .inf := if_pos h

theorem pointOf_of_finite {r : PointReg} (h : r.inf = false) : pointOf r = .finite r.x.toNat r.y.toNat :=
  if_neg (by simp [h])

@[simp] theorem regOf_toNat (x y : W64) : regOf (.finite x.toNat y.toNat) = { inf := false, x := x, y := y } := by
  simp [regOf]

/-- A finite register holds its value as a command writes it. -/
theorem regOf_pointOf_of_finite {r : PointReg} (h : r.inf = false) : regOf (pointOf r) = r := by
  rw [pointOf_of_finite h, regOf_toNat, ← h]

/-! ### Loads -/

/-- A command that only writes the point `p[pd]` completes with it. -/
theorem exec_eq_completed_withPoint {i : Instr} {s : State} {pd : PReg} {p : Point}
    (h : commandEnd i s = .completes (s.setPoint pd p)) :
    exec i s = .next (completed (withPoint s pd (regOf p))) := by
  rw [exec_eq_completed h, ← PointReg.ofPoint_eq_regOf]
  rfl

theorem exec_pldg (s : State) (pd : PReg) :
    exec (.pldg pd) s = .next (completed (withPoint s pd (regOf baseG))) :=
  exec_eq_completed_withPoint rfl

/-- Settles O41: each load writes one point, which `regOf` lays out. -/
theorem pointLoads : Obligations.PointLoads := by
  intro s pd rx ry
  refine ⟨?pinf, exec_pldg s pd, ?pset⟩
  case pinf => exact exec_eq_completed_withPoint (p := .inf) rfl
  case pset =>
    rw [← regOf_toNat]
    exact exec_eq_completed_withPoint rfl

/-! ### Reads -/

/-- `E_INFCOORD` has code 7 (`60_exceptions.md` R302). -/
theorem exec_eq_failed_infcoord {i : Instr} {s : State} (h : commandEnd i s = .raises .infcoord s) :
    exec i s = .next (failed s 7) :=
  exec_eq_failed h

/-- Settles O42: PGETX and PGETY ask for the value of the register, whose two forms are their two ends. -/
theorem pointReads : Obligations.PointReads := by
  intro s rd pa
  refine ⟨fun hfin => ?finite, fun hinf => ?infinity, ?isinf⟩
  case finite =>
    have hp : s.point pa = .finite s.points[pa].x.toNat s.points[pa].y.toNat := pointOf_of_finite hfin
    exact ⟨exec_eq_completed_withScalar (by rw [commandEnd, pgetxEnd, hp]),
      exec_eq_completed_withScalar (by rw [commandEnd, pgetyEnd, hp])⟩
  case infinity =>
    have hp : s.point pa = .inf := pointOf_of_inf hinf
    exact ⟨exec_eq_failed_infcoord (by rw [commandEnd, pgetxEnd, hp]),
      exec_eq_failed_infcoord (by rw [commandEnd, pgetyEnd, hp])⟩
  case isinf =>
    refine exec_eq_completed_withScalar ?_
    cases hinf : s.points[pa].inf with
    | true => rw [commandEnd, State.point_eq_pointOf, pointOf_of_inf hinf]; rfl
    | false => rw [commandEnd, State.point_eq_pointOf, pointOf_of_finite hinf]; rfl

end Sys2Proof.Machine
end

section
/-! PROOF. The point adder (O43 to O46; `43_ec_group.md` R200 to R202). Its coordinates are integers modulo 29, so the
cases of R200 are stated in the field `ZMod 29`, where a coordinate and its residue are the same; the statements'
divisibilities by 29 are equations of that field. -/

namespace Sys2Proof.Machine

/-! ### Residues modulo 29 -/

theorem dvd_29_iff (v : Int) : (29 : Int) ∣ v ↔ (v : ZMod 29) = 0 := (ZMod.intCast_zmod_eq_zero_iff_dvd v 29).symm

/-- The residue is the integer itself in the field. -/
@[simp] theorem cast_mod_29 (v : Int) : ((mod v 29 : Nat) : ZMod 29) = v := by
  have h := mod_toInt v 29 (by norm_num)
  rw [← Int.cast_natCast, h]
  exact ZMod.intCast_mod v 29

theorem cast_emod_29 (n : Nat) : (((n : Int) % 29 : Int) : ZMod 29) = n := by
  rw [← ZMod.natCast_mod n 29, ← Int.cast_natCast (n % 29), Int.natCast_mod]
  rfl

/-- A non-zero integer of the field has the inverse that `modinv` gives (R200 consequence iv). -/
theorem modinv_29_of_ne_zero {v : Int} (h : (v : ZMod 29) ≠ 0) :
    ∃ i, modinv v 29 = some i ∧ (v : ZMod 29) * i = 1 := by
  obtain ⟨hsome, hnone⟩ := modinv_spec v 29 (by norm_num)
  have hanswers : modinv v 29 ≠ none :=
    Option.isSome_iff_ne_none.mp (modinv_q_isSome v fun hd => h ((dvd_29_iff v).mp hd))
  obtain ⟨i, hi, -, hd⟩ := hsome (not_imp_comm.mp hnone hanswers)
  have hmul := (dvd_29_iff _).mp hd
  push_cast at hmul
  exact ⟨i, hi, sub_eq_zero.mp hmul⟩

/-! ### The cases of the adder (R200) -/

theorem pointSum_inf_right (p : Point) : pointSum p .inf = p := by cases p <;> rfl

/-- Two finite points are added on their normalized coordinates (cases 3 to 5). -/
theorem pointSum_finite (x1 y1 x2 y2 : Nat) :
    pointSum (.finite x1 y1) (.finite x2 y2) =
      (addReduced Config.curveDs1 (x1 % 29) (y1 % 29) (x2 % 29) (y2 % 29)).getD .inf := by
  simp only [← mod_natCast]
  rfl

/-- Case 3, and case 4 with a vertical tangent. -/
theorem pointSum_opposite {x1 y1 x2 y2 : Nat} (hx : x1 % 29 = x2 % 29) (hy : y1 % 29 ≠ y2 % 29 ∨ y1 % 29 = 0) :
    pointSum (.finite x1 y1) (.finite x2 y2) = .inf := by
  rw [pointSum_finite, addReduced, if_pos hx]
  by_cases hne : y1 % 29 = y2 % 29
  · rw [if_pos hne, if_pos (hy.resolve_left (not_not.mpr hne))]
    rfl
  · rw [if_neg hne]
    rfl

/-- The third point is reduced and satisfies the equations of the line of slope `lam` (cases 4 and 5). -/
theorem chordPoint_spec (lam x1 y1 x2 : Nat) :
    ∃ x3 y3 : Nat,
      chordPoint Config.curveDs1 lam (x1 % 29 : Nat) (y1 % 29 : Nat) (x2 % 29 : Nat) = .finite x3 y3 ∧
      x3 < 29 ∧ y3 < 29 ∧ (x3 : ZMod 29) = lam * lam - x1 - x2 ∧ (y3 : ZMod 29) = lam * (x1 - x3) - y1 := by
  refine ⟨_, _, rfl, mod_lt _ 29 (by norm_num), mod_lt _ 29 (by norm_num), ?abscissa, ?ordinate⟩
  case abscissa => exact (cast_mod_29 _).trans (by push_cast [cast_emod_29]; rfl)
  case ordinate => exact (cast_mod_29 _).trans (by push_cast [cast_emod_29]; rfl)

/-- Case 5: on different abscissas the slope is that of the chord. -/
theorem pointSum_chord {x1 x2 : Nat} (y1 y2 : Nat) (hx : x1 % 29 ≠ x2 % 29) :
    ∃ lam : Nat, (lam : ZMod 29) * (x2 - x1) = y2 - y1 ∧
      pointSum (.finite x1 y1) (.finite x2 y2) =
        chordPoint Config.curveDs1 lam (x1 % 29 : Nat) (y1 % 29 : Nat) (x2 % 29 : Nat) := by
  have hne : (((x2 % 29 : Nat) - (x1 % 29 : Nat) : Int) : ZMod 29) ≠ 0 := by
    rw [ne_eq, ← dvd_29_iff]
    omega
  obtain ⟨i, hi, hmul⟩ := modinv_29_of_ne_zero hne
  refine ⟨mod (((y2 % 29 : Nat) - (y1 % 29 : Nat) : Int) * i) 29, ?slope, ?sum⟩
  case slope =>
    rw [cast_mod_29]
    push_cast [cast_emod_29] at hmul ⊢
    linear_combination ((y2 : ZMod 29) - y1) * hmul
  case sum =>
    have hi : modinv _ Config.curveDs1.q = some i := hi
    rw [pointSum_finite, addReduced, if_neg hx, hi]
    rfl

/-- Case 4: twice one point with a non-zero ordinate, the slope is that of the tangent. -/
theorem pointSum_tangent {x1 y1 x2 y2 : Nat} (hx : x1 % 29 = x2 % 29) (hy : y1 % 29 = y2 % 29) (h0 : y1 % 29 ≠ 0) :
    ∃ lam : Nat, (lam : ZMod 29) * (2 * y1) = 3 * x1 * x1 + 4 ∧
      pointSum (.finite x1 y1) (.finite x2 y2) =
        chordPoint Config.curveDs1 lam (x1 % 29 : Nat) (y1 % 29 : Nat) (x2 % 29 : Nat) := by
  have hne : ((2 * (y1 % 29 : Nat) : Int) : ZMod 29) ≠ 0 := by
    rw [ne_eq, ← dvd_29_iff]
    omega
  obtain ⟨i, hi, hmul⟩ := modinv_29_of_ne_zero hne
  refine ⟨mod ((3 * (x1 % 29 : Nat) * (x1 % 29 : Nat) + 4 : Int) * i) 29, ?slope, ?sum⟩
  case slope =>
    rw [cast_mod_29]
    push_cast [cast_emod_29] at hmul ⊢
    linear_combination (3 * (x1 : ZMod 29) * x1 + 4) * hmul
  case sum =>
    have hi : modinv _ Config.curveDs1.q = some i := hi
    rw [pointSum_finite, addReduced, if_pos hx, if_pos hy, if_neg h0, hi]
    rfl

/-- Cases 4 and 5 together: the sum is the reduced third point of the chord, or of the tangent at equal points. -/
theorem pointSum_line {x1 y1 x2 y2 : Nat} (h : x1 % 29 ≠ x2 % 29 ∨ (y1 % 29 = y2 % 29 ∧ y1 % 29 ≠ 0)) :
    ∃ lam x3 y3 : Nat, x3 < 29 ∧ y3 < 29 ∧
      (x1 % 29 ≠ x2 % 29 → (lam : ZMod 29) * (x2 - x1) = y2 - y1) ∧
      (x1 % 29 = x2 % 29 → (lam : ZMod 29) * (2 * y1) = 3 * x1 * x1 + 4) ∧
      (x3 : ZMod 29) = lam * lam - x1 - x2 ∧ (y3 : ZMod 29) = lam * (x1 - x3) - y1 ∧
      pointSum (.finite x1 y1) (.finite x2 y2) = .finite x3 y3 := by
  by_cases hx : x1 % 29 = x2 % 29
  · obtain ⟨hy, h0⟩ := h.resolve_left (not_not.mpr hx)
    obtain ⟨lam, htangent, hsum⟩ := pointSum_tangent hx hy h0
    obtain ⟨x3, y3, hpoint, hx3, hy3, habs, hord⟩ := chordPoint_spec lam x1 y1 x2
    exact ⟨lam, x3, y3, hx3, hy3, absurd hx, fun _ => htangent, habs, hord, hsum.trans hpoint⟩
  · obtain ⟨lam, hchord, hsum⟩ := pointSum_chord y1 y2 hx
    obtain ⟨x3, y3, hpoint, hx3, hy3, habs, hord⟩ := chordPoint_spec lam x1 y1 x2
    exact ⟨lam, x3, y3, hx3, hy3, fun _ => hchord, fun he => absurd he hx, habs, hord, hsum.trans hpoint⟩

/-! ### PADD and PDBL -/

/-- PADD completes with the sum (R201). -/
theorem exec_padd (s : State) (pd pa pb : PReg) :
    exec (.padd pd pa pb) s =
      .next (completed (withPoint s pd (regOf (pointSum (pointOf s.points[pa]) (pointOf s.points[pb]))))) := by
  rw [exec_eq_report, report_padd]
  rfl

/-- PDBL is PADD of the register with itself (R202). -/
theorem exec_pdbl (s : State) (pd pa : PReg) : exec (.pdbl pd pa) s = exec (.padd pd pa pa) s := rfl

/-- Settles O43: infinity is neutral on both sides. -/
theorem paddWithInfinity : Obligations.PaddWithInfinity := by
  intro s pd pa pb
  refine ⟨fun ha => ?left, fun ha hb => ?right⟩
  case left =>
    rw [exec_padd, pointOf_of_inf ha, pointSum_inf_left, ← regOf_value]
    rfl
  case right => rw [exec_padd, pointOf_of_inf hb, pointSum_inf_right, pointOf_of_finite ha, regOf_toNat]

/-- Settles O44: the two points are opposite, or one with a vertical tangent. -/
theorem paddCancels : Obligations.PaddCancels := by
  intro s pd pa pb ha hb hx hy
  rw [exec_padd, pointOf_of_finite ha, pointOf_of_finite hb, pointSum_opposite hx hy]
  rfl

/-- Settles O45: the third point on the line whose slope is the chord's or the tangent's. -/
theorem paddChordAndTangent : Obligations.PaddChordAndTangent := by
  intro s pd pa pb ha hb x1 y1 x2 y2 h
  have hx : x1 = x2 ↔ s.points[pa].x.toNat % 29 = s.points[pb].x.toNat % 29 := Nat.cast_inj
  have hy : y1 = y2 ↔ s.points[pa].y.toNat % 29 = s.points[pb].y.toNat % 29 := Nat.cast_inj
  have h0 : y1 = 0 ↔ s.points[pa].y.toNat % 29 = 0 := Nat.cast_eq_zero
  rw [ne_eq, ne_eq, hx, hy, h0] at h
  obtain ⟨lam, x3, y3, hx3, hy3, hchord, htangent, habs, hord, hsum⟩ := pointSum_line h
  refine ⟨lam, x3, y3, hx3, hy3, fun hne => (dvd_29_iff _).mpr ?chord, fun he => (dvd_29_iff _).mpr ?tangent,
    (dvd_29_iff _).mpr ?abscissa, (dvd_29_iff _).mpr ?ordinate, ?exec⟩
  case chord =>
    push_cast [x1, y1, x2, y2, cast_emod_29]
    exact sub_eq_zero.mpr (hchord (mt hx.mpr hne))
  case tangent =>
    push_cast [x1, y1, cast_emod_29]
    exact sub_eq_zero.mpr (htangent (hx.mp he))
  case abscissa => push_cast [x1, x2, cast_emod_29]; exact sub_eq_zero.mpr habs.symm
  case ordinate => push_cast [x1, y1, cast_emod_29]; exact sub_eq_zero.mpr hord.symm
  case exec => rw [exec_padd, pointOf_of_finite ha, pointOf_of_finite hb, hsum]; rfl

/-- Settles O46: the cases of PADD that a point added to itself can meet, its coordinates not reduced. -/
theorem pdblDoubles : Obligations.PdblDoubles := by
  intro s pd pa
  refine ⟨exec_pdbl s pd pa, fun h => ?infinity, fun hfin h0 => ?tangent⟩
  case infinity =>
    have hsum : pointSum (pointOf s.points[pa]) (pointOf s.points[pa]) = .inf := by
      cases hinf : s.points[pa].inf with
      | true => rw [pointOf_of_inf hinf, pointSum_inf_left]
      | false =>
        rw [pointOf_of_finite hinf]
        exact pointSum_opposite rfl (.inr (h.resolve_left (ne_true_of_eq_false hinf)))
    rw [exec_pdbl, exec_padd, hsum]
    rfl
  case tangent =>
    obtain ⟨lam, x3, y3, hx3, hy3, -, htangent, habs, hord, hsum⟩ :=
      pointSum_line (x1 := s.points[pa].x.toNat) (.inr ⟨rfl, h0⟩)
    refine ⟨lam, x3, y3, hx3, hy3, (dvd_29_iff _).mpr ?slope, (dvd_29_iff _).mpr ?abscissa,
      (dvd_29_iff _).mpr ?ordinate, ?exec⟩
    case slope => push_cast; exact sub_eq_zero.mpr (htangent rfl)
    case abscissa => push_cast; linear_combination -habs
    case ordinate => push_cast; exact sub_eq_zero.mpr hord.symm
    case exec => rw [exec_pdbl, exec_padd, pointOf_of_finite hfin, hsum]; rfl

end Sys2Proof.Machine
end

section
/-! PROOF. Multiples of points (O47, O49, O50; `43_ec_group.md` R190, R204 to R206). The curve has 37 points, the
multiples of the base point (`baseMultiples`), and adding them adds their scalars (`pointSum_baseMultiple`); so on the
curve the binary method and repeated addition give the same multiple, and the curve is closed under both. -/

namespace Sys2Proof.Machine

/-! ### The points of the curve (R190) -/

theorem reduced_of_onCurve {x y : Nat} (h : onCurve (.finite x y) = true) : x < 29 ∧ y < 29 := by
  simp only [onCurve, Bool.and_eq_true, decide_eq_true_eq] at h
  exact h.1

/-- Every reduced point of the curve is in the table of multiples: a finite check, point by point. -/
theorem onCurve_finite_tabled :
    ∀ x y : Fin 29, onCurve (.finite x y) = true → ∃ k : Fin 37, .finite x y = baseMultiple k := by
  decide +kernel

theorem onCurve_tabled : ∀ k : Fin 37, onCurve baseMultiples[k] = true := by decide +kernel

/-- The points of the curve are the multiples of the base point. -/
theorem onCurve_iff (p : Point) : onCurve p = true ↔ ∃ k, p = baseMultiple k := by
  constructor
  · intro h
    cases p with
    | inf => exact ⟨0, rfl⟩
    | finite x y =>
      obtain ⟨hx, hy⟩ := reduced_of_onCurve h
      obtain ⟨k, hk⟩ := onCurve_finite_tabled ⟨x, hx⟩ ⟨y, hy⟩ h
      exact ⟨k, hk⟩
  · rintro ⟨k, rfl⟩
    exact onCurve_tabled _

/-- The curve is closed under addition (R200). -/
theorem onCurve_pointSum {p q : Point} (hp : onCurve p = true) (hq : onCurve q = true) :
    onCurve (pointSum p q) = true := by
  obtain ⟨a, rfl⟩ := (onCurve_iff p).mp hp
  obtain ⟨b, rfl⟩ := (onCurve_iff q).mp hq
  exact (onCurve_iff _).mpr ⟨a + b, pointSum_baseMultiple a b⟩

/-! ### Multiples on the curve (R204) -/

theorem baseMultiple_zero : baseMultiple 0 = .inf := rfl

/-- After `j` bits the binary method holds the multiples of its point by those bits and by `2 ^ j`. -/
theorem binaryMethod_baseMultiple (m k j : Nat) :
    binaryMethod k (baseMultiple m) j = (baseMultiple (m * (k % 2 ^ j)), baseMultiple (m * 2 ^ j)) := by
  induction j with
  | zero => simp [Nat.mod_one, baseMultiple_zero]
  | succ j ih =>
    rw [binaryMethod_succ, ih, pointSum_baseMultiple, pointSum_baseMultiple, Nat.mod_pow_succ, ← Nat.toNat_testBit,
      pow_succ]
    cases k.testBit j <;> simp [mul_add, mul_two]

theorem repeatedSum_baseMultiple (m k : Nat) : repeatedSum (baseMultiple m) k = baseMultiple (m * k) := by
  induction k with
  | zero => rfl
  | succ k ih => rw [repeatedSum, ih, pointSum_baseMultiple, Nat.mul_succ, Nat.add_comm]

/-- On the curve the binary method is repeated addition. -/
theorem binaryMultiple_eq_repeatedSum {p : Point} (hp : onCurve p = true) {k : Nat} (hk : k < 2 ^ 64) :
    binaryMultiple p k = repeatedSum p k := by
  obtain ⟨m, rfl⟩ := (onCurve_iff p).mp hp
  rw [binaryMultiple, binaryMethod_baseMultiple, Nat.mod_eq_of_lt hk, repeatedSum_baseMultiple]

/-- The curve is closed under multiples. -/
theorem onCurve_binaryMultiple {p : Point} (hp : onCurve p = true) (k : Nat) : onCurve (binaryMultiple p k) = true := by
  obtain ⟨m, rfl⟩ := (onCurve_iff p).mp hp
  rw [binaryMultiple, binaryMethod_baseMultiple]
  exact (onCurve_iff _).mpr ⟨_, rfl⟩

/-! ### Multiples of any point by 0, 1 and 2, and of infinity (R204) -/

theorem binaryMultiple_zero (p : Point) : binaryMultiple p 0 = .inf := binaryMethod_stable 0 p 0 64 rfl

theorem binaryMultiple_one (p : Point) : binaryMultiple p 1 = p := binaryMethod_stable 1 p 1 63 rfl

theorem binaryMultiple_two (p : Point) : binaryMultiple p 2 = pointSum p p := binaryMethod_stable 2 p 2 62 rfl

theorem binaryMethod_inf (k j : Nat) : binaryMethod k .inf j = (.inf, .inf) := by
  induction j with
  | zero => rfl
  | succ j ih => rw [binaryMethod_succ, ih, pointSum_inf_left, ite_self]

theorem binaryMultiple_inf (k : Nat) : binaryMultiple .inf k = .inf := congrArg Prod.fst (binaryMethod_inf k 64)

/-! ### PMUL -/

/-- PMUL completes with what the binary method gives (R205). -/
theorem exec_pmul (s : State) (pd pa : PReg) (rk : SReg) :
    exec (.pmul pd rk pa) s =
      .next (completed (withPoint s pd (regOf (binaryMultiple (pointOf s.points[pa]) s.scalars[rk].toNat)))) := by
  rw [exec_eq_report, report_pmul]
  rfl

/-- Settles O47: on the curve the binary method is repeated addition. -/
theorem pmulIsRepeatedAddition : Obligations.PmulIsRepeatedAddition := by
  intro s pd pa rk
  refine ⟨exec_pmul s pd pa rk, fun hp => ?_⟩
  rw [exec_pmul, binaryMultiple_eq_repeatedSum hp (BitVec.isLt _)]

/-- Settles O49: the three commands complete with a sum or a multiple, whatever the points are. -/
theorem groupCommandsAlwaysComplete : Obligations.GroupCommandsAlwaysComplete := by
  intro s pd pa pb rk
  refine ⟨⟨_, exec_padd s pd pa pb⟩, ⟨_, exec_padd s pd pa pa⟩, _, exec_pmul s pd pa rk, fun h => ?byZero,
    fun h => ?ofInfinity, fun h hfin => ?byOne, fun h => ?byTwo⟩
  case byZero => rw [h, show (0 : W64).toNat = 0 from rfl, binaryMultiple_zero]; rfl
  case ofInfinity => rw [pointOf_of_inf h, binaryMultiple_inf]; rfl
  case byOne => rw [h, show (1 : W64).toNat = 1 from rfl, binaryMultiple_one, regOf_pointOf_of_finite hfin]
  case byTwo => rw [exec_pmul, exec_pdbl, exec_padd, h, show (2 : W64).toNat = 2 from rfl, binaryMultiple_two]

/-! ### The point registers stay on the curve -/

/-- A reduced point is read back as written. -/
theorem pointOf_regOf_of_onCurve {p : Point} (hp : onCurve p = true) : pointOf (regOf p) = p := by
  cases p with
  | inf => rfl
  | finite x y =>
    obtain ⟨hx, hy⟩ := reduced_of_onCurve hp
    exact PointReg.value_ofPoint_finite x y (by omega) (by omega)

/-- Writing a point of the curve keeps every point register on the curve. -/
theorem onCurve_completed_withPoint {s : State} {p : Point} (hs : ∀ i : PReg, onCurve (pointOf s.points[i]) = true)
    (hp : onCurve p = true) (pd i : PReg) :
    onCurve (pointOf (completed (withPoint s pd (regOf p))).points[i]) = true := by
  by_cases hi : pd = i
  · subst hi
    rw [← State.point_eq_pointOf, point_completed_withPoint_self]
    exact (congrArg onCurve (pointOf_regOf_of_onCurve hp)).trans hp
  · rw [← State.point_eq_pointOf, point_completed_withPoint_of_ne s hi]
    exact hs i

/-- Settles O50: each command writes one point, and the base point, sums and multiples are on the curve. -/
theorem groupCommandsStayOnTheCurve : Obligations.GroupCommandsStayOnTheCurve := by
  intro s t i pd hs hi ht
  have written : ∃ p, onCurve p = true ∧ exec i s = .next (completed (withPoint s pd (regOf p))) := by
    rcases hi with rfl | ⟨pa, pb, rfl⟩ | ⟨pa, rfl⟩ | ⟨rk, pa, rfl⟩
    · exact ⟨baseG, rfl, exec_pldg s pd⟩
    · exact ⟨_, onCurve_pointSum (hs pa) (hs pb), exec_padd s pd pa pb⟩
    · exact ⟨_, onCurve_pointSum (hs pa) (hs pa), exec_padd s pd pa pa⟩
    · exact ⟨_, onCurve_binaryMultiple (hs pa) _, exec_pmul s pd pa rk⟩
  obtain ⟨p, hp, hexec⟩ := written
  obtain rfl : completed (withPoint s pd (regOf p)) = t := Host.Outcome.next.inj (hexec.symm.trans ht)
  exact onCurve_completed_withPoint hs hp pd

end Sys2Proof.Machine
end

section
/-! PROOF. Verification (O59; `45_ecdsa.md` R253, R265): with `r` and `s` in range every step of the equation answers,
so that VERIFY decides it. -/

namespace Sys2Proof.Machine

/-- A product of two naturals as the units reduce it. -/
theorem mod_natCast_mul (a b m : Nat) : mod ((a : Int) * b) m = a * b % m := by
  rw [← Nat.cast_mul, mod_natCast]

/-- The inverse modulo 37 is unique, so `modinv` gives any that is named (R254 (iv)). -/
theorem modinv_37_eq {v w : Nat} (h1 : 1 ≤ v) (h36 : v ≤ 36) (hw : w < 37) (h : v * w % 37 = 1) :
    modinv v 37 = some w := by
  obtain ⟨i, hi, hlt, hvi⟩ := modinv_n_spec v h1 h36
  have hvi : v * i ≡ 1 [MOD 37] := hvi
  have hvw : v * w ≡ 1 [MOD 37] := h
  have hwi : w ≡ i [MOD 37] :=
    calc w = w * 1 := (mul_one w).symm
      _ ≡ w * (v * i) [MOD 37] := hvi.symm.mul_left w
      _ = i * (v * w) := by ring
      _ ≡ i * 1 [MOD 37] := hvw.mul_left i
      _ = i := mul_one i
  rw [hi, hwi.eq_of_lt_of_lt hw hlt]

/-- The multiplier by a residue modulo 37. -/
theorem pointMultiply_mod_37 (k : Nat) (p : Point) :
    pointMultiply Config.curveDs1 (k % 37) p = some (binaryMultiple p (k % 37)) :=
  pointMultiply_eq_binaryMultiple _ p (by omega)

/-- The point of the verification equation (R253). -/
theorem verifyPoint_eq {e r sg w : Nat} (q : Point) (hinv : modinv sg 37 = some w) :
    verifyPoint Config.curveDs1 e r sg q =
      some (pointSum (repeatedSum baseG (e * w % 37)) (binaryMultiple q (r * w % 37))) := by
  have hn : Config.curveDs1.n = 37 := rfl
  have hbase : basePoint Config.curveDs1 = baseG := rfl
  have hG : binaryMultiple baseG (e * w % 37) = repeatedSum baseG (e * w % 37) :=
    binaryMultiple_eq_repeatedSum rfl (by omega)
  simp only [verifyPoint, hn, hinv, hbase, mod_natCast_mul, pointMultiply_mod_37, pointAdd_eq_pointSum, hG]

/-- The equation holds when its point is finite with abscissa `r` (R253). -/
theorem verifyHolds_of_verifyPoint {e r sg : Nat} {q x : Point} (h : verifyPoint Config.curveDs1 e r sg q = some x) :
    verifyHolds Config.curveDs1 e r sg q = abscissaIs r x := by
  rw [verifyHolds, h]
  cases x with
  | inf => rfl
  | finite x y => exact congrArg (fun a => decide (a = r)) (mod_natCast x 37)

theorem inRange_of_range {k : Nat} (h1 : 1 ≤ k) (h36 : k ≤ 36) : inRange Config.core.curve k = true :=
  (Bool.and_eq_true _ _).mpr ⟨decide_eq_true h1, decide_eq_true h36⟩

theorem boolScalar_eq_ofNat (b : Bool) : boolScalar b = BitVec.ofNat 64 (if b then 1 else 0) := by cases b <;> rfl

/-- VERIFY past its bounds and range checks writes the truth of the equation, on the state the reducer leaves (R265). -/
theorem exec_verify {s : State} {rr rs : SReg} (rd : SReg) (pq : PReg) (v : Variant)
    (hfit : s.mlen.toNat ≤ Config.core.mbsize) (hr1 : 1 ≤ s.scalars[rr].toNat) (hr36 : s.scalars[rr].toNat ≤ 36)
    (hs1 : 1 ≤ s.scalars[rs].toNat) (hs36 : s.scalars[rs].toNat ≤ 36) :
    exec (.verify rd rr rs pq v) s = .next (completed (withScalar (s.reduce Config.core v).2 rd
      (if verifyHolds Config.curveDs1 (s.reduce Config.core v).1 s.scalars[rr].toNat s.scalars[rs].toNat
        (pointOf s.points[pq]) then 1 else 0))) := by
  have hranges : (inRange Config.core.curve (s.uintS rr) && inRange Config.core.curve (s.uintS rs)) = true :=
    (Bool.and_eq_true _ _).mpr ⟨inRange_of_range hr1 hr36, inRange_of_range hs1 hs36⟩
  rw [exec_eq_report, commandEnd, verifyEnd, if_pos (State.messageOk_of_le hfit), if_pos hranges, boolScalar_eq_ofNat]
  rfl

/-- Settles O59: VERIFY writes the truth of the equation, whose point is `verifyPoint_eq`; on the curve the binary
method is repeated addition. -/
theorem verifyDecidesTheEquation : Obligations.VerifyDecidesTheEquation := by
  intro s rd rr rs pq v w hfit hr1 hr36 hs1 hs36 hw hinv e u1G u2 answer
  have decides : exec (.verify rd rr rs pq v) s =
      .next (answer (pointSum u1G (binaryMultiple (pointOf s.points[pq]) u2))) := by
    rw [exec_verify rd pq v hfit hr1 hr36 hs1 hs36,
      verifyHolds_of_verifyPoint (verifyPoint_eq _ (modinv_37_eq hs1 hs36 hw hinv))]
  refine ⟨decides, fun hq => ?_⟩
  rw [decides, binaryMultiple_eq_repeatedSum hq (show u2 < 2 ^ 64 by omega)]

end Sys2Proof.Machine
end

section
/-! PROOF. The hash reducers (O52, O53; `44_hash_reducers.md` R231 to R235): what the reducers compute, as sums over
the bytes of a buffer, and HRED as the digest commands followed by one scalar write. -/

namespace Sys2Proof.Machine

/-! ### The first bytes as an integer (R231) -/

theorem Memory.readBytes_succ (m : Memory) (a k : Nat) :
    m.readBytes a (k + 1) = m.readBytes a k ++ [m.read (a + k)] := by
  simp [Memory.readBytes, List.range_succ]

/-- One more byte on the right is one more digit in base 256. -/
theorem beNat_concat (bs : List Byte) (b : Byte) : beNat (bs ++ [b]) = beNat bs * 256 + b.toNat :=
  List.foldl_concat _ _ _ _

/-- The big-endian integer of a run of bytes, as a sum of powers of 256 (`00_scope.md` R13). -/
theorem beNat_readBytes (m : Memory) (a k : Nat) :
    beNat (m.readBytes a k) = ((List.range k).map fun i => (m.read (a + i)).toNat * 256 ^ (k - 1 - i)).sum := by
  induction k with
  | zero => rfl
  | succ k ih =>
    have hshift : ∀ i ∈ List.range k, (m.read (a + i)).toNat * 256 ^ (k + 1 - 1 - i) =
        (m.read (a + i)).toNat * 256 ^ (k - 1 - i) * 256 := fun i hi => by
      have hlt : i < k := List.mem_range.mp hi
      rw [mul_assoc, ← pow_succ, show k - 1 - i + 1 = k + 1 - 1 - i by omega]
    have hlast : k + 1 - 1 - k = 0 := by omega
    rw [Memory.readBytes_succ, beNat_concat, ih, List.range_succ, List.map_append, List.sum_append,
      List.map_congr_left hshift, List.sum_map_mul_right, List.map_singleton, List.sum_singleton, hlast, pow_zero,
      mul_one]

/-- Reducing after every byte, as the reducer does, is reducing once at the end. -/
theorem foldl_mod_eq (n acc : Nat) (bs : List Byte) :
    bs.foldl (fun (e : Nat) b => mod (e * 256 + b.toNat) n) (acc % n) =
      bs.foldl (fun (e : Nat) b => e * 256 + b.toNat) acc % n := by
  induction bs generalizing acc with
  | nil => rfl
  | cons b bs ih =>
    have hstep : mod ((acc % n : Nat) * 256 + b.toNat) n = (acc * 256 + b.toNat) % n := by
      have hcast := mod_natCast (acc % n * 256 + b.toNat) n
      rw [Nat.cast_add, Nat.cast_mul] at hcast
      exact hcast.trans (((Nat.mod_modEq acc n).mul_right 256).add_right b.toNat)
    rw [List.foldl_cons, List.foldl_cons, hstep, ih]

/-- The reducer of variant 0 on at most 8 bytes (R231). -/
theorem redNone_eq (n : Nat) {m : List Byte} (h : m.length ≤ Config.noHashBytes) :
    redNone n m = if beNat m % n = 0 then 1 else beNat m % n := by
  have hfold := foldl_mod_eq n 0 m
  rw [Nat.zero_mod] at hfold
  rw [redNone, List.take_of_length_le h, hfold]
  rfl

/-! ### The sum of the digest bytes (R232 to R234) -/

theorem byteSum_readBytes (m : Memory) (a k : Nat) :
    byteSum (m.readBytes a k) = ((List.range k).map fun i => (m.read (a + i)).toNat).sum := by
  rw [byteSum, Memory.readBytes, List.map_map]
  rfl

theorem State.digestSum_eq (n k : Nat) (s : State) :
    s.digestSum n k = ((List.range k).map fun i => (s.dg.read i).toNat).sum % n := by
  rw [State.digestSum, mod_natCast, byteSum_readBytes]
  simp only [Nat.zero_add]

/-! ### HRED (R235) -/

/-- HRED with the message inside `MB` writes the reduced scalar on the state the reducer leaves. -/
theorem exec_hred {s : State} (h : s.mlen.toNat ≤ Config.core.mbsize) (rd : SReg) (v : Variant) :
    exec (.hred rd v) s =
      .next (completed (withScalar (s.reduce Config.core v).2 rd (s.reduce Config.core v).1)) :=
  exec_eq_completed (if_pos (State.messageOk_of_le h))

/-- Where the reducer leaves `u` and sums the first `k` bytes of its `DG`, HRED is one scalar write on `u`, reported. -/
theorem exec_hred_of_digestSum {s u : State} {v : Variant} {k : Nat} (h : s.mlen.toNat ≤ Config.core.mbsize)
    (hv : s.reduce Config.core v = (u.digestSum 37 k, u)) (rd : SReg) :
    exec (.hred rd v) s = .next (withScalar (completed u) rd
      (((List.range k).map fun i => ((completed u).dg.read i).toNat).sum % 37)) := by
  rw [exec_hred h, hv, State.digestSum_eq]
  rfl

/-- Settles O52: the reducer of variant 0 folds the bytes into their big-endian integer. -/
theorem hredNoneReducesTheFirstBytes : Obligations.HredNoneReducesTheFirstBytes := by
  intro s rd hfit k e
  have hlen : (s.mb.readBytes 0 k).length ≤ Config.noHashBytes :=
    (Memory.readBytes_length _ _ _).trans_le (Nat.min_le_right _ _)
  have he : beNat (s.mb.readBytes 0 k) % 37 = e := by
    rw [beNat_readBytes]
    simp only [Nat.zero_add]
    rfl
  have hred : s.reduce Config.core .noHash = (if e = 0 then 1 else e, s) := by
    rw [← he, ← redNone_eq 37 hlen]
    rfl
  rw [exec_hred hfit, hred]

/-- Settles O53: each reducer leaves what its digest commands leave, but for the report, and sums its digest. -/
theorem hredPerformsTheDigestCommands : Obligations.HredPerformsTheDigestCommands := by
  intro s rd hfit sum
  refine ⟨⟨_, exec_daHash hfit, ?a⟩, ⟨_, exec_dbHash (by decide) (by decide) hfit, ?b⟩,
    _, _, exec_daHash hfit, exec_dbHashd (by decide) (by decide), ?ab⟩
  case a => exact exec_hred_of_digestSum hfit rfl rd
  case b => exact exec_hred_of_digestSum hfit rfl rd
  case ab => exact exec_hred_of_digestSum (u := (s.reduce Config.core .hashAB).2) hfit rfl rd

end Sys2Proof.Machine
end

section
/-! PROOF. Key generation (O54; `45_ecdsa.md` R255): what the random port answers (`46_system.md` R290), the multiples
of the base point that keys and signatures are made from, and KEYGEN. -/

namespace Sys2Proof.Machine

/-- A draw with draws given takes the first of them. -/
theorem Rng.draw_of_queued {g : Rng} {d : W64} {ds : List W64} (h : g.queued = d :: ds) :
    g.draw = (d, { queued := ds, index := g.index + 1 }) := by
  rw [Rng.draw, h]

theorem inRange_iff (k : Nat) : inRange Config.curveDs1 k = true ↔ 1 ≤ k ∧ k ≤ 36 := by
  rw [inRange, Bool.and_eq_true, decide_eq_true_iff, decide_eq_true_iff]
  rfl

/-- A command that raises a cause leaves its data state with the cause reported. -/
theorem exec_eq_failed_of_raises {i : Instr} {s t : State} {c : Cause} (h : commandEnd i s = .raises c t) :
    exec i s = .next (failed t c.code.toNat) := by
  rw [exec_eq_report, h, CommandEnd.report_raises, State.raise_eq_failed]

/-- The multiplier on the base point is repeated addition (R204). -/
theorem pointMultiply_baseG {k : Nat} (hk : k < 2 ^ 64) :
    pointMultiply Config.curveDs1 k (basePoint Config.curveDs1) = some (repeatedSum baseG k) := by
  rw [pointMultiply_eq_binaryMultiple _ _ hk, ← binaryMultiple_eq_repeatedSum rfl hk]
  rfl

/-- Repeated addition of the base point is the table's entry (`95_test_vectors.md` section 2.4). -/
theorem repeatedSum_baseG (k : Nat) : repeatedSum baseG k = baseMultiple k :=
  (repeatedSum_baseMultiple 1 k).trans (congrArg baseMultiple (one_mul k))

theorem onCurve_repeatedSum_baseG (k : Nat) : onCurve (repeatedSum baseG k) = true :=
  (onCurve_iff _).mpr ⟨k, repeatedSum_baseG k⟩

/-- A multiple of the base point by 1 to 36 is finite (R254 (i)). -/
theorem exists_repeatedSum_baseG_eq_finite {k : Nat} (h1 : 1 ≤ k) (h36 : k ≤ 36) :
    ∃ x y : Nat, repeatedSum baseG k = .finite x y := by
  obtain ⟨x, y, hxy⟩ := repeatedSum_base_finite ⟨k, by omega⟩ h1
  exact ⟨x, y, hxy⟩

/-- A finite multiple of the base point is reduced modulo 29, being on the curve. -/
theorem reduced_of_repeatedSum_baseG {k x y : Nat} (h : repeatedSum baseG k = .finite x y) : x < 29 ∧ y < 29 :=
  reduced_of_onCurve (h ▸ onCurve_repeatedSum_baseG k)

/-- KEYGEN with a draw in range ends with the draw and its multiple of the base point (R255). -/
theorem commandEnd_keygen_of_inRange {s : State} {d : W64} {g : Rng} (hd : s.rng.draw = (d, g)) (h1 : 1 ≤ d.toNat)
    (h36 : d.toNat ≤ 36) (rd : SReg) (pq : PReg) :
    commandEnd (.keygen rd pq) s =
      .completes (((s.setRng g).setScalar rd (toSW d.toNat)).setPoint pq (repeatedSum baseG d.toNat)) := by
  have hmul : pointMultiply Config.core.curve d.toNat (basePoint Config.core.curve) =
      some (repeatedSum baseG d.toNat) := pointMultiply_baseG d.isLt
  rw [commandEnd, keygenEnd, hd]
  simp only [inRange_of_range h1 h36, if_true, hmul]

/-- KEYGEN with a draw out of range raises `E_RNG`, the draw consumed (`60_exceptions.md` R304 b). -/
theorem commandEnd_keygen_of_not_inRange {s : State} {d : W64} {g : Rng} (hd : s.rng.draw = (d, g))
    (hout : d.toNat = 0 ∨ 37 ≤ d.toNat) (rd : SReg) (pq : PReg) :
    commandEnd (.keygen rd pq) s = .raises .rng (s.setRng g) := by
  have hrange : ¬ inRange Config.core.curve d.toNat = true := fun h => by
    have := (inRange_iff d.toNat).mp h
    omega
  rw [commandEnd, keygenEnd, hd]
  exact if_neg hrange

/-- Settles O54: the two ends of KEYGEN, by the range of its draw. -/
theorem keygenMakesAKeyPair : Obligations.KeygenMakesAKeyPair := by
  intro s rd pq d ds hq s'
  have hdraw := Rng.draw_of_queued hq
  refine ⟨fun h1 h36 => ⟨exists_repeatedSum_baseG_eq_finite h1 h36, ?inRange⟩, fun hout => ?outOfRange⟩
  case inRange =>
    rw [exec_eq_completed (commandEnd_keygen_of_inRange hdraw h1 h36 rd pq), ← PointReg.ofPoint_eq_regOf]
    rfl
  case outOfRange => exact exec_eq_failed_of_raises (commandEnd_keygen_of_not_inRange hdraw hout rd pq)

end Sys2Proof.Machine
end

section
/-! PROOF. Signing (O55 to O57; `45_ecdsa.md` R252, R254, R260): what one attempt gives, in terms of the signing equation;
the loop over a list of draws; and SIGN's end from the loop's. -/

namespace Sys2Proof.Machine

/-! ### One attempt (R252) -/

/-- Modulo 37, `i` inverts `k`: the one solution `s` of `k·s ≡ m` is `i·m`. -/
theorem mul_mod_37_eq_iff {k i m sg : Nat} (hki : k * i % 37 = 1) (hsg : sg < 37) :
    k * sg % 37 = m % 37 ↔ sg = i * m % 37 := by
  have hki : k * i ≡ 1 [MOD 37] := hki
  constructor
  · intro h
    have hsol : sg ≡ i * m [MOD 37] :=
      calc sg = 1 * sg := (one_mul sg).symm
        _ ≡ k * i * sg [MOD 37] := hki.symm.mul_right sg
        _ = i * (k * sg) := by ring
        _ ≡ i * m [MOD 37] := Nat.ModEq.mul_left i h
    exact (Nat.mod_eq_of_lt hsg).symm.trans hsol
  · rintro rfl
    calc k * (i * m % 37) ≡ k * (i * m) [MOD 37] := (Nat.mod_modEq _ 37).mul_left k
      _ = k * i * m := by ring
      _ ≡ 1 * m [MOD 37] := hki.mul_right m
      _ = m := one_mul m

section Attempt

variable {d e k x y : Nat} (h1 : 1 ≤ k) (h36 : k ≤ 36) (hk : repeatedSum baseG k = .finite x y)
include h1 h36 hk

/-- An attempt retries by `r = 0` or by `s = 0`, which is `e + d·r ≡ 0` (R254 (ii), (iii)). -/
theorem signAttempt_eq_retry_iff :
    signAttempt Config.curveDs1 d e k = .retry ↔ x = 0 ∨ (e + d * x) % 37 = 0 := by
  obtain ⟨i, -, hki, -, hattempt⟩ := signAttempt_eq d e k h1 h36 x y hk
  have hzero : (e + d * x) % 37 = 0 ↔ i * (e + d * x) % 37 = 0 := by
    simpa [eq_comm] using mul_mod_37_eq_iff (m := e + d * x) hki (show 0 < 37 by decide)
  rw [hattempt, hzero]
  split_ifs with hx hs
  · simp [hx]
  · simp [hs]
  · simp [hx, hs]

/-- An attempt is accepted with the abscissa, when it is not 0, and the non-zero solution of the signing equation. -/
theorem signAttempt_eq_accept_iff (r sg : Nat) :
    signAttempt Config.curveDs1 d e k = .accept r sg ↔
      (x = r ∧ r ≠ 0) ∧ (1 ≤ sg ∧ sg ≤ 36) ∧ k * sg % 37 = (e + d * r) % 37 := by
  obtain ⟨i, -, hki, -, hattempt⟩ := signAttempt_eq d e k h1 h36 x y hk
  rw [hattempt]
  constructor
  · split_ifs with hx hs
    · exact fun h => nomatch h
    · exact fun h => nomatch h
    · rintro ⟨⟩
      exact ⟨⟨rfl, hx⟩, by omega, (mul_mod_37_eq_iff hki (by omega)).mpr rfl⟩
  · rintro ⟨⟨rfl, hx⟩, hsg, heq⟩
    have hsol := (mul_mod_37_eq_iff hki (by omega)).mp heq
    rw [if_neg hx, if_neg (by omega), ← hsol]

end Attempt

/-- The draws that `signRetries` names are those in range whose attempt retries. -/
theorem signRetries_iff (e d : Nat) (k : W64) :
    signRetries e d k = true ↔
      (1 ≤ k.toNat ∧ k.toNat ≤ 36) ∧ signAttempt Config.curveDs1 d e k.toNat = .retry := by
  rw [signRetries, Bool.and_eq_true, Bool.and_eq_true, decide_eq_true_iff, decide_eq_true_iff]
  refine and_congr_right fun ⟨h1, h36⟩ => ?_
  obtain ⟨x, y, hk⟩ := exists_repeatedSum_baseG_eq_finite h1 h36
  rw [signAttempt_eq_retry_iff h1 h36 hk, hk, Bool.or_eq_true, decide_eq_true_iff, decide_eq_true_iff]

/-! ### The loop over given draws (R260) -/

section Loop

variable {d e : Nat} {k : W64} {rest : List W64} {g : Rng} (hq : g.queued = k :: rest) (fuel att : Nat)
include hq

theorem signLoop_of_retry (hk : signRetries e d k = true) :
    signLoop Config.curveDs1 d e (fuel + 1) att g =
      signLoop Config.curveDs1 d e fuel (att + 1) { queued := rest, index := g.index + 1 } := by
  obtain ⟨hrange, hretry⟩ := (signRetries_iff e d k).mp hk
  rw [signLoop, Rng.draw_of_queued hq, if_pos ((inRange_iff _).mpr hrange), hretry]

theorem signLoop_of_accept {r sg : Nat} (h1 : 1 ≤ k.toNat) (h36 : k.toNat ≤ 36)
    (hk : signAttempt Config.curveDs1 d e k.toNat = .accept r sg) :
    signLoop Config.curveDs1 d e (fuel + 1) att g =
      .accepted (att + 1) { queued := rest, index := g.index + 1 } r sg := by
  rw [signLoop, Rng.draw_of_queued hq, if_pos ((inRange_iff _).mpr ⟨h1, h36⟩), hk]

theorem signLoop_of_not_inRange (hout : k.toNat = 0 ∨ 37 ≤ k.toNat) :
    signLoop Config.curveDs1 d e (fuel + 1) att g =
      .failed (att + 1) { queued := rest, index := g.index + 1 } .rng := by
  have hrange : ¬ inRange Config.curveDs1 k.toNat = true := by
    rw [inRange_iff]
    omega
  rw [signLoop, Rng.draw_of_queued hq, if_neg hrange]

end Loop

/-- Draws that retry use up one attempt each, and the loop goes on with the draws after them. -/
theorem signLoop_of_retries {d e : Nat} {bad rest : List W64} {g : Rng}
    (hbad : ∀ b ∈ bad, signRetries e d b = true) (hq : g.queued = bad ++ rest) (fuel att : Nat) :
    signLoop Config.curveDs1 d e (fuel + bad.length) att g =
      signLoop Config.curveDs1 d e fuel (att + bad.length) { queued := rest, index := g.index + bad.length } := by
  induction bad generalizing g att with
  | nil => rw [show rest = g.queued from hq.symm]; rfl
  | cons b bad ih =>
    obtain ⟨hb, hbad⟩ := List.forall_mem_cons.mp hbad
    rw [List.length_cons, ← Nat.add_assoc, signLoop_of_retry hq _ _ hb, ih hbad rfl]
    simp only [Nat.add_assoc, Nat.add_comm 1]

/-! ### SIGN (R260) -/

section Sign

variable {s : State} {rk : SReg} {v : Variant} {att : Nat} {g : Rng} (hfit : s.mlen.toNat ≤ Config.core.mbsize)
include hfit

/-- SIGN whose loop accepts a pair writes it, on the state the reducer leaves. -/
theorem exec_sign_of_accepted {r sg : Nat}
    (hloop : signLoop Config.core.curve (s.uintS rk) (s.reduce Config.core v).1 Config.retry 0 s.rng =
      .accepted att g r sg) (rr rs : SReg) :
    exec (.sign rr rs rk v) s = .next (completed { withScalar (withScalar (s.reduce Config.core v).2 rr r) rs sg with
      att := BitVec.ofNat 7 att, rng := g }) := by
  rw [exec_eq_report, commandEnd, signEnd, if_pos (State.messageOk_of_le hfit), hloop]
  rfl

/-- SIGN whose loop fails raises the loop's cause, on the state the reducer leaves (`60_exceptions.md` R304 c). -/
theorem exec_sign_of_failed {c : Cause}
    (hloop : signLoop Config.core.curve (s.uintS rk) (s.reduce Config.core v).1 Config.retry 0 s.rng =
      .failed att g c) (rr rs : SReg) :
    exec (.sign rr rs rk v) s = .next (failed { (s.reduce Config.core v).2 with
      att := BitVec.ofNat 7 att, rng := g } c.code.toNat) := by
  rw [exec_eq_report, commandEnd, signEnd, if_pos (State.messageOk_of_le hfit), hloop]
  exact congrArg _ (State.raise_eq_failed _ c)

end Sign

/-- The loop as SIGN starts it, past the draws that retry: what they leave of the 100 attempts goes on after them. -/
theorem signLoop_start_of_retries {d e : Nat} {bad rest : List W64} {g : Rng}
    (hbad : ∀ b ∈ bad, signRetries e d b = true) (hq : g.queued = bad ++ rest) {fuel : Nat}
    (hfuel : fuel + bad.length = 100) :
    signLoop Config.core.curve d e Config.retry 0 g =
      signLoop Config.curveDs1 d e fuel bad.length { queued := rest, index := g.index + bad.length } := by
  have hloop := signLoop_of_retries hbad hq fuel 0
  rw [hfuel, Nat.zero_add] at hloop
  exact hloop

/-- Settles O55: the loop passes the draws that retry, and accepts at the next. -/
theorem signAcceptsAfterRetries : Obligations.SignAcceptsAfterRetries := by
  intro s rr rs rk v bad rest k r y sg _ hfit hlen hbad hq h1 h36 hk hr hs1 hs36 heq
  have haccept := (signAttempt_eq_accept_iff h1 h36 hk r sg).mpr ⟨⟨rfl, hr⟩, ⟨hs1, hs36⟩, heq⟩
  obtain ⟨fuel, hfuel⟩ : ∃ fuel, fuel + 1 + bad.length = 100 := ⟨99 - bad.length, by omega⟩
  exact exec_sign_of_accepted hfit
    ((signLoop_start_of_retries hbad hq hfuel).trans (signLoop_of_accept rfl fuel _ h1 h36 haccept)) rr rs

/-- Settles O56: the loop passes the draws that retry, and then has no attempt left or meets a draw out of range. -/
theorem signFailsByExhaustionOrBadDraw : Obligations.SignFailsByExhaustionOrBadDraw := by
  intro s rr rs rk v bad rest hfit hbad
  refine ⟨fun hlen hq => ?exhausted, fun k hlen hq hout => ?badDraw⟩
  case exhausted =>
    have hloop := signLoop_start_of_retries hbad hq (show 0 + bad.length = 100 by omega)
    rw [signLoop, hlen] at hloop
    exact exec_sign_of_failed hfit hloop rr rs
  case badDraw =>
    obtain ⟨fuel, hfuel⟩ : ∃ fuel, fuel + 1 + bad.length = 100 := ⟨99 - bad.length, by omega⟩
    exact exec_sign_of_failed hfit
      ((signLoop_start_of_retries hbad hq hfuel).trans (signLoop_of_not_inRange rfl fuel _ hout)) rr rs

/-! ### A completed SIGN -/

/-- A SIGN that completes has its message inside `MB`, and leaves a pair that an attempt with a draw in range gave. -/
theorem exec_sign_completed {s t : State} {rr rs rk : SReg} {v : Variant} (hne : rr ≠ rs)
    (h : exec (.sign rr rs rk v) s = .next t) (hc : t.cause = 0) :
    s.mlen.toNat ≤ Config.core.mbsize ∧ ∃ r sg k : Nat, (1 ≤ k ∧ k ≤ 36) ∧
      signAttempt Config.curveDs1 s.scalars[rk].toNat (s.reduce Config.core v).1 k = .accept r sg ∧
      t.scalars[rr] = BitVec.ofNat 64 r ∧ t.scalars[rs] = BitVec.ofNat 64 sg := by
  obtain rfl := (exec_next_iff _ s t).mp h
  rw [commandEnd] at hc ⊢
  rcases signEnd_cases Config.core rr rs rk v s with
    ⟨-, hend⟩ | ⟨hok, n, u, -, -, -, ⟨r, sg, k, hend, hk, hattempt⟩ | ⟨c, hend, -⟩⟩
  case inl =>
    rw [hend] at hc
    exact absurd hc (Cause.code_ne_zero .bounds)
  case inr.inl =>
    rw [hend]
    refine ⟨of_decide_eq_true hok, r, sg, k, (inRange_iff k).mp hk, hattempt, ?rr, ?rs⟩
    case rr =>
      calc _ = (u.setScalar rr (toSW r)).scalars[rr] := (State.setScalar_getElem _ rs rr _).trans (if_neg hne.symm)
        _ = toSW r := (State.setScalar_getElem _ rr rr _).trans (if_pos rfl)
    case rs => exact (State.setScalar_getElem _ rs rs _).trans (if_pos rfl)
  case inr.inr =>
    rw [hend] at hc
    exact absurd hc c.code_ne_zero

/-- Settles O57: the accepted attempt's pair, small enough to be read back as written. -/
theorem signedPairSatisfiesTheEquation : Obligations.SignedPairSatisfiesTheEquation := by
  intro s t rr rs rk v hne h hc
  obtain ⟨-, r, sg, k, ⟨h1, h36⟩, hattempt, hrr, hrs⟩ := exec_sign_completed hne h hc
  obtain ⟨x, y, hk⟩ := exists_repeatedSum_baseG_eq_finite h1 h36
  obtain ⟨⟨rfl, hx⟩, ⟨hs1, hs36⟩, heq⟩ := (signAttempt_eq_accept_iff h1 h36 hk r sg).mp hattempt
  obtain ⟨hx29, -⟩ := reduced_of_repeatedSum_baseG hk
  have hr : t.scalars[rr].toNat = x := by rw [hrr, BitVec.toNat_ofNat, Nat.mod_eq_of_lt (by omega)]
  have hsg : t.scalars[rs].toNat = sg := by rw [hrs, BitVec.toNat_ofNat, Nat.mod_eq_of_lt (by omega)]
  rw [hr, hsg]
  exact ⟨by omega, by omega, hs1, hs36, k, y, h1, h36, hk, heq⟩

end Sys2Proof.Machine
end

section
/-! PROOF. Verification of a signature (O58, O60; `45_ecdsa.md` R254, R266, R267). The reducer gives VERIFY the scalar it
gave SIGN, because SIGN leaves the message alone; and on the multiples of the base point `u1·G + u2·Q` is `k·G`. -/

namespace Sys2Proof.Machine

/-- Settles O58: the range check comes before the reducer. -/
theorem verifyRejectsOutOfRange : Obligations.VerifyRejectsOutOfRange := by
  intro s rd rr rs pq v hfit hout
  have hranges : ¬ (inRange Config.core.curve (s.uintS rr) && inRange Config.core.curve (s.uintS rs)) = true := by
    intro h
    obtain ⟨hr, hs⟩ := (Bool.and_eq_true _ _).mp h
    have hr := (inRange_iff s.scalars[rr].toNat).mp hr
    have hs := (inRange_iff s.scalars[rs].toNat).mp hs
    omega
  exact exec_eq_completed ((if_pos (State.messageOk_of_le hfit)).trans (if_neg hranges))

/-! ### The reducers see the message alone (`44_hash_reducers.md` R231 to R234) -/

/-- The sum over a digest just written to `DG` is the sum of its bytes. -/
theorem State.digestSum_setDigest (n : Nat) {s : State} {d : List Byte} (hd : d.length ≤ 64) (hwf : s.dg.wf = true) :
    (s.setDigest d).digestSum n d.length = mod (byteSum d) n := by
  have hlen : (s.setDigest d).dlen.toNat = d.length := toNat_ofNat_seven (by omega)
  have hread : (s.setDigest d).dg.readBytes 0 d.length = d := by
    rw [← hlen]
    exact State.setDigest_digest s d hd hwf
  rw [State.digestSum, hread]

/-- The scalar of each variant, from the message: `redNone` of its first bytes, or the sum of its last digest. -/
def reducedScalar (cfg : Config) (m : List Byte) : Variant → Nat
  | .noHash => redNone cfg.curve.n (m.take Config.noHashBytes)
  | .hashA => mod (byteSum (digestA cfg.digestA m)) cfg.curve.n
  | .hashB => mod (byteSum (digestB cfg.digestB m Config.bSigLen)) cfg.curve.n
  | .hashAB => mod (byteSum (digestB cfg.digestB (digestA cfg.digestA m) Config.bSigLen)) cfg.curve.n

theorem Memory.take_readBytes (m : Memory) (a n k : Nat) : (m.readBytes a n).take k = m.readBytes a (min n k) := by
  rw [Memory.readBytes, ← List.map_take, List.take_range, Nat.min_comm]
  rfl

/-- Performing digest B leaves its output's sum in `DG`. -/
theorem State.digestSum_performDbHash (p : DigestBParams) (m : List Byte) (n : Nat) {s : State}
    (hwf : s.dg.wf = true) :
    (s.performDbHash p m Config.bSigLen).digestSum n Config.bSigLen = mod (byteSum (digestB p m Config.bSigLen)) n := by
  have hlen : (digestB p m Config.bSigLen).length = Config.bSigLen := digestB_length p m _ (by decide)
  have hsum := State.digestSum_setDigest n (s := (s.setHb (digestBState p m Config.bSigLen)).setHbl Config.bSigLen)
    (hlen.trans_le (by decide)) hwf
  rw [hlen] at hsum
  exact hsum

/-- With `DG` in its canonical form the reducer's scalar is a function of the message. -/
theorem State.reduce_fst (cfg : Config) (v : Variant) {s : State} (hwf : s.dg.wf = true) :
    (s.reduce cfg v).1 = reducedScalar cfg s.message v := by
  have hA : (digestA cfg.digestA s.message).length = 16 := digestA_length _ _
  cases v with
  | noHash =>
    rw [reducedScalar, State.message, Memory.take_readBytes]
    rfl
  | hashA =>
    have hsum := State.digestSum_setDigest cfg.curve.n (s := s.setHa (digestAState cfg.digestA s.message))
      (hA.trans_le (by decide)) hwf
    rw [hA] at hsum
    exact hsum
  | hashB => exact State.digestSum_performDbHash _ _ _ hwf
  | hashAB =>
    have hdigest : (s.performDaHash cfg.digestA).digest = digestA cfg.digestA s.message :=
      State.setDigest_digest _ _ (hA.trans_le (by decide)) hwf
    have hsum := State.digestSum_performDbHash cfg.digestB (s.performDaHash cfg.digestA).digest cfg.curve.n
      (State.setDigest_wf _ _ hwf : (s.performDaHash cfg.digestA).dg.wf = true)
    rw [reducedScalar, ← hdigest]
    exact hsum

/-! ### The verification equation on the multiples of the base point (R253, R254) -/

theorem baseMultiple_mod_congr {a b : Nat} (h : a % 37 = b % 37) : baseMultiple a = baseMultiple b :=
  congrArg (fun i : Fin 37 => baseMultiples[i]) (Fin.ext h)

/-- For a pair that satisfies the signing equation with `k`, `u1·G + u2·(d·G)` is `k·G` (R254 (v)). -/
theorem verification_sum_eq {e d r sg w k : Nat} (hw : sg * w % 37 = 1) (heq : k * sg % 37 = (e + d * r) % 37) :
    pointSum (repeatedSum baseG (e * w % 37)) (repeatedSum (repeatedSum baseG d) (r * w % 37)) =
      repeatedSum baseG k := by
  have hw : sg * w ≡ 1 [MOD 37] := hw
  have heq : k * sg ≡ e + d * r [MOD 37] := heq
  have hscalar : e * w % 37 + d * (r * w % 37) ≡ k [MOD 37] :=
    calc e * w % 37 + d * (r * w % 37) ≡ e * w + d * (r * w) [MOD 37] :=
          (Nat.mod_modEq _ 37).add ((Nat.mod_modEq _ 37).mul_left d)
      _ = (e + d * r) * w := by ring
      _ ≡ k * sg * w [MOD 37] := heq.symm.mul_right w
      _ = k * (sg * w) := by ring
      _ ≡ k * 1 [MOD 37] := hw.mul_left k
      _ = k := mul_one k
  simp only [repeatedSum_baseG, repeatedSum_baseMultiple, pointSum_baseMultiple]
  exact baseMultiple_mod_congr hscalar

/-! ### The round trip (R267) -/

/-- Every single write keeps the canonical form of `DG`. -/
theorem DataWrite.dg_wf {i : Instr} {s t : State} (hw : DataWrite i s t) (h : s.dg.wf = true) : t.dg.wf = true := by
  cases hw with
  | digest hd hl => exact State.setDigest_wf _ _ h
  | _ => exact h

theorem Writes.dg_wf {i : Instr} {s t : State} (hw : Writes i s t) (h : s.dg.wf = true) : t.dg.wf = true := by
  induction hw with
  | refl => exact h
  | tail _ hlast ih => exact hlast.dg_wf ih

theorem CommandEnd.report_dg (e : CommandEnd) : e.report.dg = e.state.dg := by cases e <;> rfl

theorem exec_dg_wf {i : Instr} {s t : State} (h : exec i s = .next t) (hwf : s.dg.wf = true) : t.dg.wf = true := by
  rw [(exec_next_iff i s t).mp h, CommandEnd.report_dg]
  exact (commandEnd_writes i s).dg_wf hwf

/-- SIGN leaves the message, so that a reducer gives the same scalar before and after it. -/
theorem reduce_fst_exec_sign {s t : State} {rr rs rk : SReg} {v : Variant} (h : exec (.sign rr rs rk v) s = .next t)
    (hwf : s.dg.wf = true) (v' : Variant) : (t.reduce Config.core v').1 = (s.reduce Config.core v').1 := by
  have hframe := exec_withinDests h
  rw [State.reduce_fst _ _ (exec_dg_wf h hwf), State.reduce_fst _ _ hwf, State.message, State.message, hframe.mb,
    hframe.mlen]

/-- Settles O60: the equation that VERIFY decides has the point `k·G`, whose abscissa is `r`. -/
theorem signThenVerifyIsValid : Obligations.SignThenVerifyIsValid := by
  intro s t rr rs rk rd pq v hwf hne _ _ hQ h hc
  obtain ⟨hr1, hr36, hs1, hs36, k, y, -, -, hk, heq⟩ := signedPairSatisfiesTheEquation s t rr rs rk v hne h hc
  obtain ⟨w, -, hw, hinv⟩ := modinv_n_spec t.scalars[rs].toNat hs1 hs36
  have hframe := exec_withinDests h
  have hfit : t.mlen.toNat ≤ Config.core.mbsize := by
    rw [hframe.mlen]
    exact (exec_sign_completed hne h hc).1
  have hQt : pointOf t.points[pq] = repeatedSum baseG s.scalars[rk].toNat := by
    rw [hframe.points pq List.not_mem_nil, hQ]
  have hverify := (verifyDecidesTheEquation t rd rr rs pq v w hfit hr1 hr36 hs1 hs36 hw hinv).2
    (hQt ▸ onCurve_repeatedSum_baseG _)
  have habscissa : abscissaIs t.scalars[rr].toNat (.finite t.scalars[rr].toNat y) = true :=
    decide_eq_true (Nat.mod_eq_of_lt (by omega))
  rw [hQt, reduce_fst_exec_sign h hwf, verification_sum_eq hinv heq, hk] at hverify
  simp only [habscissa, if_true] at hverify
  refine ⟨_, hverify, rfl, ?_⟩
  simp [completed, withScalar]

end Sys2Proof.Machine
end

section
/-! PROOF. The step that issues a command, and NOP (O5, O19; `46_system.md` R280, R286): a `CMD` write is the only host
operation that issues one, and the command is the one its low 32 bits decode to. -/

namespace Sys2Proof.Machine

/-- A step whose host operation issues a command runs it. -/
theorem step_of_hostMove_issue {s t : State} {i : Instr} {op : HostOp} {rest : List HostOp}
    (h : s.port.pending = op :: rest) (hm : hostMove Config.core (s.withPending rest) op = .issue i t) :
    step s = exec i t := by
  simp only [step, nextMove, h, hm]

/-- A `CMD` write of a command word issues the command (R286). -/
theorem hostMove_cmd_of_command {cfg : Config} {s : State} {v : W64} {i : Instr}
    (h : decode (v.setWidth 32) = .command i) : hostMove cfg s (.writeReg 0 v) = .issue i (s.reply .nothing) := by
  rw [hostMove, if_pos (show regPlace 0 = .cmd from rfl), h]

/-- Only a `CMD` write of a command word issues a command. -/
theorem exists_of_hostMove_eq_issue {cfg : Config} {s t : State} {op : HostOp} {i : Instr}
    (h : hostMove cfg s op = .issue i t) : ∃ v : W64, op = .writeReg 0 v ∧ decode (v.setWidth 32) = .command i := by
  cases op with
  | writeReg idx v =>
    by_cases hidx : idx = 0
    · subst hidx
      cases hd : decode (v.setWidth 32) with
      | command j =>
        rw [hostMove_cmd_of_command hd] at h
        injection h with hij
        exact ⟨v, rfl, hij ▸ hd⟩
      | illegal why =>
        rw [hostMove_cmd_of_illegal hd] at h
        contradiction
    · rw [hostMove, if_neg (regPlace_ne_cmd hidx)] at h
      contradiction
  | readReg idx => contradiction
  | readMB j => contradiction
  | writeMB j byte => contradiction
  | readDG j => contradiction
  | reset => contradiction

/-- Settles O5: the first pending operation issues the command; that the command is well-formed is not needed, since
it was decoded. -/
theorem stepIssuesDecodedCommand : Obligations.StepIssuesDecodedCommand := by
  intro s v rest i hp hd _
  exact step_of_hostMove_issue hp (hostMove_cmd_of_command hd)

/-- Settles O19: the word 0 is the encoding of NOP, whose data state is its start state. -/
theorem nopOnlyReports : Obligations.NopOnlyReports :=
  ⟨decodeInvertsEncode .nop rfl, fun _ => exec_eq_completed rfl⟩

end Sys2Proof.Machine
end

section
/-! PROOF. The sticky bits (O20; `46_system.md` R281, `10_state.md` R33): no write of a command but CLRE's, no report
and no host operation but a reset clears one. -/

namespace Sys2Proof.Machine

/-! ### Commands -/

/-- The writes of a command other than CLRE do not touch `ESTICKY`. -/
theorem Writes.esticky_eq {i : Instr} {s t : State} (hi : i ≠ .clre) (hw : Writes i s t) : t.esticky = s.esticky := by
  induction hw with
  | refl => rfl
  | tail _ hlast ih =>
    cases hlast with
    | sticky hc => exact absurd hc hi
    | _ => exact ih

/-- Bit `b` of `ESTICKY` is set. -/
def State.StickyBit (b : Nat) (s : State) : Prop := s.esticky.getLsbD b = true

theorem State.StickyBit.of_esticky_eq {b : Nat} {s t : State} (h : s.StickyBit b) (he : t.esticky = s.esticky) :
    t.StickyBit b :=
  (congrArg (BitVec.getLsbD · b) he).trans h

/-- Raising a cause sets a bit and clears none (`60_exceptions.md` R303). -/
theorem State.StickyBit.raise {b : Nat} {s : State} (h : s.StickyBit b) (c : Cause) : (s.raise c).StickyBit b := by
  have hset : s.esticky.getLsbD b = true := h
  rw [State.StickyBit, State.raise_esticky, stickyWith_getLsbD, hset, Bool.true_or]

theorem State.StickyBit.report {b : Nat} {e : CommandEnd} (h : e.state.StickyBit b) : e.report.StickyBit b := by
  cases e with
  | completes s => exact h
  | raises c s => exact h.raise c

/-- Every command but CLRE keeps every sticky bit. -/
theorem State.StickyBit.report_commandEnd {b : Nat} {s : State} (h : s.StickyBit b) {i : Instr} (hi : i ≠ .clre) :
    (commandEnd i s).report.StickyBit b :=
  State.StickyBit.report (h.of_esticky_eq ((commandEnd_writes i s).esticky_eq hi))

/-! ### Host operations -/

/-- `ESTICKY` is read-only to the host (`10_state.md` R36). -/
theorem State.writePlace_esticky (s : State) (v : W64) (p : RegPlace) : (s.writePlace v p).esticky = s.esticky := by
  cases p with
  | hbl =>
    rw [State.writePlace]
    split_ifs
    · rfl
    · rfl
  | _ => rfl

theorem State.hostWriteMB_esticky (cfg : Config) (s : State) (i : Nat) (byte : Byte) :
    (s.hostWriteMB cfg i byte).esticky = s.esticky := by
  rw [State.hostWriteMB_eq]

/-- Every host operation but a reset keeps every sticky bit, up to where its command starts. -/
theorem State.StickyBit.leaves_hostMove {b : Nat} {s : State} (h : s.StickyBit b) {op : HostOp} (hop : op ≠ .reset) :
    (hostMove Config.core s op).Leaves (State.StickyBit b) := by
  cases op with
  | readReg idx => exact h
  | writeReg idx v =>
    rw [hostMove]
    split_ifs
    · cases decode (v.setWidth 32) with
      | command i => exact h
      | illegal why => exact State.StickyBit.raise (s := s.reply .nothing) h .illegal
    · exact h.of_esticky_eq (s.writePlace_esticky v _)
  | readMB i => exact h
  | writeMB i byte => exact h.of_esticky_eq (s.hostWriteMB_esticky _ i byte)
  | readDG i => exact h
  | reset => exact absurd rfl hop

/-! ### CLRE -/

/-- A word decodes to CLRE only when it is CLRE's encoding. -/
theorem eq_of_decode_eq_clre {w : BitVec 32} (h : decode w = .command .clre) : w = 0x01000000 :=
  (encodeInvertsDecode w .clre h).2.symm

/-- Settles O20: a step keeps the sticky bits through a host operation other than a reset, and through the command that
the operation issues when that is not CLRE. -/
theorem clreAloneClearsSticky : Obligations.ClreAloneClearsSticky := by
  refine ⟨decodeInvertsEncode .clre rfl, fun _ => exec_eq_completed rfl, fun s t b hstep hset hclear => ?_⟩
  have hlost : ¬ t.StickyBit b := Bool.eq_false_iff.mp hclear
  rcases step_cases s t hstep with ⟨-, rfl⟩ | ⟨op, rest, hp, hmove⟩
  · exact absurd hset hlost
  refine ⟨rest, ?_⟩
  by_cases hop : op = .reset
  · exact .inl (hop ▸ hp)
  have hleaves := State.StickyBit.leaves_hostMove (s := s.withPending rest) hset hop
  rcases hmove with ⟨i, u, hissue, rfl⟩ | hdone
  · obtain ⟨v, rfl, hd⟩ := exists_of_hostMove_eq_issue hissue
    rw [hissue] at hleaves
    have hi : i = .clre := by_contra fun hi => hlost (State.StickyBit.report_commandEnd hleaves hi)
    exact .inr ⟨v, hp, eq_of_decode_eq_clre (hi ▸ hd)⟩
  · rw [hdone] at hleaves
    exact absurd hleaves hlost

end Sys2Proof.Machine
end

section
/-! PROOF. The draws of a command (O18; `46_system.md` R290, `45_ecdsa.md` R255, R260): KEYGEN's one draw is made before
anything else, and SIGN's are those of its loop, one an attempt. -/

namespace Sys2Proof.Machine

/-! ### The two commands that draw -/

theorem eq_keygen_of_mnemonic {i : Instr} (h : i.mnemonic = "KEYGEN") : ∃ rd pq, i = .keygen rd pq := by
  cases i with
  | keygen rd pq => exact ⟨rd, pq, rfl⟩
  | _ => simp [Instr.mnemonic] at h

theorem eq_sign_of_mnemonic {i : Instr} (h : i.mnemonic = "SIGN") : ∃ rr rs rk v, i = .sign rr rs rk v := by
  cases i with
  | sign rr rs rk v => exact ⟨rr, rs, rk, v, rfl⟩
  | _ => simp [Instr.mnemonic] at h

/-! ### What they leave in the random port and in `ATT` -/

theorem CommandEnd.report_rng (e : CommandEnd) : e.report.rng = e.state.rng := by cases e <;> rfl

theorem CommandEnd.report_att (e : CommandEnd) : e.report.att = e.state.att := by cases e <;> rfl

/-- KEYGEN makes one draw, whether it is in range or not (R255; `60_exceptions.md` R304 b). -/
theorem keygenEnd_state_rng (cfg : Config) (rd : SReg) (pq : PReg) (s : State) :
    (keygenEnd cfg rd pq s).state.rng = s.rng.draw.2 := by
  simp only [keygenEnd]
  split_ifs
  · cases pointMultiply cfg.curve s.rng.draw.1.toNat (basePoint cfg.curve) with
    | none => rfl
    | some q => rfl
  · rfl

/-- SIGN with its message inside `MB` makes `n` attempts, `n` from 1 to 100, and a draw in each (R260). -/
theorem signEnd_state_draws {cfg : Config} {s : State} (hfit : s.messageOk cfg = true) (rr rs rk : SReg) (v : Variant) :
    ∃ n, 1 ≤ n ∧ n ≤ 100 ∧ (signEnd cfg rr rs rk v s).state.att = BitVec.ofNat 7 n ∧
      (signEnd cfg rr rs rk v s).state.rng = { queued := s.rng.queued.drop n, index := s.rng.index + n } := by
  rcases signEnd_cases cfg rr rs rk v s with
    ⟨hunfit, -⟩ | ⟨-, n, u, h1, h100, rfl, ⟨r, sg, k, hend, -⟩ | ⟨c, hend, -⟩⟩
  case inl => exact absurd hfit (Bool.eq_false_iff.mp hunfit)
  case inr.inl =>
    rw [hend]
    exact ⟨n, h1, h100, rfl, rfl⟩
  case inr.inr =>
    rw [hend]
    exact ⟨n, h1, h100, rfl, rfl⟩

/-- Settles O18: a command that is neither KEYGEN nor SIGN has the random port in its frame. -/
theorem drawsPerCommand : Obligations.DrawsPerCommand := by
  intro i s t h
  have hreport := (exec_next_iff i s t).mp h
  refine ⟨fun hi => ?keygen, fun hi hfit => ?sign, fun hi hlong => ?bounds, (exec_withinDests h).rng⟩
  case keygen =>
    obtain ⟨rd, pq, rfl⟩ := eq_keygen_of_mnemonic hi
    calc t.rng = (keygenEnd Config.core rd pq s).state.rng := by rw [hreport, CommandEnd.report_rng]; rfl
      _ = s.rng.draw.2 := keygenEnd_state_rng _ rd pq s
      _ = _ := s.rng.draw_snd
  case sign =>
    obtain ⟨rr, rs, rk, v, rfl⟩ := eq_sign_of_mnemonic hi
    obtain ⟨n, h1, h100, hatt, hrng⟩ := signEnd_state_draws (State.messageOk_of_le hfit) rr rs rk v
    have hn : t.att.toNat = n := by
      rw [hreport, CommandEnd.report_att, commandEnd, hatt, toNat_ofNat_seven h100]
    rw [hn, hreport, CommandEnd.report_rng]
    exact ⟨h1, h100, hrng⟩
  case bounds =>
    obtain ⟨rr, rs, rk, v, rfl⟩ := eq_sign_of_mnemonic hi
    have hend : commandEnd (.sign rr rs rk v) s = .raises .bounds s := if_neg (State.not_messageOk hlong)
    rw [hreport, hend]
    exact ⟨rfl, rfl⟩

end Sys2Proof.Machine
end

section
/-! PROOF. How commands end (O15, O16; `60_exceptions.md` R303, R304) and the idle step (O7, R315): the report of a
command's end, from its data state; what a raised cause leaves behind it, command by command; and SIGN's failures after
its reducer, against the state HRED leaves. -/

namespace Sys2Proof.Machine

/-! ### The idle step -/

theorem nextMove_of_pending_nil {s : State} (h : s.port.pending = []) (cfg : Config) : nextMove cfg s = .idle := by
  rw [nextMove, h]

/-- Settles O7: with nothing pending the next move is the idle one. -/
theorem idleStepKeepsState : Obligations.IdleStepKeepsState := by
  intro s h
  rw [step, nextMove_of_pending_nil h]

/-! ### The report (R303) -/

/-- The data state of a command's end has the sticky bits of its start, but for CLRE's, which has none. -/
theorem commandEnd_state_esticky (i : Instr) (s : State) :
    (commandEnd i s).state.esticky = if i = .clre then 0 else s.esticky := by
  split_ifs with hi
  · subst hi
    rfl
  · exact (commandEnd_writes i s).esticky_eq hi

/-- A command that raises a cause is not CLRE. -/
theorem ne_clre_of_raises {i : Instr} {s u : State} {c : Cause} (h : commandEnd i s = .raises c u) : i ≠ .clre := by
  rintro rfl
  exact nomatch h

/-- Settles O15: the two ends of a command, each with the sticky bits of its data state. -/
theorem everyCommandReportsItsEnd : Obligations.EveryCommandReportsItsEnd := by
  intro i s
  refine ⟨_, exec_eq_report i s, ?_⟩
  have hsticky := commandEnd_state_esticky i s
  cases hend : commandEnd i s with
  | completes u =>
    rw [hend] at hsticky
    exact .inl ⟨rfl, rfl, hsticky⟩
  | raises c u =>
    rw [hend, if_neg (ne_clre_of_raises hend)] at hsticky
    obtain ⟨h1, h8⟩ := c.code_range
    rw [CommandEnd.report_raises, State.raise_eq_failed]
    exact .inr ⟨c.code.toNat, h1, h8, rfl, rfl, congrArg (· ||| _) hsticky⟩

/-! ### What a raised cause leaves (R304) -/

/-- If the end raises a cause, it leaves `s` as the data state. -/
inductive CommandEnd.FailsAt (s : State) : CommandEnd → Prop
  | completes (t : State) : FailsAt s (.completes t)
  | raises (c : Cause) : FailsAt s (.raises c s)

theorem CommandEnd.FailsAt.eq {s u : State} {c : Cause} (h : (CommandEnd.raises c u).FailsAt s) : u = s := by
  cases h
  rfl

theorem CommandEnd.FailsAt.ite {s : State} {p : Prop} {_ : Decidable p} {a b : CommandEnd} (ha : a.FailsAt s)
    (hb : b.FailsAt s) : (if p then a else b).FailsAt s := by
  split_ifs
  · exact ha
  · exact hb

theorem pointEnd_failsAt (pd : PReg) (s : State) (o : Option Point) : (pointEnd pd s o).FailsAt s := by
  cases o with
  | none => exact .raises _
  | some p => exact .completes _

/-- Every command but KEYGEN and SIGN makes its checks before its first write (R304). -/
theorem commandEnd_failsAt {i : Instr} (s : State) (hk : i.mnemonic ≠ "KEYGEN") (hs : i.mnemonic ≠ "SIGN") :
    (commandEnd i s).FailsAt s := by
  cases i with
  | nop | clre | daInit | daOut | pinf | pldg | pset | pisinf => exact .completes _
  | modred | modmul | dbOut => exact .ite (.raises _) (.completes _)
  | daCmp | daHash | dbInit | dbCmp | dbHashd | hred => exact .ite (.completes _) (.raises _)
  | dbHash => exact .ite (.ite (.completes _) (.raises _)) (.raises _)
  | verify => exact .ite (.ite (.completes _) (.completes _)) (.raises _)
  | modinv rd rv rm =>
    refine .ite (.raises _) ?_
    cases modinv (s.sintS rv) (s.uintS rm) with
    | none => exact .raises _
    | some x => exact .completes _
  | pgetx rd pa | pgety rd pa =>
    simp only [commandEnd, pgetxEnd, pgetyEnd]
    cases s.point pa with
    | inf => exact .raises _
    | finite x y => exact .completes _
  | padd | pdbl | pmul => exact pointEnd_failsAt _ s _
  | keygen => exact absurd rfl hk
  | sign => exact absurd rfl hs

/-- KEYGEN has made its draw before its first check (R304 b). -/
theorem keygenEnd_failsAt (cfg : Config) (rd : SReg) (pq : PReg) (s : State) :
    (keygenEnd cfg rd pq s).FailsAt (s.setRng s.rng.draw.2) := by
  refine .ite ?_ (.raises _)
  cases pointMultiply cfg.curve s.rng.draw.1.toNat (basePoint cfg.curve) with
  | none => exact .raises _
  | some q => exact .completes _

/-- A command that ends with a cause has raised it, and its state is the data state with that cause reported. -/
theorem exists_raises_of_cause_ne_zero {i : Instr} {s t : State} (h : exec i s = .next t) (hc : t.cause ≠ 0) :
    ∃ c u, commandEnd i s = .raises c u ∧ t = failed u t.cause.toNat := by
  obtain rfl := (exec_next_iff i s t).mp h
  cases hend : commandEnd i s with
  | completes u =>
    rw [hend] at hc
    exact absurd rfl hc
  | raises c u => exact ⟨c, u, rfl, u.raise_eq_failed c⟩

/-- A command whose raised cause leaves `u` as the data state ends, if with a cause, in `u` with the cause reported. -/
theorem CommandEnd.FailsAt.eq_failed {i : Instr} {s t u : State} (hu : (commandEnd i s).FailsAt u)
    (h : exec i s = .next t) (hc : t.cause ≠ 0) : t = failed u t.cause.toNat := by
  obtain ⟨c, u', hend, ht⟩ := exists_raises_of_cause_ne_zero h hc
  rw [hend] at hu
  rwa [hu.eq] at ht

/-! ### A failed SIGN (R304 c) -/

/-- SIGN ends with a cause either in its bounds check, or with its message inside `MB` in the loop: then `n` attempts
are drawn and counted on the state the reducer leaves. -/
theorem exec_sign_failed {s t : State} {rr rs rk : SReg} {v : Variant} (h : exec (.sign rr rs rk v) s = .next t)
    (hc : t.cause ≠ 0) :
    t = failed s 5 ∨
    (s.mlen.toNat ≤ Config.core.mbsize ∧ ∃ n c, 1 ≤ n ∧ n ≤ 100 ∧ (c = .exhausted ∨ c = .domain ∨ c = .rng) ∧
      t = (((s.reduce Config.core v).2.setRng
        { queued := s.rng.queued.drop n, index := s.rng.index + n }).setAtt n).raise c) := by
  obtain rfl := (exec_next_iff _ s t).mp h
  rw [commandEnd] at hc ⊢
  rcases signEnd_cases Config.core rr rs rk v s with
    ⟨-, hend⟩ | ⟨hok, n, u, h1, h100, rfl, ⟨r, sg, k, hend, -⟩ | ⟨c, hend, hcause⟩⟩
  case inl =>
    rw [hend]
    exact .inl (s.raise_eq_failed .bounds)
  case inr.inl =>
    rw [hend] at hc
    exact absurd rfl hc
  case inr.inr =>
    rw [hend]
    exact .inr ⟨of_decide_eq_true hok, n, c, h1, h100, hcause, rfl⟩

/-- The causes of the signing loop have the codes 2, 3 and 8, none of them that of `E_BOUNDS` (R302). -/
theorem code_of_loop_cause {c : Cause} (h : c = .exhausted ∨ c = .domain ∨ c = .rng) :
    (c.code = 2 ∨ c.code = 3 ∨ c.code = 8) ∧ c.code ≠ 5 := by
  rcases h with rfl | rfl | rfl
  · decide
  · decide
  · decide

theorem State.reduce_scalars (cfg : Config) (v : Variant) (s : State) : (s.reduce cfg v).2.scalars = s.scalars := by
  obtain ⟨ha, hb, hbl, dg, dlen, hreduce⟩ := s.reduce_frame cfg v
  rw [hreduce]

/-- Settles O16: where each command's raised cause leaves the data state, and for SIGN's loop the state that HRED
leaves on the same variant, with its scalar write undone. -/
theorem failedCommandChangesOnlyReport : Obligations.FailedCommandChangesOnlyReport := by
  intro i s t h hc
  refine ⟨fun hk hs => (commandEnd_failsAt s hk hs).eq_failed h hc, fun hk => ?keygen, ?bounds, ?loop⟩
  case keygen =>
    obtain ⟨rd, pq, rfl⟩ := eq_keygen_of_mnemonic hk
    exact (keygenEnd_failsAt Config.core rd pq s).eq_failed (i := .keygen rd pq) h hc
  case bounds =>
    rintro rr rs rk v rfl h5
    rcases exec_sign_failed h hc with ht | ⟨-, n, c, -, -, hcause, rfl⟩
    · exact ht
    · exact absurd h5 (code_of_loop_cause hcause).2
  case loop =>
    rintro rr rs rk v rfl h5
    rcases exec_sign_failed h hc with rfl | ⟨hfit, n, c, h1, h100, hcause, rfl⟩
    · exact absurd rfl h5
    · have hatt : (BitVec.ofNat 7 n).toNat = n := toNat_ofNat_seven h100
      refine ⟨(code_of_loop_cause hcause).1, hatt.symm ▸ h1, ?rng, _, exec_hred hfit rr v, ?state⟩
      case rng =>
        show Rng.mk (s.rng.queued.drop n) (s.rng.index + n) = _
        rw [State.raise_att, State.setAtt_att, hatt]
      case state =>
        rw [← State.reduce_scalars Config.core v s]
        exact State.raise_eq_failed _ c

end Sys2Proof.Machine
end

section
/-! PROOF. The reset by the host (O11; `70_reset_and_hazards.md` R330). -/

namespace Sys2Proof.Machine

/-- The reset operation leaves the reset state but for the two ports: the random port as it was, the host's plan
without a reply. -/
theorem hostMove_reset (cfg : Config) (s : State) :
    hostMove cfg s .reset =
      .done { State.reset with rng := s.rng, port := { s.port with reply := .nothing } } := rfl

/-- Settles O11: taking the operation changes the host's plan alone, and the reset then leaves both ports. -/
theorem hostResetRestoresResetState : Obligations.HostResetRestoresResetState := by
  intro s rest hp
  exact step_of_hostMove_done hp (hostMove_reset Config.core (s.withPending rest))

end Sys2Proof.Machine
end
